-- ==== Sys2Proof/Word.lean ====
section
/-! DEFINITION. The words of the block (00_scope.md R9, R10): bytes, the 16-bit command word and CRC, the 32-bit DATA
operand and RESULT register. All are core bit vectors, bit 0 the least significant (R10). -/

namespace Sys2Proof

/-- A byte (00_scope.md R9). -/
abbrev Byte := BitVec 8

/-- A 16-bit word: `CMD`, the CRC accumulator, a pulse duration (00_scope.md R9). -/
abbrev Half := BitVec 16

/-- A 32-bit word: `DATA`, `RESULT`, `FAULT`, a wire-codec value (00_scope.md R9). -/
abbrev Word := BitVec 32

/-- A 4-bit field: `UNIT` or `OP` of a command word (30_encoding.md R102). -/
abbrev Nibble := BitVec 4

end Sys2Proof
end

