-- ==== Sys2Proof/Syntax.lean ====
section
/-! DEFINITION. The commands of the block: one constructor per mnemonic of spec/opcode_table.json. The eleven channel
commands stand three times in the table, once per value of their operand `c = CMD[15:12]` (40_channel.md R158 to R168);
here the channel is the constructor's first argument. Operand fields a rule calls ignored (30_encoding.md R107, R108)
are no arguments. -/

namespace Sys2Proof

/-- The three channels (10_state.md R35); the unit numbers 0x0, 0x1, 0x2 (30_encoding.md R103). -/
inductive Chan where
  | ch0
  | ch1
  | ch2
  deriving DecidableEq, Repr

/-- A command with its operands as 30_encoding.md R108 decodes them. -/
inductive Instr where
  /-- `CH_WRITE_START chN` (40_channel.md R158). -/
  | chWriteStart (c : Chan)
  /-- `CH_WRITE chN, b` (40_channel.md R159). -/
  | chWrite (c : Chan) (b : Byte)
  /-- `CH_WRITE_END chN` (40_channel.md R160). -/
  | chWriteEnd (c : Chan)
  /-- `CH_WRITE_ABORT chN` (40_channel.md R161). -/
  | chWriteAbort (c : Chan)
  /-- `CH_HAS_CONTENT chN` (40_channel.md R162). -/
  | chHasContent (c : Chan)
  /-- `CH_READ_START chN` (40_channel.md R163). -/
  | chReadStart (c : Chan)
  /-- `CH_READ chN` (40_channel.md R164). -/
  | chRead (c : Chan)
  /-- `CH_PEEK chN, k` (40_channel.md R165). -/
  | chPeek (c : Chan) (k : Byte)
  /-- `CH_READ_END chN` (40_channel.md R166). -/
  | chReadEnd (c : Chan)
  /-- `CH_AVAIL chN` (40_channel.md R167). -/
  | chAvail (c : Chan)
  /-- `CH_IS_WRITING chN` (40_channel.md R168). -/
  | chIsWriting (c : Chan)
  /-- `RX_START h` (41_crc_receiver.md R204). -/
  | rxStart (h : Byte)
  /-- `RX_BYTE b` (41_crc_receiver.md R205). -/
  | rxByte (b : Byte)
  /-- `RX_IS_WRITING` (41_crc_receiver.md R206). -/
  | rxIsWriting
  /-- `PULSE H|L, d` (42_pulse_decoder.md R240). -/
  | pulse (isHigh : Bool) (d : Half)
  /-- `PD_STATUS` (42_pulse_decoder.md R260). -/
  | pdStatus
  /-- `ENC_BEGIN` (43_wire_encoder.md R282). -/
  | encBegin
  /-- `ENC_FIXED w, v` (43_wire_encoder.md R283); any `w` decodes, an illegal one faults. -/
  | encFixed (w : Byte) (v : Word)
  /-- `ENC_VARINT v` (43_wire_encoder.md R284). -/
  | encVarint (v : Word)
  /-- `ENC_TVARINT tag, v` (43_wire_encoder.md R285); tag 0 decodes and faults. -/
  | encTvarint (tag : Byte) (v : Word)
  /-- `ENC_TFIXED32 tag, v` (43_wire_encoder.md R286); tag 0 decodes and faults. -/
  | encTfixed32 (tag : Byte) (v : Word)
  /-- `ENC_END` (43_wire_encoder.md R287). -/
  | encEnd
  /-- `ENC_STATUS` (43_wire_encoder.md R288). -/
  | encStatus
  /-- `DEC_BEGIN chN` (44_wire_decoder.md R312); channel 3 decodes and faults. -/
  | decBegin (ch : BitVec 2)
  /-- `DEC_FIXED w` (44_wire_decoder.md R313); any `w` decodes, an illegal one faults. -/
  | decFixed (w : Byte)
  /-- `DEC_VARINT` (44_wire_decoder.md R314). -/
  | decVarint
  /-- `DEC_REMAIN` (44_wire_decoder.md R315). -/
  | decRemain
  /-- `DEC_STATUS` (44_wire_decoder.md R316). -/
  | decStatus
  /-- `NOP` (46_control.md R380). -/
  | nop
  /-- `CTRL_READ` (46_control.md R381). -/
  | ctrlRead
  /-- `CTRL_WRITE v` (46_control.md R382). -/
  | ctrlWrite (v : Byte)
  /-- `FAULT_READ` (46_control.md R383). -/
  | faultRead
  deriving DecidableEq, Repr

end Sys2Proof
end

