-- ==== Sys2Proof/WellFormed.lean ====
section
/-! DEFINITION. Well-formed commands: every operand in the legal set of 30_encoding.md R108. The types of `Instr` admit
exactly the words the command word can hold, so an ill-formed command is still an encodable one: it is the command that
faults `BAD_OPERAND` (60_exceptions.md R400, R402 step 2). -/

namespace Sys2Proof

/-- A width operand is legal only as 1, 2 or 4 (30_encoding.md R108). -/
def Instr.widthOperandLegal (w : Byte) : Bool := w == 1 || w == 2 || w == 4

/-- A tag operand is legal as 1..255 (30_encoding.md R108). -/
def Instr.tagOperandLegal (tag : Byte) : Bool := tag != 0

/-- `DEC_BEGIN`'s channel is legal as 0, 1, 2 (30_encoding.md R108). -/
def Instr.channelOperandLegal (ch : BitVec 2) : Bool := ch != 3

/-- Every operand of the command lies in its legal set (30_encoding.md R108). -/
def Instr.wf : Instr → Bool
  | .chWriteStart _ => true
  | .chWrite _ _ => true
  | .chWriteEnd _ => true
  | .chWriteAbort _ => true
  | .chHasContent _ => true
  | .chReadStart _ => true
  | .chRead _ => true
  | .chPeek _ _ => true
  | .chReadEnd _ => true
  | .chAvail _ => true
  | .chIsWriting _ => true
  | .rxStart _ => true
  | .rxByte _ => true
  | .rxIsWriting => true
  | .pulse _ _ => true
  | .pdStatus => true
  | .encBegin => true
  | .encFixed w _ => Instr.widthOperandLegal w
  | .encVarint _ => true
  | .encTvarint tag _ => Instr.tagOperandLegal tag
  | .encTfixed32 tag _ => Instr.tagOperandLegal tag
  | .encEnd => true
  | .encStatus => true
  | .decBegin ch => Instr.channelOperandLegal ch
  | .decFixed w => Instr.widthOperandLegal w
  | .decVarint => true
  | .decRemain => true
  | .decStatus => true
  | .nop => true
  | .ctrlRead => true
  | .ctrlWrite _ => true
  | .faultRead => true

end Sys2Proof
end

