-- ==== Sys2Proof/Decode.lean ====
section
/-! DEFINITION. Decoding and encoding of commands (30_encoding.md R102, R103, R107, R108, R110, R111). A command is a pair
`(CMD, DATA)` on the command port; the block stores it nowhere, so no byte order applies to it
(notes/assumptions/13.md). -/

namespace Sys2Proof

/-- Why a command word is illegal (30_encoding.md R110). -/
inductive DecodeReject where
  /-- `UNIT` is 0x7..0xE. -/
  | reservedUnit (unit : Nibble)
  /-- `OP` is reserved in its unit. -/
  | reservedOp (unit op : Nibble)
  deriving DecidableEq, Repr

/-- `CMD[15:12]` (30_encoding.md R102). -/
def unitField (cmd : Half) : Nibble := cmd.extractLsb' 12 4

/-- `CMD[11:8]` (30_encoding.md R102). -/
def opField (cmd : Half) : Nibble := cmd.extractLsb' 8 4

/-- `CMD[7:0]`, the field `IMM8` (30_encoding.md R102). -/
def imm8Field (cmd : Half) : Byte := cmd.extractLsb' 0 8

/-- The channel units' operations (30_encoding.md R107, first table). -/
def decodeChannel (c : Chan) (unit op : Nibble) (imm8 : Byte) : Except DecodeReject Instr :=
  match op.toNat with
  | 0x0 => .ok (.chWriteStart c)
  | 0x1 => .ok (.chWrite c imm8)
  | 0x2 => .ok (.chWriteEnd c)
  | 0x3 => .ok (.chWriteAbort c)
  | 0x4 => .ok (.chHasContent c)
  | 0x5 => .ok (.chReadStart c)
  | 0x6 => .ok (.chRead c)
  | 0x7 => .ok (.chPeek c imm8)
  | 0x8 => .ok (.chReadEnd c)
  | 0x9 => .ok (.chAvail c)
  | 0xA => .ok (.chIsWriting c)
  | _ => .error (.reservedOp unit op)

/-- The CRC receiver's operations (30_encoding.md R107). -/
def decodeReceiver (unit op : Nibble) (imm8 : Byte) : Except DecodeReject Instr :=
  match op.toNat with
  | 0x0 => .ok (.rxStart imm8)
  | 0x1 => .ok (.rxByte imm8)
  | 0x2 => .ok .rxIsWriting
  | _ => .error (.reservedOp unit op)

/-- The pulse decoder's operations: polarity `IMM8[0]`, duration `DATA[15:0]` (30_encoding.md R107, R108). -/
def decodePulse (unit op : Nibble) (imm8 : Byte) (data : Word) : Except DecodeReject Instr :=
  match op.toNat with
  | 0x0 => .ok (.pulse (imm8.getLsbD 0) (data.extractLsb' 0 16))
  | 0x1 => .ok .pdStatus
  | _ => .error (.reservedOp unit op)

/-- The wire encoder's operations (30_encoding.md R107). -/
def decodeEncoder (unit op : Nibble) (imm8 : Byte) (data : Word) : Except DecodeReject Instr :=
  match op.toNat with
  | 0x0 => .ok .encBegin
  | 0x1 => .ok (.encFixed imm8 data)
  | 0x2 => .ok (.encVarint data)
  | 0x3 => .ok (.encTvarint imm8 data)
  | 0x4 => .ok (.encTfixed32 imm8 data)
  | 0x5 => .ok .encEnd
  | 0x6 => .ok .encStatus
  | _ => .error (.reservedOp unit op)

/-- The wire decoder's operations; `DEC_BEGIN`'s channel is `IMM8[1:0]` (30_encoding.md R107, R108). -/
def decodeDecoder (unit op : Nibble) (imm8 : Byte) : Except DecodeReject Instr :=
  match op.toNat with
  | 0x0 => .ok (.decBegin (imm8.extractLsb' 0 2))
  | 0x1 => .ok (.decFixed imm8)
  | 0x2 => .ok .decVarint
  | 0x3 => .ok .decRemain
  | 0x4 => .ok .decStatus
  | _ => .error (.reservedOp unit op)

/-- The control unit's operations (30_encoding.md R107). -/
def decodeControl (unit op : Nibble) (imm8 : Byte) : Except DecodeReject Instr :=
  match op.toNat with
  | 0x0 => .ok .nop
  | 0x1 => .ok .ctrlRead
  | 0x2 => .ok (.ctrlWrite imm8)
  | 0x3 => .ok .faultRead
  | _ => .error (.reservedOp unit op)

/-- Decoding is total: every `CMD` selects one row of 30_encoding.md R107 or is illegal by R110 (R111). -/
def decode (cmd : Half) (data : Word) : Except DecodeReject Instr :=
  let unit := unitField cmd
  let op := opField cmd
  let imm8 := imm8Field cmd
  match unit.toNat with
  | 0x0 => decodeChannel .ch0 unit op imm8
  | 0x1 => decodeChannel .ch1 unit op imm8
  | 0x2 => decodeChannel .ch2 unit op imm8
  | 0x3 => decodeReceiver unit op imm8
  | 0x4 => decodePulse unit op imm8 data
  | 0x5 => decodeEncoder unit op imm8 data
  | 0x6 => decodeDecoder unit op imm8
  | 0xF => decodeControl unit op imm8
  | _ => .error (.reservedUnit unit)

/-- The unit number of a channel (30_encoding.md R103: the channel number is the unit number). -/
def chanUnit : Chan → Nibble
  | .ch0 => 0x0
  | .ch1 => 0x1
  | .ch2 => 0x2

/-- `UNIT` of a command (30_encoding.md R103). -/
def unitOf : Instr → Nibble
  | .chWriteStart c => chanUnit c
  | .chWrite c _ => chanUnit c
  | .chWriteEnd c => chanUnit c
  | .chWriteAbort c => chanUnit c
  | .chHasContent c => chanUnit c
  | .chReadStart c => chanUnit c
  | .chRead c => chanUnit c
  | .chPeek c _ => chanUnit c
  | .chReadEnd c => chanUnit c
  | .chAvail c => chanUnit c
  | .chIsWriting c => chanUnit c
  | .rxStart _ => 0x3
  | .rxByte _ => 0x3
  | .rxIsWriting => 0x3
  | .pulse _ _ => 0x4
  | .pdStatus => 0x4
  | .encBegin => 0x5
  | .encFixed _ _ => 0x5
  | .encVarint _ => 0x5
  | .encTvarint _ _ => 0x5
  | .encTfixed32 _ _ => 0x5
  | .encEnd => 0x5
  | .encStatus => 0x5
  | .decBegin _ => 0x6
  | .decFixed _ => 0x6
  | .decVarint => 0x6
  | .decRemain => 0x6
  | .decStatus => 0x6
  | .nop => 0xF
  | .ctrlRead => 0xF
  | .ctrlWrite _ => 0xF
  | .faultRead => 0xF

/-- `OP` of a command (30_encoding.md R107). -/
def opOf : Instr → Nibble
  | .chWriteStart _ => 0x0
  | .chWrite _ _ => 0x1
  | .chWriteEnd _ => 0x2
  | .chWriteAbort _ => 0x3
  | .chHasContent _ => 0x4
  | .chReadStart _ => 0x5
  | .chRead _ => 0x6
  | .chPeek _ _ => 0x7
  | .chReadEnd _ => 0x8
  | .chAvail _ => 0x9
  | .chIsWriting _ => 0xA
  | .rxStart _ => 0x0
  | .rxByte _ => 0x1
  | .rxIsWriting => 0x2
  | .pulse _ _ => 0x0
  | .pdStatus => 0x1
  | .encBegin => 0x0
  | .encFixed _ _ => 0x1
  | .encVarint _ => 0x2
  | .encTvarint _ _ => 0x3
  | .encTfixed32 _ _ => 0x4
  | .encEnd => 0x5
  | .encStatus => 0x6
  | .decBegin _ => 0x0
  | .decFixed _ => 0x1
  | .decVarint => 0x2
  | .decRemain => 0x3
  | .decStatus => 0x4
  | .nop => 0x0
  | .ctrlRead => 0x1
  | .ctrlWrite _ => 0x2
  | .faultRead => 0x3

/-- `IMM8` of a command; an omitted ignored field assembles as 0 (30_encoding.md R108, R112). -/
def imm8Of : Instr → Byte
  | .chWriteStart _ => 0
  | .chWrite _ b => b
  | .chWriteEnd _ => 0
  | .chWriteAbort _ => 0
  | .chHasContent _ => 0
  | .chReadStart _ => 0
  | .chRead _ => 0
  | .chPeek _ k => k
  | .chReadEnd _ => 0
  | .chAvail _ => 0
  | .chIsWriting _ => 0
  | .rxStart h => h
  | .rxByte b => b
  | .rxIsWriting => 0
  | .pulse isHigh _ => if isHigh then 1 else 0
  | .pdStatus => 0
  | .encBegin => 0
  | .encFixed w _ => w
  | .encVarint _ => 0
  | .encTvarint tag _ => tag
  | .encTfixed32 tag _ => tag
  | .encEnd => 0
  | .encStatus => 0
  | .decBegin ch => ch.setWidth 8
  | .decFixed w => w
  | .decVarint => 0
  | .decRemain => 0
  | .decStatus => 0
  | .nop => 0
  | .ctrlRead => 0
  | .ctrlWrite v => v
  | .faultRead => 0

/-- `DATA` of a command; an omitted DATA assembles as 0 (30_encoding.md R102, R108, R112). -/
def dataOf : Instr → Word
  | .chWriteStart _ => 0
  | .chWrite _ _ => 0
  | .chWriteEnd _ => 0
  | .chWriteAbort _ => 0
  | .chHasContent _ => 0
  | .chReadStart _ => 0
  | .chRead _ => 0
  | .chPeek _ _ => 0
  | .chReadEnd _ => 0
  | .chAvail _ => 0
  | .chIsWriting _ => 0
  | .rxStart _ => 0
  | .rxByte _ => 0
  | .rxIsWriting => 0
  | .pulse _ d => d.setWidth 32
  | .pdStatus => 0
  | .encBegin => 0
  | .encFixed _ v => v
  | .encVarint v => v
  | .encTvarint _ v => v
  | .encTfixed32 _ v => v
  | .encEnd => 0
  | .encStatus => 0
  | .decBegin _ => 0
  | .decFixed _ => 0
  | .decVarint => 0
  | .decRemain => 0
  | .decStatus => 0
  | .nop => 0
  | .ctrlRead => 0
  | .ctrlWrite _ => 0
  | .faultRead => 0

/-- The words `(CMD, DATA)` of a command: `CMD = UNIT[15:12], OP[11:8], IMM8[7:0]` (30_encoding.md R102). -/
def encode (i : Instr) : Half × Word := (unitOf i ++ opOf i ++ imm8Of i, dataOf i)

/-- The bits of `IMM8` a command's row of 30_encoding.md R107 does not call ignored. -/
def usedImm8 : Instr → Byte
  | .chWriteStart _ => 0x00
  | .chWrite _ _ => 0xFF
  | .chWriteEnd _ => 0x00
  | .chWriteAbort _ => 0x00
  | .chHasContent _ => 0x00
  | .chReadStart _ => 0x00
  | .chRead _ => 0x00
  | .chPeek _ _ => 0xFF
  | .chReadEnd _ => 0x00
  | .chAvail _ => 0x00
  | .chIsWriting _ => 0x00
  | .rxStart _ => 0xFF
  | .rxByte _ => 0xFF
  | .rxIsWriting => 0x00
  | .pulse _ _ => 0x01
  | .pdStatus => 0x00
  | .encBegin => 0x00
  | .encFixed _ _ => 0xFF
  | .encVarint _ => 0x00
  | .encTvarint _ _ => 0xFF
  | .encTfixed32 _ _ => 0xFF
  | .encEnd => 0x00
  | .encStatus => 0x00
  | .decBegin _ => 0x03
  | .decFixed _ => 0xFF
  | .decVarint => 0x00
  | .decRemain => 0x00
  | .decStatus => 0x00
  | .nop => 0x00
  | .ctrlRead => 0x00
  | .ctrlWrite _ => 0xFF
  | .faultRead => 0x00

/-- The bits of `DATA` a command's row of 30_encoding.md R107 does not call ignored. -/
def usedData : Instr → Word
  | .chWriteStart _ => 0
  | .chWrite _ _ => 0
  | .chWriteEnd _ => 0
  | .chWriteAbort _ => 0
  | .chHasContent _ => 0
  | .chReadStart _ => 0
  | .chRead _ => 0
  | .chPeek _ _ => 0
  | .chReadEnd _ => 0
  | .chAvail _ => 0
  | .chIsWriting _ => 0
  | .rxStart _ => 0
  | .rxByte _ => 0
  | .rxIsWriting => 0
  | .pulse _ _ => 0x0000FFFF
  | .pdStatus => 0
  | .encBegin => 0
  | .encFixed _ _ => 0xFFFFFFFF
  | .encVarint _ => 0xFFFFFFFF
  | .encTvarint _ _ => 0xFFFFFFFF
  | .encTfixed32 _ _ => 0xFFFFFFFF
  | .encEnd => 0
  | .encStatus => 0
  | .decBegin _ => 0
  | .decFixed _ => 0
  | .decVarint => 0
  | .decRemain => 0
  | .decStatus => 0
  | .nop => 0
  | .ctrlRead => 0
  | .ctrlWrite _ => 0
  | .faultRead => 0

/-- The pair `(CMD, DATA)` held in one number as spec/opcode_table.json numbers the bits: `CMD` in bits 15..0, `DATA` in
bits 47..16; bits above `nbits` are 0. DESIGN CHOICE, safe (notes/assumptions/13.md). -/
def tableWordPair (nbits w : Nat) : Half × Word :=
  let bits := w % 2 ^ nbits
  (BitVec.ofNat 16 bits, BitVec.ofNat 32 (bits / 2 ^ 16))

/-- The command the decoder reads from an instruction whose bits are `w`; none where the decoder rejects it. -/
def decodeTableWord (nbits w : Nat) : Option Instr :=
  let (cmd, data) := tableWordPair nbits w
  match decode cmd data with
  | .ok i => some i
  | .error _ => none

end Sys2Proof
end

