-- ==== Sys2Proof/Config.lean ====
section
/-! DEFINITION. The implementation parameters of 00_scope.md R8, fixed for the life of a block (70_reset_and_hazards.md
R441). A configuration is a field of the machine's state, so that every statement about a state holds for every
configuration; no value is built in (notes/assumptions/2.md). -/

namespace Sys2Proof

/-- The parameters of 00_scope.md R8, under its names. `HAS_EXT`, "any function u8 -> bool", is held as its table:
bit `b` of `hasExt` says whether it holds of the command byte `b` (notes/assumptions/6.md). -/
structure Config where
  n0 : Nat
  n1 : Nat
  n2 : Nat
  maxLen : Nat
  groupId : Byte
  crcInit : Half
  crcPoly : Half
  crcResidue : Half
  shortMin : Nat
  shortMax : Nat
  longMin : Nat
  longMax : Nat
  syncMinZeros : Nat
  hasExt : BitVec 256
  chkBase : Byte
  deriving DecidableEq, Repr

/-- The table of a predicate on bytes: bit `b` is 1 exactly when `f b` holds. -/
def Config.extTable (f : Byte → Bool) : BitVec 256 :=
  BitVec.ofNat 256 ((List.range 256).foldr (fun b acc => if f (BitVec.ofNat 8 b) then acc + 2 ^ b else acc) 0)

/-- The defaults of 00_scope.md R8. None is given by the source; `hasExt` is the table of `(cmd & 0x20) != 0`.
DESIGN CHOICE, unsafe: `State.reset` takes them (notes/assumptions/2.md). -/
def Config.default : Config where
  n0 := 128
  n1 := 32
  n2 := 64
  maxLen := 66
  groupId := 0xD4
  crcInit := 0xFFFF
  crcPoly := 0xA001
  crcResidue := 0x0000
  shortMin := 300
  shortMax := 499
  longMin := 500
  longMax := 750
  syncMinZeros := 6
  hasExt := 0xFFFFFFFF00000000FFFFFFFF00000000FFFFFFFF00000000FFFFFFFF00000000
  chkBase := 6

/-- A value within the closed range a parameter's row of 00_scope.md R8 gives. -/
def Config.within (lo hi v : Nat) : Bool := decide (lo ≤ v) && decide (v ≤ hi)

/-- The legal values of the table of 00_scope.md R8 (a parameter whose type allows only legal values needs no check). -/
def Config.legal (cfg : Config) : Bool :=
  Config.within 2 256 cfg.n0 && Config.within 2 256 cfg.n1 && Config.within 2 256 cfg.n2
    && Config.within 0 254 cfg.maxLen
    && Config.within 1 65535 cfg.shortMin && Config.within 1 65535 cfg.shortMax
    && decide (cfg.shortMin ≤ cfg.shortMax)
    && Config.within 1 65535 cfg.longMin && Config.within 1 65535 cfg.longMax
    && decide (cfg.longMin ≤ cfg.longMax)
    && Config.within 1 255 cfg.syncMinZeros

/-- The two pulse windows do not overlap (00_scope.md R8, well-formedness of a configuration). -/
def Config.windowsDisjoint (cfg : Config) : Bool :=
  decide (cfg.shortMax < cfg.longMin) || decide (cfg.longMax < cfg.shortMin)

/-- A frame's chunk fits a length byte (00_scope.md R8: `MAX_LEN + 1 <= 255`). -/
def Config.chunkFits (cfg : Config) : Bool := decide (cfg.maxLen + 1 ≤ 255)

/-- A configuration the block is defined for (00_scope.md R8); every other one is refused
(93_implementation_defined.md U24, notes/assumptions/3.md). -/
def Config.wf (cfg : Config) : Bool := cfg.legal && cfg.windowsDisjoint && cfg.chunkFits

end Sys2Proof
end

