-- ==== Sys2Proof/Machine/State.lean ====
section
/-! DEFINITION. The state of the block (10_state.md), as plain data, and its reset (10_state.md R48,
70_reset_and_hazards.md R440). Fields carry the spec's names. -/

namespace Sys2Proof.Machine

/-- A byte array as a list of (index, byte) pairs, indices strictly rising, no byte equal to what an unlisted index
reads as (`Memory.wf` in Machine/Ops.lean). -/
structure Memory where
  cells : List Host.Cell
  deriving DecidableEq, Repr

/-- What an unlisted index reads as. The spec leaves storage unspecified at reset and lets a model choose any value
(10_state.md R48, 93_implementation_defined.md U9). DESIGN CHOICE, unsafe (notes/assumptions/4.md). -/
def Memory.blank : Byte := 0x00

/-- One channel: ring buffer, chunk writer and chunk reader (10_state.md R36, R37, R38). -/
structure Channel where
  /-- `buf_c`, the storage (R36). -/
  buf : Memory
  /-- `rd_c`, the read cursor (R36). -/
  rd : Nat
  /-- `wr_c`, the write cursor (R36). -/
  wr : Nat
  /-- `count_c`, bytes stored, committed and uncommitted (R36). -/
  count : Nat
  /-- `writing_c`, a chunk is open for writing (R37). -/
  writing : Bool
  /-- `wstart_c`, index of the open chunk's length byte (R37). -/
  wstart : Nat
  /-- `wbytes_c`, bytes the open chunk occupies, length byte included (R37). -/
  wbytes : Nat
  /-- `wlost_c`, the open chunk cannot be committed (R37). -/
  wlost : Bool
  /-- `nchunks_c`, committed chunks not yet released (R38). -/
  nchunks : Nat
  /-- `ropen_c`, the oldest committed chunk is open for reading (R38). -/
  ropen : Bool
  /-- `rlen_c`, content length of the chunk open for reading (R38). -/
  rlen : Nat
  /-- `rpos_c`, content bytes already returned by `CH_READ` (R38). -/
  rpos : Nat
  deriving DecidableEq, Repr

/-- `rxState` (10_state.md R42, 41_crc_receiver.md R201). -/
inductive RxState where
  | idle
  | length
  | data
  deriving DecidableEq, Repr

/-- `pdPhase` (10_state.md R43). -/
inductive PdPhase where
  | hunt
  | data
  deriving DecidableEq, Repr

/-- The class of a pulse inside one of the two windows (42_pulse_decoder.md R232). -/
inductive PulseClass where
  | short
  | long
  deriving DecidableEq, Repr

/-- The agents that issue commands (00_scope.md R20). The block does not check which one did. -/
inductive Agent where
  | byteSrc
  | pulseSrc
  | host
  deriving DecidableEq, Repr

/-- One transaction of the command port: the pair of 30_encoding.md R102 and the agent that issued it. -/
structure Command where
  agent : Agent
  cmd : Half
  data : Word
  deriving DecidableEq, Repr

/-- What reaches the block from outside, between commands: a command (00_scope.md R21) or the reset event
(70_reset_and_hazards.md R440). -/
inductive Input where
  | command (t : Command)
  | reset
  deriving DecidableEq, Repr

/-- The causes of the spec's usage-error faults (60_exceptions.md R400). Taking one is a NEXT state that records it in
`FAULT` (R401); it does not stop the machine. -/
inductive FaultCause where
  | illegalCommand
  | nestedWriteStart
  | noOpenChunk
  | channelOwned
  | readEmpty
  | readAlreadyOpen
  | readNotOpen
  | readPastEnd
  | badOperand
  | encAlreadyOpen
  | encNotOpen
  | decNoSource
  | decNotOpen
  deriving DecidableEq, Repr

/-- The machine's stops that are not refusals. -/
inductive Fault where
  /-- Raised by `step` when no input is left: "A run ends when its command sequence ends; the end state is the state
  after its last step" (70_reset_and_hazards.md R460). Safe (notes/assumptions/1.md). -/
  | runEnded
  deriving DecidableEq, Repr

/-- The machine's refusals. -/
inductive Refusal where
  /-- A command without a meaning in this model; no arm answers it. Safe. -/
  | notModelled (mnemonic : String)
  /-- Raised by `step` for a configuration the block is not defined for: 00_scope.md R8 refuses it, to be rejected
  before running (93_implementation_defined.md U24). Safe (notes/assumptions/3.md). -/
  | illFormedConfig
  deriving DecidableEq, Repr

/-- The whole state. -/
structure State where
  /-- The parameters of the instance, read and changed by no command (70_reset_and_hazards.md R441). -/
  cfg : Config
  /-- `RESULT` (10_state.md R30). -/
  result : Word
  /-- `CTRL` (10_state.md R33). -/
  ctrl : Byte
  /-- `FAULT` (10_state.md R34). -/
  fault : Word
  /-- Channel CH0, the CRC receiver's frames (10_state.md R35). -/
  ch0 : Channel
  /-- Channel CH1, the pulse decoder's packets (10_state.md R35). -/
  ch1 : Channel
  /-- Channel CH2, the encoder's messages and the host's chunks (10_state.md R35). -/
  ch2 : Channel
  /-- `rxState` (10_state.md R42). -/
  rxState : RxState
  /-- `rxCrc`, the running CRC (10_state.md R42). -/
  rxCrc : Half
  /-- `rxRem`, bytes still expected in `DATA` (10_state.md R42). -/
  rxRem : Nat
  /-- `pdPhase` (10_state.md R43). -/
  pdPhase : PdPhase
  /-- `pdZeros`, consecutive zero bits seen in `HUNT` (10_state.md R43). -/
  pdZeros : Byte
  /-- `pdPend`, the class of the high pulse waiting for its partner; none is the spec's `NONE` (10_state.md R43). -/
  pdPend : Option PulseClass
  /-- `pdBits`, bits of the current byte shifted in (10_state.md R43). -/
  pdBits : Nat
  /-- `pdShift`, those bits, first most significant (10_state.md R43). -/
  pdShift : BitVec 9
  /-- `pdCount`, bytes of the packet accepted so far (10_state.md R43). -/
  pdCount : Nat
  /-- `pdExpect`, the packet length in bytes (10_state.md R43). -/
  pdExpect : Nat
  /-- `pdBytes[0..5]`, the bytes accepted so far (10_state.md R43). -/
  pdBytes : Vector Byte 6
  /-- `encOpen`, a message is being encoded into CH2 (10_state.md R45). -/
  encOpen : Bool
  /-- `encValid`, every field so far fitted (10_state.md R45). -/
  encValid : Bool
  /-- `decOpen`, a decode is open (10_state.md R46). -/
  decOpen : Bool
  /-- `decCh`, the channel whose open read chunk is decoded (10_state.md R46). -/
  decCh : Chan
  /-- `decPos`, content offset of the next byte to decode (10_state.md R46). -/
  decPos : Nat
  /-- `decOk`, no decode step has failed (10_state.md R46). -/
  decOk : Bool
  /-- The MODEL's: inputs still to arrive, in step order (00_scope.md R21; notes/assumptions/1.md). -/
  inputs : List Input
  /-- The MODEL's: number of commands taken so far (10_state.md R31; notes/assumptions/7.md). -/
  position : Nat
  deriving DecidableEq, Repr

/-- Storage in which nothing has been written. -/
def Memory.empty : Memory := ⟨[]⟩

/-- A channel after reset (10_state.md R48): empty, no chunk open; storage unspecified, so unwritten. -/
def Channel.reset : Channel where
  buf := Memory.empty
  rd := 0
  wr := 0
  count := 0
  writing := false
  wstart := 0
  wbytes := 0
  wlost := false
  nchunks := 0
  ropen := false
  rlen := 0
  rpos := 0

/-- The reset state of a block built with the parameters `cfg` (10_state.md R48, 70_reset_and_hazards.md R440). -/
def State.resetWith (cfg : Config) : State where
  cfg := cfg
  result := 0x00000000
  ctrl := 0x01
  fault := 0x00000000
  ch0 := Channel.reset
  ch1 := Channel.reset
  ch2 := Channel.reset
  rxState := .idle
  rxCrc := 0x0000
  rxRem := 0
  pdPhase := .hunt
  pdZeros := 0
  pdPend := none
  pdBits := 0
  pdShift := 0
  pdCount := 0
  pdExpect := 5
  pdBytes := Vector.replicate 6 0x00
  encOpen := false
  encValid := false
  decOpen := false
  decCh := .ch0
  decPos := 0
  decOk := false
  inputs := []
  position := 0

/-- The machine right after reset, with the default parameters of 00_scope.md R8 and nothing on the command port.
DESIGN CHOICE, unsafe (notes/assumptions/2.md). -/
def State.reset : State := State.resetWith Config.default

/-- The channel numbered `c`. -/
def State.chan (s : State) : Chan → Channel
  | .ch0 => s.ch0
  | .ch1 => s.ch1
  | .ch2 => s.ch2

/-- The state with channel `c` replaced. -/
def State.setChan (s : State) (c : Chan) (ch : Channel) : State :=
  match c with
  | .ch0 => { s with ch0 := ch }
  | .ch1 => { s with ch1 := ch }
  | .ch2 => { s with ch2 := ch }

/-- The capacity `N_c` of channel `c` (00_scope.md R8). -/
def State.capacity (s : State) : Chan → Nat
  | .ch0 => s.cfg.n0
  | .ch1 => s.cfg.n1
  | .ch2 => s.cfg.n2

/-- The output level `HAS_CONTENT_c = (nchunks_c > 0)` (10_state.md R47, 60_exceptions.md R410). -/
def State.hasContentOutput (s : State) (c : Chan) : Bool := decide ((s.chan c).nchunks > 0)

end Sys2Proof.Machine
end

