-- ==== Sys2Proof/Machine/Ops.lean ====
section
/-! DEFINITION. The shared operations: one byte of storage, the ring-buffer and chunk primitives of 40_channel.md
sections 1 and 2, recording a fault (60_exceptions.md R401), the command port and the reset event. -/

namespace Sys2Proof.Machine

/-- The answer of every meaning. -/
abbrev Outcome := Host.Outcome State Fault Refusal

/-! ### Storage (20_memory.md R70) -/

/-- The byte a list of cells holds at `a`. -/
def readCells : List Host.Cell → Nat → Byte
  | [], _ => Memory.blank
  | (a', v) :: rest, a => if a = a' then v else readCells rest a

/-- The cells without any at `a`. -/
def eraseCell (cells : List Host.Cell) (a : Nat) : List Host.Cell := cells.filter (fun cell => cell.1 != a)

/-- The cells with `(a, v)` put in at its place in rising order. -/
def insertCell (a : Nat) (v : Byte) : List Host.Cell → List Host.Cell
  | [] => [(a, v)]
  | (a', v') :: rest => if a < a' then (a, v) :: (a', v') :: rest else (a', v') :: insertCell a v rest

/-- The cells after `a` is set to `v`, in the canonical form: writing what an unlisted index reads as lists nothing. -/
def writeCells (cells : List Host.Cell) (a : Nat) (v : Byte) : List Host.Cell :=
  if v = Memory.blank then eraseCell cells a else insertCell a v (eraseCell cells a)

/-- One byte of a channel's storage: `MemRead((c, a), 1)` (20_memory.md R70). -/
def Memory.read (m : Memory) (a : Nat) : Byte := readCells m.cells a

/-- `MemWrite((c, a), 1, v)` (20_memory.md R70). -/
def Memory.write (m : Memory) (a : Nat) (v : Byte) : Memory := ⟨writeCells m.cells a v⟩

/-- Addresses strictly rising, each at least `lo`, and no cell equal to what an unlisted index reads as. -/
def cellsWf : Nat → List Host.Cell → Bool
  | _, [] => true
  | lo, (a, v) :: rest => decide (lo ≤ a) && decide (v ≠ Memory.blank) && cellsWf (a + 1) rest

/-- The canonical form of storage. -/
def Memory.wf (m : Memory) : Bool := cellsWf 0 m.cells

/-- The storage byte at index `i`, taken modulo the capacity (20_memory.md R72; notes/assumptions/5.md). -/
def Channel.byteAt (n : Nat) (ch : Channel) (i : Nat) : Byte := ch.buf.read (i % n)

/-! ### Ring-buffer primitives (40_channel.md R150, R151); `n` is the capacity `N_c` -/

/-- `RB_put` when there is room; none when the byte is dropped (40_channel.md R150). -/
def rbPut (n : Nat) (b : Byte) (ch : Channel) : Option Channel :=
  if ch.count < n then
    some { ch with buf := ch.buf.write (ch.wr % n) b, wr := (ch.wr + 1) % n, count := ch.count + 1 }
  else none

/-- `RB_peek`: the `k`-th stored byte from the read cursor (40_channel.md R151). -/
def rbPeek (n : Nat) (k : Nat) (ch : Channel) : Byte := ch.byteAt n (ch.rd + k)

/-- `RB_drop`: consume `k` bytes (40_channel.md R151). -/
def rbDrop (n : Nat) (k : Nat) (ch : Channel) : Channel :=
  { ch with rd := (ch.rd + k) % n, count := ch.count - k }

/-! ### Chunk primitives (40_channel.md R154 to R157) -/

/-- `ChunkStart`: open a chunk and reserve its length byte (40_channel.md R154). -/
def chunkStart (n : Nat) (ch : Channel) : Channel :=
  let opened := { ch with writing := true, wstart := ch.wr, wbytes := 0, wlost := false }
  match rbPut n 0x00 opened with
  | some ch' => { ch' with wbytes := 1 }
  | none => { opened with wlost := true }

/-- `ChunkPut`: append a byte to the open chunk (40_channel.md R155). -/
def chunkPut (n : Nat) (b : Byte) (ch : Channel) : Channel :=
  if ch.wlost then ch
  else if ch.wbytes - 1 = 255 then { ch with wlost := true }
  else
    match rbPut n b ch with
    | some ch' => { ch' with wbytes := ch.wbytes + 1 }
    | none => { ch with wlost := true }

/-- `ChunkAbort`: discard the open chunk (40_channel.md R157). -/
def chunkAbort (ch : Channel) : Channel :=
  { ch with wr := ch.wstart, count := ch.count - ch.wbytes, writing := false, wbytes := 0, wlost := false }

/-- The channel after `ChunkEnd`: committed, or discarded when lost (40_channel.md R156). -/
def chunkEnd (n : Nat) (ch : Channel) : Channel :=
  if ch.wlost then chunkAbort ch
  else
    { ch with
      buf := ch.buf.write (ch.wstart % n) (BitVec.ofNat 8 (ch.wbytes - 1))
      nchunks := ch.nchunks + 1
      writing := false
      wbytes := 0 }

/-- What `ChunkEnd` answers: true when the chunk was committed (40_channel.md R156). -/
def chunkEndCommits (ch : Channel) : Bool := !ch.wlost

/-- A list of bytes appended one by one. -/
def chunkPutAll (n : Nat) (bs : List Byte) (ch : Channel) : Channel := bs.foldl (fun acc b => chunkPut n b acc) ch

/-! ### On the state -/

/-- `RESULT <- v` (00_scope.md R12). -/
def State.setResult (s : State) (v : Word) : State := { s with result := v }

/-- Replace channel `c` by its image under `f`, which is given the capacity `N_c`. -/
def State.onChan (s : State) (c : Chan) (f : Nat → Channel → Channel) : State :=
  s.setChan c (f (s.capacity c) (s.chan c))

/-- Content byte `k` of the chunk open for reading on channel `c`: `RB_peek(c, 1 + k)` (44_wire_decoder.md R310). -/
def State.contentByte (s : State) (c : Chan) (k : Nat) : Byte := rbPeek (s.capacity c) (1 + k) (s.chan c)

/-! ### Faults (60_exceptions.md R400, R401) -/

/-- The cause codes (60_exceptions.md R400). -/
def FaultCause.code : FaultCause → Byte
  | .illegalCommand => 0x01
  | .nestedWriteStart => 0x02
  | .noOpenChunk => 0x03
  | .channelOwned => 0x04
  | .readEmpty => 0x05
  | .readAlreadyOpen => 0x06
  | .readNotOpen => 0x07
  | .readPastEnd => 0x08
  | .badOperand => 0x09
  | .encAlreadyOpen => 0x0A
  | .encNotOpen => 0x0B
  | .decNoSource => 0x0C
  | .decNotOpen => 0x0D

/-- The word `FAULT` takes: `(1 << 16) | (UNIT << 12) | (OP << 8) | cause` (60_exceptions.md R401). -/
def faultWord (unit op : Nibble) (cause : FaultCause) : Word :=
  ((1 : Word) <<< 16) ||| (unit.setWidth 32 <<< 12) ||| (op.setWidth 32 <<< 8) ||| cause.code.setWidth 32

/-- `raise Fault(cause)`: only the first fault since reset is recorded; nothing else changes (60_exceptions.md R401). -/
def recordFault (unit op : Nibble) (cause : FaultCause) (s : State) : State :=
  if s.fault.getLsbD 16 then s else { s with fault := faultWord unit op cause }

/-- A command that ends in `raise Fault(cause)`; its `UNIT` and `OP` are the command's own (60_exceptions.md R401). -/
def raiseFault (i : Instr) (cause : FaultCause) (s : State) : Outcome :=
  .next (recordFault (unitOf i) (opOf i) cause s)

/-- An illegal command: `ILLEGAL_COMMAND` and no other effect (30_encoding.md R110). -/
def performIllegal (cmd : Half) (s : State) : Outcome :=
  .next (recordFault (unitField cmd) (opField cmd) .illegalCommand s)

/-! ### The command port and the reset event -/

/-- The state once a command has been taken from the port; the position advances by exactly 1 (10_state.md R31). -/
def State.takeCommand (s : State) (rest : List Input) : State :=
  { s with inputs := rest, position := s.position + 1 }

/-- The reset event: every field at its value of 10_state.md R48, the parameters kept (70_reset_and_hazards.md R440,
R441). The inputs still to come and their numbering are the outside's (notes/assumptions/8.md). -/
def State.takeReset (s : State) (rest : List Input) : State :=
  { State.resetWith s.cfg with inputs := rest, position := s.position }

/-- The state with a command put first on the port, as `HOST` issues it. -/
def State.issue (s : State) (cmd : Half) (data : Word) : State :=
  { s with inputs := .command ⟨.host, cmd, data⟩ :: s.inputs }

end Sys2Proof.Machine
end

