-- ==== Sys2Proof/Machine/Flags.lean ====
section
/-! DEFINITION. The block has no status flags (10_state.md R32): a boolean answer is returned in `RESULT` as 0 or 1 by
the command that asks for it, and the pulse decoder's status as one word (42_pulse_decoder.md R260). Those words are
computed here. -/

namespace Sys2Proof.Machine

/-- A boolean answer as a word: 0 or 1 (10_state.md R32). -/
def boolWord (b : Bool) : Word := if b then 1 else 0

/-- The bit `CRC_EN` of `CTRL` (10_state.md R33). -/
def State.crcEnabled (s : State) : Bool := s.ctrl.getLsbD 0

/-- `pendcode`: 0 for NONE, 1 for SHORT, 2 for LONG (42_pulse_decoder.md R260). -/
def pendCode : Option PulseClass → BitVec 2
  | none => 0
  | some .short => 1
  | some .long => 2

/-- The word `PD_STATUS` answers: `pdZeros`, `pdCount`, `pdBits`, a 0 bit, the pending class, the phase
(42_pulse_decoder.md R260). -/
def pdStatusWord (s : State) : Word :=
  (s.pdZeros ++ BitVec.ofNat 8 s.pdCount ++ BitVec.ofNat 4 s.pdBits ++ 0#1 ++ pendCode s.pdPend
    ++ BitVec.ofBool (s.pdPhase == .data)).setWidth 32

end Sys2Proof.Machine
end

