-- ==== Sys2Proof/Machine/Operands.lean ====
section
/-! DEFINITION. Operand forms and the byte functions commands share: operand legality (30_encoding.md R108), pulse
classes (42_pulse_decoder.md R232), the CRC update (30_encoding.md R101), varints, keys and fixed-width fields
(30_encoding.md R120 to R123). -/

namespace Sys2Proof.Machine

/-! ### Operand legality (30_encoding.md R108) -/

/-- The width in bytes a width operand names: 1, 2 or 4; none otherwise. -/
def widthOperand (w : Byte) : Option Nat :=
  if w = 1 then some 1 else if w = 2 then some 2 else if w = 4 then some 4 else none

/-- The channel `DEC_BEGIN` names: 0, 1 or 2; none for 3. -/
def channelOperand (ch : BitVec 2) : Option Chan :=
  if ch = 0 then some .ch0 else if ch = 1 then some .ch1 else if ch = 2 then some .ch2 else none

/-- The number of a channel as `DEC_BEGIN` takes it (30_encoding.md R108). -/
def chanOperand : Chan → BitVec 2
  | .ch0 => 0
  | .ch1 => 1
  | .ch2 => 2

/-- `owned(c)`: the channel's writer is a unit, not the host (40_channel.md section 3, 10_state.md R40). -/
def owned (s : State) : Chan → Bool
  | .ch0 => true
  | .ch1 => true
  | .ch2 => s.encOpen

/-! ### Pulse classes (42_pulse_decoder.md R232) -/

/-- `classify(d)`; none is INVALID. Both windows are inclusive. -/
def classify (cfg : Config) (d : Half) : Option PulseClass :=
  if cfg.shortMin ≤ d.toNat ∧ d.toNat ≤ cfg.shortMax then some .short
  else if cfg.longMin ≤ d.toNat ∧ d.toNat ≤ cfg.longMax then some .long
  else none

/-! ### The CRC (30_encoding.md R100, R101) -/

/-- One of the eight shifts of `crc16_upd`. -/
def crcShift (poly crc : Half) : Half :=
  if crc.getLsbD 0 then (crc >>> 1) ^^^ poly else crc >>> 1

/-- `k` shifts of `crc16_upd`. -/
def crcShifts (poly : Half) : Nat → Half → Half
  | 0, crc => crc
  | k + 1, crc => crcShifts poly k (crcShift poly crc)

/-- `crc16_upd(crc, b)` (30_encoding.md R101). -/
def crc16Upd (poly crc : Half) (b : Byte) : Half := crcShifts poly 8 (crc ^^^ b.setWidth 16)

/-- `CRCfold(c, s)` (30_encoding.md R100). -/
def crcFold (poly : Half) (crc : Half) (bs : List Byte) : Half := bs.foldl (crc16Upd poly) crc

/-! ### Wire-codec bytes (30_encoding.md R120 to R123) -/

/-- At most `k + 1` bytes of the base-128 encoding, least significant group first. -/
def varintGroups : Nat → Word → List Byte
  | 0, v => [(v.extractLsb' 0 7).setWidth 8]
  | k + 1, v =>
    let g : Byte := (v.extractLsb' 0 7).setWidth 8
    if v >>> 7 ≠ 0 then (0x80 ||| g) :: varintGroups k (v >>> 7) else [g]

/-- `varint(v)` (30_encoding.md R120); a 32-bit value takes at most five bytes. -/
def varint (v : Word) : List Byte := varintGroups 4 v

/-- `key(tag, wt)` (30_encoding.md R122). -/
def fieldKey (tag : Byte) (wt : BitVec 3) : List Byte := varint ((tag.setWidth 32 <<< 3) ||| wt.setWidth 32)

/-- The wire type of a varint value (30_encoding.md R122). -/
def wireVarint : BitVec 3 := 0

/-- The wire type of a 4-byte fixed value (30_encoding.md R122). -/
def wireFixed32 : BitVec 3 := 5

/-- `fixed_n(v)`: the low `n` bytes, least significant first (30_encoding.md R123). -/
def fixedBytes : Nat → Word → List Byte
  | 0, _ => []
  | n + 1, v => v.extractLsb' 0 8 :: fixedBytes n (v >>> 8)

/-- The value of fixed-width bytes: `zext_32(sum over i of b_i << 8i)` (30_encoding.md R123). -/
def fixedValue : List Byte → Word
  | [] => 0
  | b :: bs => b.setWidth 32 ||| (fixedValue bs <<< 8)

/-- The loop of `unvarint` (30_encoding.md R121): `k` bytes taken so far, value `v`; the answer is the value and the
number of bytes taken. -/
def unvarintLoop : Nat → Word → List Byte → Option (Word × Nat)
  | _, _, [] => none
  | k, v, b :: bs =>
    if k = 4 ∧ b.toNat > 0x0F then none
    else
      let v' := v ||| ((b.extractLsb' 0 7).setWidth 32 <<< (7 * k))
      if b.getLsbD 7 then unvarintLoop (k + 1) v' bs else some (v', k + 1)

/-- `unvarint` over the given bytes: the value and how many bytes it took, or a failure (30_encoding.md R121). -/
def unvarint (bs : List Byte) : Option (Word × Nat) := unvarintLoop 0 0 bs

/-- `n` content bytes of the chunk open for reading on channel `c`, from offset `p` (44_wire_decoder.md R310). -/
def State.contentBytes (s : State) (c : Chan) (p n : Nat) : List Byte :=
  (List.range n).map (fun i => s.contentByte c (p + i))

end Sys2Proof.Machine
end

