-- ==== Sys2Proof/Machine/Channels.lean ====
section
/-! DEFINITION. The eleven channel commands (40_channel.md R158 to R168). -/

namespace Sys2Proof.Machine

/-- `CH_WRITE_START chN` (40_channel.md R158). -/
def execChWriteStart (c : Chan) (s : State) : Outcome :=
  if owned s c then raiseFault (.chWriteStart c) .channelOwned s
  else if (s.chan c).writing then raiseFault (.chWriteStart c) .nestedWriteStart s
  else .next (s.onChan c chunkStart)

/-- `CH_WRITE chN, b` (40_channel.md R159). -/
def execChWrite (c : Chan) (b : Byte) (s : State) : Outcome :=
  if owned s c then raiseFault (.chWrite c b) .channelOwned s
  else if !(s.chan c).writing then raiseFault (.chWrite c b) .noOpenChunk s
  else .next (s.onChan c (fun n => chunkPut n b))

/-- `CH_WRITE_END chN` (40_channel.md R160). -/
def execChWriteEnd (c : Chan) (s : State) : Outcome :=
  if owned s c then raiseFault (.chWriteEnd c) .channelOwned s
  else if !(s.chan c).writing then raiseFault (.chWriteEnd c) .noOpenChunk s
  else .next ((s.onChan c chunkEnd).setResult (boolWord (chunkEndCommits (s.chan c))))

/-- `CH_WRITE_ABORT chN` (40_channel.md R161). -/
def execChWriteAbort (c : Chan) (s : State) : Outcome :=
  if owned s c then raiseFault (.chWriteAbort c) .channelOwned s
  else if !(s.chan c).writing then raiseFault (.chWriteAbort c) .noOpenChunk s
  else .next (s.onChan c (fun _ => chunkAbort))

/-- `CH_HAS_CONTENT chN` (40_channel.md R162). -/
def execChHasContent (c : Chan) (s : State) : Outcome :=
  .next (s.setResult (boolWord (decide ((s.chan c).nchunks > 0))))

/-- The channel with its oldest committed chunk opened for reading (40_channel.md R163). -/
def readStart (n : Nat) (ch : Channel) : Channel :=
  { ch with ropen := true, rlen := (rbPeek n 0 ch).toNat, rpos := 0 }

/-- `CH_READ_START chN` (40_channel.md R163). -/
def execChReadStart (c : Chan) (s : State) : Outcome :=
  if (s.chan c).ropen then raiseFault (.chReadStart c) .readAlreadyOpen s
  else if (s.chan c).nchunks = 0 then raiseFault (.chReadStart c) .readEmpty s
  else .next ((s.onChan c readStart).setResult ((rbPeek (s.capacity c) 0 (s.chan c)).setWidth 32))

/-- `CH_READ chN` (40_channel.md R164). -/
def execChRead (c : Chan) (s : State) : Outcome :=
  if !(s.chan c).ropen then raiseFault (.chRead c) .readNotOpen s
  else if (s.chan c).rpos = (s.chan c).rlen then raiseFault (.chRead c) .readPastEnd s
  else
    .next ((s.onChan c (fun _ ch => { ch with rpos := ch.rpos + 1 })).setResult
      ((s.contentByte c (s.chan c).rpos).setWidth 32))

/-- `CH_PEEK chN, k` (40_channel.md R165). -/
def execChPeek (c : Chan) (k : Byte) (s : State) : Outcome :=
  if !(s.chan c).ropen then raiseFault (.chPeek c k) .readNotOpen s
  else if k.toNat ≥ (s.chan c).rlen then raiseFault (.chPeek c k) .readPastEnd s
  else .next (s.setResult ((s.contentByte c k.toNat).setWidth 32))

/-- The channel with its open read chunk released (40_channel.md R166). -/
def readEnd (n : Nat) (ch : Channel) : Channel :=
  { rbDrop n (ch.rlen + 1) ch with nchunks := ch.nchunks - 1, ropen := false, rlen := 0, rpos := 0 }

/-- A decode open on channel `c` is closed (40_channel.md R166). -/
def closeDecode (c : Chan) (s : State) : State :=
  if s.decOpen && s.decCh == c then { s with decOpen := false } else s

/-- `CH_READ_END chN` (40_channel.md R166). -/
def execChReadEnd (c : Chan) (s : State) : Outcome :=
  if !(s.chan c).ropen then raiseFault (.chReadEnd c) .readNotOpen s
  else .next (closeDecode c (s.onChan c readEnd))

/-- `CH_AVAIL chN` (40_channel.md R167). -/
def execChAvail (c : Chan) (s : State) : Outcome :=
  .next (s.setResult (BitVec.ofNat 32 (s.capacity c - (s.chan c).count)))

/-- `CH_IS_WRITING chN` (40_channel.md R168). -/
def execChIsWriting (c : Chan) (s : State) : Outcome :=
  .next (s.setResult (boolWord (s.chan c).writing))

end Sys2Proof.Machine
end

