-- ==== Sys2Proof/Machine/Control.lean ====
section
/-! DEFINITION. The control unit (46_control.md R380 to R383). -/

namespace Sys2Proof.Machine

/-- `NOP` (46_control.md R380). -/
def execNop (s : State) : Outcome := .next s

/-- `CTRL_READ` (46_control.md R381). -/
def execCtrlRead (s : State) : Outcome := .next (s.setResult (s.ctrl.setWidth 32))

/-- `CTRL_WRITE v`: of the value only bit 0 is kept, bits 7:1 are write-ignored and read as 0 (46_control.md R382,
10_state.md R33). -/
def execCtrlWrite (v : Byte) (s : State) : Outcome := .next { s with ctrl := v &&& 0x01 }

/-- `FAULT_READ` (46_control.md R383). -/
def execFaultRead (s : State) : Outcome := .next (s.setResult s.fault)

end Sys2Proof.Machine
end

