-- ==== Sys2Proof/Machine/CrcReceiver.lean ====
section
/-! DEFINITION. The CRC frame receiver (41_crc_receiver.md R200 to R206); it writes into channel CH0. -/

namespace Sys2Proof.Machine

/-- The unterminated frame, if any, is abandoned (41_crc_receiver.md R204, 90_conflicts.md C3). -/
def rxAbandon (s : State) : State :=
  if s.rxState ≠ .idle then s.onChan .ch0 (fun _ => chunkAbort) else s

/-- `rxCrc` after `GROUP_ID` and the first byte have been folded in (41_crc_receiver.md R204). -/
def rxSeed (cfg : Config) (h : Byte) : Half := crcFold cfg.crcPoly cfg.crcInit [cfg.groupId, h]

/-- `RX_START h` (41_crc_receiver.md R204). -/
def execRxStart (h : Byte) (s : State) : Outcome :=
  let opened := (rxAbandon s).onChan .ch0 (fun n ch => chunkPut n h (chunkStart n ch))
  .next { opened with rxCrc := rxSeed s.cfg h, rxRem := 0, rxState := .length }

/-- The commit condition when the frame's last byte has been folded in, giving `crc` (41_crc_receiver.md R203). -/
def rxAccepts (s : State) (crc : Half) : Bool := !s.crcEnabled || crc == s.cfg.crcResidue

/-- A byte of the payload or of the CRC, in `DATA` (41_crc_receiver.md R205, R207). -/
def rxDataByte (b : Byte) (s : State) : State :=
  let crc := crc16Upd s.cfg.crcPoly s.rxCrc b
  let stored := if s.rxRem > 2 then s.onChan .ch0 (fun n => chunkPut n b) else s
  let folded := { stored with rxCrc := crc, rxRem := s.rxRem - 1 }
  if s.rxRem = 1 then
    let ended := if rxAccepts s crc then folded.onChan .ch0 chunkEnd else folded.onChan .ch0 (fun _ => chunkAbort)
    { ended with rxState := .idle }
  else folded

/-- The length byte (41_crc_receiver.md R202, R205): the raw byte is folded, the clamped length is kept. -/
def rxLengthByte (b : Byte) (s : State) : State :=
  { s with rxCrc := crc16Upd s.cfg.crcPoly s.rxCrc b, rxRem := min b.toNat s.cfg.maxLen + 2, rxState := .data }

/-- `RX_BYTE b` (41_crc_receiver.md R205). -/
def execRxByte (b : Byte) (s : State) : Outcome :=
  match s.rxState with
  | .idle => .next s
  | .length => .next (rxLengthByte b s)
  | .data => .next (rxDataByte b s)

/-- `RX_IS_WRITING` (41_crc_receiver.md R206). -/
def execRxIsWriting (s : State) : Outcome := .next (s.setResult (boolWord (s.rxState != .idle)))

end Sys2Proof.Machine
end

