-- ==== Sys2Proof/Machine/PulseDecoder.lean ====
section
/-! DEFINITION. The pulse decoder (42_pulse_decoder.md R230 to R260); it writes into channel CH1. -/

namespace Sys2Proof.Machine

/-- `pdClear()` (42_pulse_decoder.md R236). -/
def pdClear (s : State) : State :=
  { s with pdPhase := .hunt, pdZeros := 0, pdPend := none, pdBits := 0, pdShift := 0, pdCount := 0, pdExpect := 5 }

/-- `pdResync()`: a sync error drops any packet in progress (42_pulse_decoder.md R236). -/
def pdResync (s : State) : State :=
  match s.pdPhase with
  | .hunt => pdClear s
  | .data => pdClear (s.onChan .ch1 (fun _ => chunkAbort))

/-- `HAS_EXT(cmd)` (42_pulse_decoder.md R250). -/
def hasExtOf (cfg : Config) (cmd : Byte) : Bool := cfg.hasExt.getLsbD cmd.toNat

/-- `CHK(bytes) = (CHK_BASE + sum of bytes) mod 256` (42_pulse_decoder.md R255). -/
def packetCheck (cfg : Config) (bs : List Byte) : Byte := bs.foldl (· + ·) cfg.chkBase

/-- The number of 1 bits of a byte. -/
def popcount (v : Byte) : Nat := (List.range 8).foldl (fun acc i => acc + (v.getLsbD i).toNat) 0

/-- Even parity violated: the count of 1 bits of byte and parity bit is odd (42_pulse_decoder.md R243, R245). -/
def parityBad (v : Byte) (p : Bool) : Bool := (popcount v + p.toNat) % 2 == 1

/-- The byte `v` has passed its parity check: store it and, if it is the packet's last, validate the packet
(42_pulse_decoder.md R243, R246, R255). -/
def pdAccept (v : Byte) (s : State) : State :=
  let count := s.pdCount + 1
  let expect := if count = 4 then (if hasExtOf s.cfg v then 6 else 5) else s.pdExpect
  let stored :=
    { s.onChan .ch1 (fun n => chunkPut n v) with
      pdBytes := s.pdBytes.setIfInBounds s.pdCount v, pdCount := count, pdExpect := expect }
  if count = expect then
    let body := stored.pdBytes.toList.take (count - 1)
    pdClear (if v = packetCheck s.cfg body then stored.onChan .ch1 chunkEnd else stored.onChan .ch1 (fun _ => chunkAbort))
  else stored

/-- `pdByte()`: nine bits are in `pdShift`, the parity bit last (42_pulse_decoder.md R243). -/
def pdByte (s : State) : State :=
  let v : Byte := s.pdShift.extractLsb' 1 8
  let p := s.pdShift.getLsbD 0
  let taken := { s with pdBits := 0, pdShift := 0 }
  if parityBad v p then pdResync taken else pdAccept v taken

/-- `pdBit(b)` in `HUNT`: the start condition (42_pulse_decoder.md R237, R241). -/
def pdBitHunt (b : Bool) (s : State) : State :=
  if !b then { s with pdZeros := if s.pdZeros = 255 then 255 else s.pdZeros + 1 }
  else if s.pdZeros.toNat ≥ s.cfg.syncMinZeros then
    { s.onChan .ch1 chunkStart with pdPhase := .data, pdBits := 0, pdShift := 0, pdCount := 0, pdExpect := 5 }
  else { s with pdZeros := 0 }

/-- `pdBit(b)` in `DATA`: first bit most significant (42_pulse_decoder.md R242). -/
def pdBitData (b : Bool) (s : State) : State :=
  let shifted := { s with pdShift := (s.pdShift <<< 1) ||| (BitVec.ofBool b).setWidth 9, pdBits := s.pdBits + 1 }
  if s.pdBits + 1 = 9 then pdByte shifted else shifted

/-- `pdBit(b)` (42_pulse_decoder.md R241, R242). -/
def pdBit (b : Bool) (s : State) : State :=
  match s.pdPhase with
  | .hunt => pdBitHunt b s
  | .data => pdBitData b s

/-- A high pulse of class `k` is held for its partner; a second one in a row is a sync error first
(42_pulse_decoder.md R235, R240). -/
def pdHigh (k : PulseClass) (s : State) : State :=
  { (if s.pdPend ≠ none then pdResync s else s) with pdPend := some k }

/-- A low pulse of class `k` (42_pulse_decoder.md R234, R235, R240). -/
def pdLow (k : PulseClass) (s : State) : State :=
  match s.pdPend with
  | none => if s.pdPhase = .data then pdResync s else s
  | some held => if held ≠ k then pdResync s else pdBit (k == .long) { s with pdPend := none }

/-- One pulse event of duration `d` (42_pulse_decoder.md R231, R240). -/
def pdEvent (isHigh : Bool) (d : Half) (s : State) : State :=
  if d = 0 then pdResync s
  else
    match classify s.cfg d with
    | none => pdResync s
    | some k => if isHigh then pdHigh k s else pdLow k s

/-- `PULSE H|L, d` (42_pulse_decoder.md R240). -/
def execPulse (isHigh : Bool) (d : Half) (s : State) : Outcome := .next (pdEvent isHigh d s)

/-- `PD_STATUS` (42_pulse_decoder.md R260). -/
def execPdStatus (s : State) : Outcome := .next (s.setResult (pdStatusWord s))

end Sys2Proof.Machine
end

