-- ==== Sys2Proof/Machine/WireDecoder.lean ====
section
/-! DEFINITION. The wire decoder (44_wire_decoder.md R310 to R316); it reads the chunk open for reading on channel
`decCh` and never changes a channel. -/

namespace Sys2Proof.Machine

/-- `rlen` of the channel being decoded. -/
def State.decLen (s : State) : Nat := (s.chan s.decCh).rlen

/-- A decoder read that cannot complete: `decOk <- 0`, `RESULT <- 0`, `decPos` stays (44_wire_decoder.md R311). -/
def decFail (s : State) : State := { s with decOk := false, result := 0 }

/-- A decoder read that took `n` bytes and gives `v`. -/
def decAdvance (n : Nat) (v : Word) (s : State) : State := { s with decPos := s.decPos + n, result := v }

/-- `DEC_BEGIN chN` (44_wire_decoder.md R312). -/
def execDecBegin (ch : BitVec 2) (s : State) : Outcome :=
  match channelOperand ch with
  | none => raiseFault (.decBegin ch) .badOperand s
  | some c =>
    if !(s.chan c).ropen then raiseFault (.decBegin ch) .decNoSource s
    else .next { s with decOpen := true, decCh := c, decPos := 0, decOk := true }

/-- `DEC_FIXED w` (44_wire_decoder.md R313). -/
def execDecFixed (w : Byte) (s : State) : Outcome :=
  match widthOperand w with
  | none => raiseFault (.decFixed w) .badOperand s
  | some n =>
    if !s.decOpen then raiseFault (.decFixed w) .decNotOpen s
    else if !s.decOk || decide (s.decPos + n > s.decLen) then .next (decFail s)
    else .next (decAdvance n (fixedValue (s.contentBytes s.decCh s.decPos n)) s)

/-- `DEC_VARINT` (44_wire_decoder.md R314). -/
def execDecVarint (s : State) : Outcome :=
  if !s.decOpen then raiseFault .decVarint .decNotOpen s
  else if !s.decOk then .next (s.setResult 0)
  else
    match unvarint (s.contentBytes s.decCh s.decPos (s.decLen - s.decPos)) with
    | none => .next (decFail s)
    | some (v, n) => .next (decAdvance n v s)

/-- `DEC_REMAIN` (44_wire_decoder.md R315). -/
def execDecRemain (s : State) : Outcome :=
  if !s.decOpen then raiseFault .decRemain .decNotOpen s
  else .next (s.setResult (BitVec.ofNat 32 (s.decLen - s.decPos)))

/-- `DEC_STATUS` (44_wire_decoder.md R316). -/
def execDecStatus (s : State) : Outcome := .next (s.setResult (boolWord (s.decOpen && s.decOk)))

end Sys2Proof.Machine
end

