-- ==== Sys2Proof/Machine/WireEncoder.lean ====
section
/-! DEFINITION. The wire encoder (43_wire_encoder.md R280 to R288); it writes one chunk of channel CH2. -/

namespace Sys2Proof.Machine

/-- `ENC_BEGIN` (43_wire_encoder.md R282). -/
def execEncBegin (s : State) : Outcome :=
  if s.encOpen then raiseFault .encBegin .encAlreadyOpen s
  else if s.ch2.writing then raiseFault .encBegin .nestedWriteStart s
  else
    let opened := s.onChan .ch2 chunkStart
    .next { opened with encOpen := true, encValid := !opened.ch2.wlost }

/-- `encPut(bytes)`: a lost chunk stores nothing; `encValid` says whether every byte so far fitted
(43_wire_encoder.md R281). -/
def encPut (bs : List Byte) (s : State) : State :=
  let put := s.onChan .ch2 (fun n => chunkPutAll n bs)
  { put with encValid := !put.ch2.wlost }

/-- `ENC_FIXED w, v` (43_wire_encoder.md R283). -/
def execEncFixed (w : Byte) (v : Word) (s : State) : Outcome :=
  match widthOperand w with
  | none => raiseFault (.encFixed w v) .badOperand s
  | some n => if !s.encOpen then raiseFault (.encFixed w v) .encNotOpen s else .next (encPut (fixedBytes n v) s)

/-- `ENC_VARINT v` (43_wire_encoder.md R284). -/
def execEncVarint (v : Word) (s : State) : Outcome :=
  if !s.encOpen then raiseFault (.encVarint v) .encNotOpen s else .next (encPut (varint v) s)

/-- `ENC_TVARINT tag, v` (43_wire_encoder.md R285). -/
def execEncTvarint (tag : Byte) (v : Word) (s : State) : Outcome :=
  if tag = 0 then raiseFault (.encTvarint tag v) .badOperand s
  else if !s.encOpen then raiseFault (.encTvarint tag v) .encNotOpen s
  else .next (encPut (fieldKey tag wireVarint ++ varint v) s)

/-- `ENC_TFIXED32 tag, v` (43_wire_encoder.md R286). -/
def execEncTfixed32 (tag : Byte) (v : Word) (s : State) : Outcome :=
  if tag = 0 then raiseFault (.encTfixed32 tag v) .badOperand s
  else if !s.encOpen then raiseFault (.encTfixed32 tag v) .encNotOpen s
  else .next (encPut (fieldKey tag wireFixed32 ++ fixedBytes 4 v) s)

/-- `ENC_END` (43_wire_encoder.md R287). -/
def execEncEnd (s : State) : Outcome :=
  if !s.encOpen then raiseFault .encEnd .encNotOpen s
  else
    let ended := if s.encValid then s.onChan .ch2 chunkEnd else s.onChan .ch2 (fun _ => chunkAbort)
    .next { ended with result := boolWord s.encValid, encOpen := false, encValid := false }

/-- `ENC_STATUS` (43_wire_encoder.md R288). -/
def execEncStatus (s : State) : Outcome := .next (s.setResult (boolWord s.encValid))

end Sys2Proof.Machine
end

