-- ==== Sys2Proof/Machine/Dispatch.lean ====
section
/-! DEFINITION. One arm per command: a direct call of its meaning. -/

namespace Sys2Proof.Machine

def exec (i : Instr) (s : State) : Host.Outcome State Fault Refusal :=
  match i with
  | .chWriteStart c => Sys2Proof.Machine.execChWriteStart c s
  | .chWrite c b => Sys2Proof.Machine.execChWrite c b s
  | .chWriteEnd c => Sys2Proof.Machine.execChWriteEnd c s
  | .chWriteAbort c => Sys2Proof.Machine.execChWriteAbort c s
  | .chHasContent c => Sys2Proof.Machine.execChHasContent c s
  | .chReadStart c => Sys2Proof.Machine.execChReadStart c s
  | .chRead c => Sys2Proof.Machine.execChRead c s
  | .chPeek c k => Sys2Proof.Machine.execChPeek c k s
  | .chReadEnd c => Sys2Proof.Machine.execChReadEnd c s
  | .chAvail c => Sys2Proof.Machine.execChAvail c s
  | .chIsWriting c => Sys2Proof.Machine.execChIsWriting c s
  | .rxStart h => Sys2Proof.Machine.execRxStart h s
  | .rxByte b => Sys2Proof.Machine.execRxByte b s
  | .rxIsWriting => Sys2Proof.Machine.execRxIsWriting s
  | .pulse isHigh d => Sys2Proof.Machine.execPulse isHigh d s
  | .pdStatus => Sys2Proof.Machine.execPdStatus s
  | .encBegin => Sys2Proof.Machine.execEncBegin s
  | .encFixed w v => Sys2Proof.Machine.execEncFixed w v s
  | .encVarint v => Sys2Proof.Machine.execEncVarint v s
  | .encTvarint tag v => Sys2Proof.Machine.execEncTvarint tag v s
  | .encTfixed32 tag v => Sys2Proof.Machine.execEncTfixed32 tag v s
  | .encEnd => Sys2Proof.Machine.execEncEnd s
  | .encStatus => Sys2Proof.Machine.execEncStatus s
  | .decBegin ch => Sys2Proof.Machine.execDecBegin ch s
  | .decFixed w => Sys2Proof.Machine.execDecFixed w s
  | .decVarint => Sys2Proof.Machine.execDecVarint s
  | .decRemain => Sys2Proof.Machine.execDecRemain s
  | .decStatus => Sys2Proof.Machine.execDecStatus s
  | .nop => Sys2Proof.Machine.execNop s
  | .ctrlRead => Sys2Proof.Machine.execCtrlRead s
  | .ctrlWrite v => Sys2Proof.Machine.execCtrlWrite v s
  | .faultRead => Sys2Proof.Machine.execFaultRead s

end Sys2Proof.Machine
end

