-- ==== Sys2Proof/Machine/Step.lean ====
section
/-! DEFINITION. One step: the block takes the next input of the port and performs it whole (00_scope.md R21). -/

namespace Sys2Proof.Machine

/-- A command word and its operand performed: decoded and executed, or illegal (30_encoding.md R110, R111). -/
def perform (cmd : Half) (data : Word) (s : State) : Host.Outcome State Fault Refusal :=
  match decode cmd data with
  | .ok i => exec i s
  | .error _ => performIllegal cmd s

/-- One step. A configuration 00_scope.md R8 refuses is rejected before anything runs; a run ends when its inputs end
(70_reset_and_hazards.md R460). -/
def step (s : State) : Host.Outcome State Fault Refusal :=
  match s.inputs with
  | [] => if s.cfg.wf then .fault .runEnded else .refused .illFormedConfig
  | .command t :: rest =>
    if s.cfg.wf then perform t.cmd t.data (s.takeCommand rest) else .refused .illFormedConfig
  | .reset :: rest => if s.cfg.wf then .next (s.takeReset rest) else .refused .illFormedConfig

/-- The state with the command of that table word first on the port, so that the next step performs exactly it
(notes/assumptions/1.md, 13.md). -/
def State.withFetchWord (s : State) (nbits w : Nat) : State :=
  s.issue (tableWordPair nbits w).1 (tableWordPair nbits w).2

end Sys2Proof.Machine
end

