-- ==== Sys2Proof/Machine/AirFormats.lean ====
section
/-! DEFINITION. What arrives on the air (30_encoding.md R100, R105, R106) and the pseudo-instructions that deliver it
(30_encoding.md R113). The block performs none of this: these are the byte and pulse sources' sequences, stated for the
rules that speak of whole frames and packets (41_crc_receiver.md R211, 42_pulse_decoder.md R258, R261). -/

namespace Sys2Proof.Machine

/-! ### CRC frames (30_encoding.md R100) -/

/-- The CRC a sender computes: over the implicit group id, the first byte, the length byte and the payload. -/
def frameCrc (cfg : Config) (hdr : Byte) (payload : List Byte) : Half :=
  crcFold cfg.crcPoly cfg.crcInit ([cfg.groupId, hdr, BitVec.ofNat 8 payload.length] ++ payload)

/-- Low byte of a CRC, sent first (20_memory.md R78). -/
def crcLow (crc : Half) : Byte := crc.extractLsb' 0 8

/-- High byte of a CRC, sent last (20_memory.md R78). -/
def crcHigh (crc : Half) : Byte := crc.extractLsb' 8 8

/-- The frame `[hdr] [len] [payload] [crc_lo] [crc_hi]` (30_encoding.md R100). -/
def airFrame (cfg : Config) (hdr : Byte) (payload : List Byte) : List Byte :=
  [hdr, BitVec.ofNat 8 payload.length] ++ payload
    ++ [crcLow (frameCrc cfg hdr payload), crcHigh (frameCrc cfg hdr payload)]

/-- `RX_FRAME h, [p...], lo, hi` (30_encoding.md R113). -/
def rxFrame (h : Byte) (payload : List Byte) (lo hi : Byte) : List Instr :=
  [.rxStart h, .rxByte (BitVec.ofNat 8 payload.length)] ++ payload.map .rxByte ++ [.rxByte lo, .rxByte hi]

/-! ### FS20 packets (30_encoding.md R105, R106) -/

/-- The bytes before the checksum: the extension byte is present when `HAS_EXT(cmd)` holds (30_encoding.md R105). -/
def fs20Body (cfg : Config) (hcHi hcLo addr cmd ext : Byte) : List Byte :=
  [hcHi, hcLo, addr, cmd] ++ (if hasExtOf cfg cmd then [ext] else [])

/-- A link packet with its checksum (30_encoding.md R105, 42_pulse_decoder.md R255). -/
def fs20Packet (cfg : Config) (hcHi hcLo addr cmd ext : Byte) : List Byte :=
  fs20Body cfg hcHi hcLo addr cmd ext ++ [packetCheck cfg (fs20Body cfg hcHi hcLo addr cmd ext)]

/-- The even-parity bit of a byte: `popcount(v) mod 2` (30_encoding.md R113). -/
def parityBit (v : Byte) : Bool := popcount v % 2 == 1

/-- The nine bits of a byte on the air: data most significant first, then parity (30_encoding.md R106). -/
def airBits (v : Byte) : List Bool := (List.range 8).map (fun i => v.getLsbD (7 - i)) ++ [parityBit v]

/-- The bits of a packet's train: `zeros` preamble bits, the sync bit, each byte's nine bits (30_encoding.md R106). -/
def trainBits (zeros : Nat) (packet : List Byte) : List Bool :=
  List.replicate zeros false ++ [true] ++ packet.flatMap airBits

/-- The pulse pair of a bit: both of the short duration for 0, both of the long one for 1 (30_encoding.md R106). -/
def bitPulses (dShort dLong : Half) (b : Bool) : List Instr :=
  [.pulse true (if b then dLong else dShort), .pulse false (if b then dLong else dShort)]

/-- The pulse train of a sequence of bits. -/
def pulseTrain (dShort dLong : Half) (bits : List Bool) : List Instr := bits.flatMap (bitPulses dShort dLong)

/-! ### Pseudo-instructions (30_encoding.md R113) -/

/-- `PULSE_EMPTY`: `PULSE L, 0`. -/
def pulseEmpty : List Instr := [.pulse false 0]

/-- `BIT0`, for the default windows: two pulses of 400 ticks. -/
def bit0 : List Instr := bitPulses 400 600 false

/-- `BIT1`, for the default windows: two pulses of 600 ticks. -/
def bit1 : List Instr := bitPulses 400 600 true

/-- `FSBYTE v`. -/
def fsByte (v : Byte) : List Instr := pulseTrain 400 600 (airBits v)

/-- `ENC_U8 v`. -/
def encU8 (v : Word) : List Instr := [.encFixed 1 v]

/-- `ENC_U16 v`. -/
def encU16 (v : Word) : List Instr := [.encFixed 2 v]

/-- `ENC_U32 v`. -/
def encU32 (v : Word) : List Instr := [.encFixed 4 v]

end Sys2Proof.Machine
end

