-- ==== Sys2Proof/Machine/Assembler.lean ====
section
/-! DEFINITION. The assembly syntax and its pseudo-instructions (30_encoding.md R112, R113): one command a line, `;` starts
a comment, a mnemonic and then operands separated by commas. What the block sees of a line is its words
(notes/assumptions/16.md). -/

namespace Sys2Proof.Machine

/-- One operand as written. -/
inductive AsmOperand where
  /-- `chN`. -/
  | chan (c : Chan)
  /-- A decimal or `0x` hexadecimal number. -/
  | num (n : Nat)
  /-- The polarity `H` (true) or `L` (false). -/
  | polarity (isHigh : Bool)
  /-- A bracketed list of numbers, for `RX_FRAME`. -/
  | bytes (ns : List Nat)
  deriving DecidableEq, Repr

/-- The characters before the first `;`. -/
def asmCode (line : List Char) : List Char := line.takeWhile (· != ';')

/-- Characters without the blanks at both ends. -/
def asmTrim (cs : List Char) : List Char :=
  ((cs.dropWhile Char.isWhitespace).reverse.dropWhile Char.isWhitespace).reverse

/-- The pieces between commas outside brackets; `depth` says whether a bracket is open. -/
def asmSplit : Bool → List Char → List Char → List (List Char)
  | _, acc, [] => [acc.reverse]
  | inside, acc, ch :: rest =>
    if ch = ',' && !inside then acc.reverse :: asmSplit false [] rest
    else asmSplit (if ch = '[' then true else if ch = ']' then false else inside) (ch :: acc) rest

/-- The value of a digit in the given base. -/
def asmDigit (base : Nat) (ch : Char) : Option Nat :=
  let v :=
    if '0' ≤ ch ∧ ch ≤ '9' then some (ch.toNat - '0'.toNat)
    else if 'a' ≤ ch ∧ ch ≤ 'f' then some (ch.toNat - 'a'.toNat + 10)
    else if 'A' ≤ ch ∧ ch ≤ 'F' then some (ch.toNat - 'A'.toNat + 10)
    else none
  v.filter (· < base)

/-- The number a list of digits writes. -/
def asmDigits (base : Nat) : Nat → List Char → Option Nat
  | acc, [] => some acc
  | acc, ch :: rest =>
    match asmDigit base ch with
    | none => none
    | some d => asmDigits base (acc * base + d) rest

/-- A number, decimal or `0x` hexadecimal (30_encoding.md R112). -/
def asmNumber (cs : List Char) : Option Nat :=
  match cs with
  | [] => none
  | '0' :: 'x' :: d :: ds => asmDigits 16 0 (d :: ds)
  | d :: ds => asmDigits 10 0 (d :: ds)

/-- All of a list of options, or none. -/
def asmAll {α : Type} : List (Option α) → Option (List α)
  | [] => some []
  | none :: _ => none
  | some x :: rest => (asmAll rest).map (x :: ·)

/-- The numbers of a bracketed list; nothing between the brackets is the empty list. -/
def asmList (cs : List Char) : Option (List Nat) :=
  let inner := asmTrim cs.dropLast
  if cs.getLast? ≠ some ']' then none
  else if inner = [] then some []
  else asmAll ((asmSplit false [] inner).map (fun piece => asmNumber (asmTrim piece)))

/-- One operand. -/
def asmOperand (cs : List Char) : Option AsmOperand :=
  match cs with
  | ['c', 'h', '0'] => some (.chan .ch0)
  | ['c', 'h', '1'] => some (.chan .ch1)
  | ['c', 'h', '2'] => some (.chan .ch2)
  | ['H'] => some (.polarity true)
  | ['L'] => some (.polarity false)
  | '[' :: rest => (asmList rest).map .bytes
  | _ => (asmNumber cs).map .num

/-- The operands of a line, after its mnemonic. -/
def asmOperands (cs : List Char) : Option (List AsmOperand) :=
  if asmTrim cs = [] then some []
  else asmAll ((asmSplit false [] cs).map (fun piece => asmOperand (asmTrim piece)))

/-- The channel number in `UNIT`, an operation and an `IMM8`. -/
def channelWords (c : Chan) (op : Nibble) (imm8 : Nat) : Option (List (Half × Word)) :=
  if imm8 < 256 then some [(chanUnit c ++ op ++ BitVec.ofNat 8 imm8, 0)] else none

/-- A channel operation by mnemonic: its `OP` and whether it needs its `IMM8` (30_encoding.md R107). -/
def channelOp (mnemonic : String) : Option (Nibble × Bool) :=
  match mnemonic with
  | "CH_WRITE_START" => some (0x0, false)
  | "CH_WRITE" => some (0x1, true)
  | "CH_WRITE_END" => some (0x2, false)
  | "CH_WRITE_ABORT" => some (0x3, false)
  | "CH_HAS_CONTENT" => some (0x4, false)
  | "CH_READ_START" => some (0x5, false)
  | "CH_READ" => some (0x6, false)
  | "CH_PEEK" => some (0x7, true)
  | "CH_READ_END" => some (0x8, false)
  | "CH_AVAIL" => some (0x9, false)
  | "CH_IS_WRITING" => some (0xA, false)
  | _ => none

/-- `MNEMONIC chN` or `MNEMONIC chN, imm` (30_encoding.md R112). -/
def assembleChannel (op : Nibble) (needsImm : Bool) (ops : List AsmOperand) : Option (List (Half × Word)) :=
  match ops with
  | [.chan c] => if needsImm then none else channelWords c op 0
  | [.chan c, .num n] => channelWords c op n
  | _ => none

/-- The words of commands given by their meaning. -/
def wordsOf (is : List Instr) : Option (List (Half × Word)) := some (is.map encode)

/-- The commands of a mnemonic with byte operand `n`. -/
def withByte (n : Nat) (f : Byte → List Instr) : Option (List (Half × Word)) :=
  if n < 256 then wordsOf (f (BitVec.ofNat 8 n)) else none

/-- The commands of a mnemonic with value operand `n`. -/
def withWord (n : Nat) (f : Word → List Instr) : Option (List (Half × Word)) :=
  if n < 2 ^ 32 then wordsOf (f (BitVec.ofNat 32 n)) else none

/-- `RX_FRAME h, [p...], lo, hi` (30_encoding.md R113). -/
def assembleFrame (h : Nat) (p : List Nat) (lo hi : Nat) : Option (List (Half × Word)) :=
  if h < 256 ∧ lo < 256 ∧ hi < 256 ∧ p.length < 256 ∧ p.all (· < 256) then
    wordsOf (rxFrame (BitVec.ofNat 8 h) (p.map (BitVec.ofNat 8)) (BitVec.ofNat 8 lo) (BitVec.ofNat 8 hi))
  else none

/-- The mnemonics that take no operand (30_encoding.md R112, R113). -/
def assembleBare (mnemonic : String) : Option (List (Half × Word)) :=
  match mnemonic with
  | "RX_IS_WRITING" => wordsOf [.rxIsWriting]
  | "PD_STATUS" => wordsOf [.pdStatus]
  | "ENC_BEGIN" => wordsOf [.encBegin]
  | "ENC_END" => wordsOf [.encEnd]
  | "ENC_STATUS" => wordsOf [.encStatus]
  | "DEC_VARINT" => wordsOf [.decVarint]
  | "DEC_REMAIN" => wordsOf [.decRemain]
  | "DEC_STATUS" => wordsOf [.decStatus]
  | "NOP" => wordsOf [.nop]
  | "CTRL_READ" => wordsOf [.ctrlRead]
  | "FAULT_READ" => wordsOf [.faultRead]
  | "PULSE_EMPTY" => wordsOf pulseEmpty
  | "BIT0" => wordsOf bit0
  | "BIT1" => wordsOf bit1
  | _ => none

/-- The mnemonics that take one number (30_encoding.md R112, R113). -/
def assembleNumber (mnemonic : String) (n : Nat) : Option (List (Half × Word)) :=
  match mnemonic with
  | "RX_START" => withByte n (fun b => [.rxStart b])
  | "RX_BYTE" => withByte n (fun b => [.rxByte b])
  | "ENC_VARINT" => withWord n (fun v => [.encVarint v])
  | "DEC_FIXED" => withByte n (fun w => [.decFixed w])
  | "CTRL_WRITE" => withByte n (fun v => [.ctrlWrite v])
  | "FSBYTE" => withByte n fsByte
  | "ENC_U8" => withWord n encU8
  | "ENC_U16" => withWord n encU16
  | "ENC_U32" => withWord n encU32
  | _ => none

/-- The mnemonics that take a byte and a value (30_encoding.md R112). -/
def assembleByteValue (mnemonic : String) (b v : Nat) : Option (List (Half × Word)) :=
  if b < 256 then
    match mnemonic with
    | "ENC_FIXED" => withWord v (fun x => [.encFixed (BitVec.ofNat 8 b) x])
    | "ENC_TVARINT" => withWord v (fun x => [.encTvarint (BitVec.ofNat 8 b) x])
    | "ENC_TFIXED32" => withWord v (fun x => [.encTfixed32 (BitVec.ofNat 8 b) x])
    | _ => none
  else none

/-- A mnemonic other than a channel command with its operands. `PULSE`'s duration is the whole `DATA` word
(30_encoding.md R112: `DATA = d`). -/
def assembleOther (mnemonic : String) (ops : List AsmOperand) : Option (List (Half × Word)) :=
  match ops with
  | [] => assembleBare mnemonic
  | [.num n] => assembleNumber mnemonic n
  | [.num b, .num v] => assembleByteValue mnemonic b v
  | [.chan c] => if mnemonic = "DEC_BEGIN" then wordsOf [.decBegin (chanOperand c)] else none
  | [.polarity isHigh, .num d] =>
    if mnemonic = "PULSE" ∧ d < 2 ^ 32 then
      some [((encode (.pulse isHigh 0)).1, BitVec.ofNat 32 d)]
    else none
  | [.num h, .bytes p, .num lo, .num hi] => if mnemonic = "RX_FRAME" then assembleFrame h p lo hi else none
  | _ => none

/-- The words of one line; none where the line is not of the syntax. A line with no mnemonic assembles to nothing. -/
def assembleLine (line : List Char) : Option (List (Half × Word)) :=
  let code := asmTrim (asmCode line)
  let mnemonic := String.ofList (code.takeWhile (fun ch => !ch.isWhitespace))
  match code, asmOperands (code.dropWhile (fun ch => !ch.isWhitespace)) with
  | [], _ => some []
  | _, none => none
  | _, some ops =>
    match channelOp mnemonic with
    | some (op, needsImm) => assembleChannel op needsImm ops
    | none => assembleOther mnemonic ops

end Sys2Proof.Machine
end

