-- ==== Sys2Proof/Machine/Descriptors.lean ====
section
/-! DEFINITION. Message descriptors (45_descriptors.md): host data, stored nowhere in the block (R350). The functions
are the host's; `encodeCommands` is the command sequence with which the host encodes (R345), and HostDecode.lean has the
one with which it decodes. An ill-formed descriptor is
refused: the functions answer none (R341, notes/assumptions/15.md). -/

namespace Sys2Proof.Machine

/-- `kind` (45_descriptors.md R340). -/
inductive MessageKind where
  | tagged
  | sequence
  deriving DecidableEq, Repr

/-- `enc` (45_descriptors.md R340). -/
inductive FieldEncoding where
  | varint
  | fixed (n : Nat)
  deriving DecidableEq, Repr

/-- `presence` (45_descriptors.md R340, R344). A conditional field's predicate is given the values of the fields before
it, in list order, and so can read no other (R341). -/
inductive Presence where
  | always
  | optional (flag : String)
  | conditional (pred : List Int → Bool)

/-- One field entry (45_descriptors.md R340); `width` is `W`, `tag` is none in a `SEQUENCE`. -/
structure FieldEntry where
  name : String
  encoding : FieldEncoding
  width : Nat
  signed : Bool
  tag : Option Byte
  presence : Presence

/-- A descriptor (45_descriptors.md R340). -/
structure Descriptor where
  kind : MessageKind
  fields : List FieldEntry

/-- A record: one integer per field, in list order, and one boolean per `OPTIONAL` flag (45_descriptors.md R340). -/
structure Record where
  vals : List Int
  flags : List (String × Bool)
  deriving DecidableEq, Repr

/-- The boolean `rec.flag`; a flag the record does not list is false. -/
def flagValue (flags : List (String × Bool)) (flag : String) : Bool := (flags.lookup flag).getD false

/-- The flag of an `OPTIONAL` field. -/
def FieldEntry.flag? (f : FieldEntry) : Option String :=
  match f.presence with
  | .always => none
  | .optional flag => some flag
  | .conditional _ => none

/-- The flags of a descriptor, each once, in list order. -/
def Descriptor.flagNames (d : Descriptor) : List String := (d.fields.filterMap FieldEntry.flag?).eraseDups

/-! ### Well-formedness (45_descriptors.md R340, R341) -/

/-- Width and encoding agree: `W` is 8, 16 or 32; for `FIXED(n)`, `n` is 1, 2 or 4 and `W = 8n`. -/
def FieldEntry.shapeOk (f : FieldEntry) : Bool :=
  (f.width == 8 || f.width == 16 || f.width == 32)
    && match f.encoding with
       | .varint => true
       | .fixed n => (n == 1 || n == 2 || n == 4) && f.width == 8 * n

/-- A `TAGGED` field: a tag in 1..255, and only 4-byte fixed fields. -/
def FieldEntry.taggedOk (f : FieldEntry) : Bool :=
  (match f.tag with
   | none => false
   | some t => t != 0)
    && match f.encoding with
       | .varint => true
       | .fixed n => n == 4

/-- A `SEQUENCE` field: no tag, not `OPTIONAL`. -/
def FieldEntry.sequenceOk (f : FieldEntry) : Bool := f.tag.isNone && f.flag?.isNone

/-- A descriptor is well formed (45_descriptors.md R341). -/
def Descriptor.wf (d : Descriptor) : Bool :=
  d.fields.all FieldEntry.shapeOk
    && (match d.kind with
        | .tagged => d.fields.all FieldEntry.taggedOk && decide (d.fields.map FieldEntry.tag).Nodup
        | .sequence => d.fields.all FieldEntry.sequenceOk)
    && d.flagNames.all (fun flag => !(d.fields.map FieldEntry.name).contains flag)

/-! ### Patterns and presence (45_descriptors.md R342, R344, R347) -/

/-- The 32-bit pattern of a value: zero-extended when unsigned, sign-extended when signed (45_descriptors.md R342).
DESIGN CHOICE, unsafe: the rule speaks of values in range for `W` and `signed`; of another one the low `W` bits are taken
(notes/assumptions/17.md). -/
def FieldEntry.pattern (f : FieldEntry) (x : Int) : Word :=
  if f.signed then (BitVec.ofInt f.width x).signExtend 32 else (BitVec.ofInt f.width x).setWidth 32

/-- A value in range for `W` and `signed` (45_descriptors.md R342). -/
def FieldEntry.inRange (f : FieldEntry) (x : Int) : Bool :=
  if f.signed then decide (-(2 ^ (f.width - 1) : Nat) ≤ x) && decide (x < (2 ^ (f.width - 1) : Nat))
  else decide (0 ≤ x) && decide (x < (2 ^ f.width : Nat))

/-- `fromPattern(f, u)` (45_descriptors.md R347). -/
def FieldEntry.fromPattern (f : FieldEntry) (u : Word) : Option Int :=
  match f.encoding with
  | .varint =>
    if f.signed then
      if u = (u.setWidth f.width).signExtend 32 then some (u.setWidth f.width).toInt else none
    else if u.toNat ≥ 2 ^ f.width then none
    else some u.toNat
  | .fixed n => if f.signed then some (u.setWidth (8 * n)).toInt else some u.toNat

/-- `present(f, rec)`, given the values of the fields before `f` (45_descriptors.md R344). -/
def FieldEntry.present (f : FieldEntry) (earlier : List Int) (flags : List (String × Bool)) : Bool :=
  match f.presence with
  | .always => true
  | .optional flag => flagValue flags flag
  | .conditional pred => pred earlier

/-! ### Encoding (45_descriptors.md R343, R345, R346) -/

/-- The wire type of a field's key (30_encoding.md R122). -/
def FieldEncoding.wireType : FieldEncoding → BitVec 3
  | .varint => wireVarint
  | .fixed _ => wireFixed32

/-- The value bytes of a field with pattern `u` (45_descriptors.md R343). -/
def FieldEncoding.valueBytes (e : FieldEncoding) (u : Word) : List Byte :=
  match e with
  | .varint => Sys2Proof.Machine.varint u
  | .fixed n => fixedBytes n u

/-- The key bytes of a field: none in a `SEQUENCE` (45_descriptors.md R343). -/
def FieldEntry.keyBytes (kind : MessageKind) (f : FieldEntry) : List Byte :=
  match kind with
  | .tagged => fieldKey (f.tag.getD 0) f.encoding.wireType
  | .sequence => []

/-- The bytes of the present fields, in list order; `earlier` are the values of the fields already passed.
DESIGN CHOICE, unsafe: a record holds one integer per field (45_descriptors.md R340); of one that does not, the fields
without a value and the values without a field are left out (notes/assumptions/17.md). -/
def encodeFields (kind : MessageKind) (flags : List (String × Bool)) :
    List FieldEntry → List Int → List Int → List Byte
  | f :: fs, earlier, x :: xs =>
    (if f.present earlier flags then f.keyBytes kind ++ f.encoding.valueBytes (f.pattern x) else [])
      ++ encodeFields kind flags fs (earlier ++ [x]) xs
  | _, _, _ => []

/-- `EncodeMsg(d, rec)` (45_descriptors.md R345); none for an ill-formed descriptor (R341). -/
def encodeMsg (d : Descriptor) (r : Record) : Option (List Byte) :=
  if d.wf then some (encodeFields d.kind r.flags d.fields [] r.vals) else none

/-- The encoder command of one present field (45_descriptors.md R345). -/
def FieldEntry.command (kind : MessageKind) (f : FieldEntry) (u : Word) : Instr :=
  match kind, f.encoding with
  | .tagged, .varint => .encTvarint (f.tag.getD 0) u
  | .tagged, .fixed _ => .encTfixed32 (f.tag.getD 0) u
  | .sequence, .varint => .encVarint u
  | .sequence, .fixed n => .encFixed (BitVec.ofNat 8 n) u

/-- The commands of the present fields, in list order; a record of another length is treated as by `encodeFields`
(notes/assumptions/17.md). -/
def fieldCommands (kind : MessageKind) (flags : List (String × Bool)) :
    List FieldEntry → List Int → List Int → List Instr
  | f :: fs, earlier, x :: xs =>
    (if f.present earlier flags then [f.command kind (f.pattern x)] else [])
      ++ fieldCommands kind flags fs (earlier ++ [x]) xs
  | _, _, _ => []

/-- The commands with which a host encodes a message into CH2 (45_descriptors.md R345); none for an ill-formed
descriptor (R341). -/
def encodeCommands (d : Descriptor) (r : Record) : Option (List Instr) :=
  if d.wf then some ([.encBegin] ++ fieldCommands d.kind r.flags d.fields [] r.vals ++ [.encEnd]) else none

/-- The key length in `MaxSize` (45_descriptors.md R346). -/
def FieldEntry.maxKey (kind : MessageKind) (f : FieldEntry) : Nat :=
  match kind with
  | .tagged => if (f.tag.getD 0).toNat ≤ 15 then 1 else 2
  | .sequence => 0

/-- The largest value length of a field (45_descriptors.md R346). -/
def FieldEntry.maxValue (f : FieldEntry) : Nat :=
  match f.encoding with
  | .fixed n => n
  | .varint => if f.signed then 5 else if f.width = 8 then 2 else if f.width = 16 then 3 else 5

/-- `MaxSize(d)` (45_descriptors.md R346). -/
def Descriptor.maxSize (d : Descriptor) : Nat :=
  (d.fields.map (fun f => f.maxKey d.kind + f.maxValue)).sum

/-! ### Decoding (45_descriptors.md R348, R349) -/

/-- `n` bytes as a fixed value and the rest, or a failure when fewer are left. -/
def takeFixed (n : Nat) (bs : List Byte) : Option (Word × List Byte) :=
  if n ≤ bs.length then some (fixedValue (bs.take n), bs.drop n) else none

/-- A varint and the rest of the bytes (30_encoding.md R121). -/
def takeVarint (bs : List Byte) : Option (Word × List Byte) :=
  (unvarint bs).map (fun r => (r.1, bs.drop r.2))

/-- One value in a field's encoding and the rest of the bytes. -/
def FieldEncoding.take (e : FieldEncoding) (bs : List Byte) : Option (Word × List Byte) :=
  match e with
  | .varint => takeVarint bs
  | .fixed n => takeFixed n bs

/-- The field is skipped: its conditional predicate is false of the values before it (45_descriptors.md R348). -/
def FieldEntry.skipped (f : FieldEntry) (earlier : List Int) : Bool :=
  match f.presence with
  | .always => false
  | .optional _ => false
  | .conditional pred => !pred earlier

/-- The values of a `SEQUENCE`'s fields, in order (45_descriptors.md R348). -/
def decodeSeqFields : List FieldEntry → List Int → List Byte → Option (List Int)
  | [], earlier, _ => some earlier
  | f :: fs, earlier, bs =>
    if f.skipped earlier then decodeSeqFields fs (earlier ++ [0]) bs
    else
      match f.encoding.take bs with
      | none => none
      | some (u, rest) =>
        match f.fromPattern u with
        | none => none
        | some x => decodeSeqFields fs (earlier ++ [x]) rest

/-- `DecodeSeq(d, bytes)`; bytes after the last field are ignored (45_descriptors.md R348). -/
def decodeSeq (d : Descriptor) (bs : List Byte) : Option Record :=
  (decodeSeqFields d.fields [] bs).map (fun vals => ⟨vals, []⟩)

/-- What a tagged decode has seen: for each field, its value once seen (45_descriptors.md R349). -/
abbrev Seen := List (Option Int)

/-- The value of the first field whose tag is `tag` set, the others as they were. -/
def setSeen : List FieldEntry → Seen → Byte → Int → Seen
  | f :: fs, v :: vs, tag, x => if f.tag = some tag then some x :: vs else v :: setSeen fs vs tag x
  | _, vs, _, _ => vs

/-- The field with that tag. -/
def fieldOfTag (fields : List FieldEntry) (tag : Word) : Option FieldEntry :=
  fields.find? (fun f => f.tag.map (BitVec.setWidth 32) == some tag)

/-- One key and value of a tagged message: what has been seen after it and the rest of the bytes; an unknown field of
wire type 0 or 5 is skipped (45_descriptors.md R349). -/
def decodeTaggedItem (fields : List FieldEntry) (seen : Seen) (bs : List Byte) : Option (Seen × List Byte) :=
  match takeVarint bs with
  | none => none
  | some (key, rest) =>
    let tag := key >>> 3
    let wt : BitVec 3 := key.extractLsb' 0 3
    if tag = 0 then none
    else
      match fieldOfTag fields tag with
      | some f =>
        if wt ≠ f.encoding.wireType then none
        else
          match f.encoding.take rest with
          | none => none
          | some (u, rest') => (f.fromPattern u).map (fun x => (setSeen fields seen (tag.setWidth 8) x, rest'))
      | none =>
        if wt = wireVarint then (takeVarint rest).map (fun r => (seen, r.2))
        else if wt = wireFixed32 then (takeFixed 4 rest).map (fun r => (seen, r.2))
        else none

/-- The loop `while p < len(bytes)`; every item takes at least one byte, so `fuel` bytes bound the rounds. -/
def decodeTaggedLoop (fields : List FieldEntry) : Nat → Seen → List Byte → Option Seen
  | _, seen, [] => some seen
  | 0, _, _ :: _ => none
  | fuel + 1, seen, b :: bs =>
    match decodeTaggedItem fields seen (b :: bs) with
    | none => none
    | some (seen', rest) => decodeTaggedLoop fields fuel seen' rest

/-- `rec.flag <- b`. -/
def setFlag : List (String × Bool) → String → Bool → List (String × Bool)
  | [], flag, b => [(flag, b)]
  | (g, v) :: rest, flag, b => if g = flag then (g, b) :: rest else (g, v) :: setFlag rest flag b

/-- The record of what was seen: presence checked against each field, absent fields 0 (45_descriptors.md R349). -/
def finishTagged : List FieldEntry → Seen → List Int → List (String × Bool) → Option Record
  | f :: fs, v :: vs, earlier, flags =>
    match f.presence with
    | .always => if v.isSome then finishTagged fs vs (earlier ++ [v.getD 0]) flags else none
    | .optional flag => finishTagged fs vs (earlier ++ [v.getD 0]) (setFlag flags flag v.isSome)
    | .conditional pred => if v.isSome = pred earlier then finishTagged fs vs (earlier ++ [v.getD 0]) flags else none
  | _, _, earlier, flags => some ⟨earlier, flags⟩

/-- `DecodeTagged(d, bytes)`: fields in any order, the last of a repeated tag wins (45_descriptors.md R349). -/
def decodeTagged (d : Descriptor) (bs : List Byte) : Option Record :=
  match decodeTaggedLoop d.fields bs.length (d.fields.map (fun _ => none)) bs with
  | none => none
  | some seen => finishTagged d.fields seen [] []

/-- Decoding by a descriptor; none for an ill-formed one (45_descriptors.md R341) or when the decode fails. -/
def decodeMsg (d : Descriptor) (bs : List Byte) : Option Record :=
  if d.wf then
    match d.kind with
    | .tagged => decodeTagged d bs
    | .sequence => decodeSeq d bs
  else none

/-! ### Records a round trip speaks of (45_descriptors.md R351) -/

/-- Each value in range for its field, and 0 where the field is absent. -/
def valuesFit (flags : List (String × Bool)) : List FieldEntry → List Int → List Int → Bool
  | [], _, [] => true
  | f :: fs, earlier, x :: xs =>
    f.inRange x && (f.present earlier flags || x == 0) && valuesFit flags fs (earlier ++ [x]) xs
  | _, _, _ => false

/-- A record of the descriptor's type whose values are in range and whose absent fields hold 0. -/
def Record.fits (d : Descriptor) (r : Record) : Bool :=
  valuesFit r.flags d.fields [] r.vals && decide (r.flags.map Prod.fst = d.flagNames)

/-! ### Descriptors the source names (45_descriptors.md R352, R353) -/

/-- A varint field of a tagged message. -/
def taggedVarint (name : String) (tag : Byte) (width : Nat) (signed : Bool) (presence : Presence) : FieldEntry :=
  ⟨name, .varint, width, signed, some tag, presence⟩

/-- An unsigned one-byte field of a sequence. -/
def sequenceByte (name : String) (presence : Presence) : FieldEntry := ⟨name, .fixed 1, 8, false, none, presence⟩

/-- `HAS_EXT(command)`, read from the four fields before `commandExt` (45_descriptors.md R352). DESIGN CHOICE, unsafe: of
a record's value outside 0..255, which R352 does not speak of, the integer itself is tested, a negative one as 0 and one
above 255 as false, though the byte sent is its low 8 bits (notes/assumptions/17.md). -/
def hasExtPredicate (cfg : Config) (earlier : List Int) : Bool :=
  match earlier with
  | [_, _, _, command] => cfg.hasExt.getLsbD command.toNat
  | _ => false

/-- The FS20 link packet (45_descriptors.md R352). -/
def fs20Descriptor (cfg : Config) : Descriptor where
  kind := .sequence
  fields :=
    [ sequenceByte "houseCodeHi" .always,
      sequenceByte "houseCodeLo" .always,
      sequenceByte "address" .always,
      sequenceByte "command" .always,
      sequenceByte "commandExt" (.conditional (hasExtPredicate cfg)),
      sequenceByte "checksum" .always ]

/-- The example `Measurement` (45_descriptors.md R353). -/
def measurement : Descriptor where
  kind := .tagged
  fields :=
    [ taggedVarint "senderId" 1 8 false .always,
      taggedVarint "seq" 2 16 false .always,
      taggedVarint "supplyMv" 3 16 false .always,
      taggedVarint "temperature" 4 16 true .always,
      taggedVarint "soil" 5 16 false (.optional "hasSoil") ]

end Sys2Proof.Machine
end

