-- ==== Sys2Proof/Machine/HostDecode.lean ====
section
/-! DEFINITION. How a host decodes the chunk open for reading on a channel with the block's commands
(45_descriptors.md R348 to R350, 44_wire_decoder.md R311 to R316). The host chooses each command from the replies so far;
presence, `fromPattern` and the tags are the host's own (R348). What the rules leave to the host is notes/assumptions/18.md. -/

namespace Sys2Proof.Machine

/-- What a host's run of commands ends with: the block's state and the host's answer, none when it has no record. -/
abbrev HostAnswer (α : Type) := Host.Outcome (State × Option α) Fault Refusal

/-- Command `i` is issued, and the host goes on as `k` from the state it answers, whose `RESULT` is the reply
(70_reset_and_hazards.md R450). -/
def issueThen {α : Type} (i : Instr) (k : State → HostAnswer α) (s : State) : HostAnswer α :=
  match exec i s with
  | .next t => k t
  | .fault r => .fault r
  | .refused r => .refused r

/-- The host has no record and issues nothing more. -/
def giveUp {α : Type} (s : State) : HostAnswer α := .next (s, none)

/-- `DEC_STATUS` ends a decode: a failed read, which replied 0, leaves no record (44_wire_decoder.md R311, R316;
45_descriptors.md R348). -/
def checkStatus {α : Type} (answer : Option α) (s : State) : HostAnswer α :=
  issueThen .decStatus (fun t => .next (t, if t.result = 1 then answer else none)) s

/-- The command that reads a value in a field's encoding: `DEC_FIXED n` or `DEC_VARINT` (45_descriptors.md R348). -/
def FieldEncoding.readCommand : FieldEncoding → Instr
  | .varint => .decVarint
  | .fixed n => .decFixed (BitVec.ofNat 8 n)

/-- `DecodeSeq` on a host: one read per field that is not skipped, then `DEC_STATUS` (45_descriptors.md R348);
`earlier` are the values of the fields already passed. -/
def hostDecodeSeq : List FieldEntry → List Int → State → HostAnswer Record
  | [], earlier, s => checkStatus (some ⟨earlier, []⟩) s
  | f :: fs, earlier, s =>
    if f.skipped earlier then hostDecodeSeq fs (earlier ++ [0]) s
    else
      issueThen f.encoding.readCommand (fun t =>
        match f.fromPattern t.result with
        | none => giveUp t
        | some x => hostDecodeSeq fs (earlier ++ [x]) t) s

/-- One key and value of a tagged message: `DEC_VARINT` reads the key, which the host splits, and a second command reads
or skips the value (45_descriptors.md R349, 44_wire_decoder.md R314); the host goes on as `k`. -/
def hostDecodeItem (fields : List FieldEntry) (seen : Seen) (k : Seen → State → HostAnswer Record) (s : State) :
    HostAnswer Record :=
  issueThen .decVarint (fun t =>
    let tag := t.result >>> 3
    let wt : BitVec 3 := t.result.extractLsb' 0 3
    if tag = 0 then giveUp t
    else
      match fieldOfTag fields tag with
      | some f =>
        if wt ≠ f.encoding.wireType then giveUp t
        else
          issueThen f.encoding.readCommand (fun u =>
            match f.fromPattern u.result with
            | none => giveUp u
            | some x => k (setSeen fields seen (tag.setWidth 8) x) u) t
      | none =>
        if wt = wireVarint then issueThen .decVarint (k seen) t
        else if wt = wireFixed32 then issueThen (.decFixed 4) (k seen) t
        else giveUp t) s

/-- `DecodeTagged` on a host: items while `DEC_REMAIN` is not 0, then `DEC_STATUS` (45_descriptors.md R349,
44_wire_decoder.md R315). Each round of a good decode takes at least one byte, so `fuel` bytes bound the rounds. -/
def hostDecodeTagged (fields : List FieldEntry) : Nat → Seen → State → HostAnswer Record
  | 0, seen, s =>
    issueThen .decRemain (fun t =>
      if t.result = 0 then checkStatus (finishTagged fields seen [] []) t else giveUp t) s
  | fuel + 1, seen, s =>
    issueThen .decRemain (fun t =>
      if t.result = 0 then checkStatus (finishTagged fields seen [] []) t
      else hostDecodeItem fields seen (fun seen' u => hostDecodeTagged fields fuel seen' u) t) s

/-- The message at the decoder's cursor is decoded by its descriptor; a chunk holds at most 255 bytes
(40_channel.md R152). -/
def hostDecodeFields (d : Descriptor) (s : State) : HostAnswer Record :=
  match d.kind with
  | .tagged => hostDecodeTagged d.fields 255 (d.fields.map (fun _ => none)) s
  | .sequence => hostDecodeSeq d.fields [] s

/-- A host decodes the chunk open for reading on channel `c`: `DEC_BEGIN`, on CH0 a `DEC_FIXED 1` that skips `hdr`, and
the reads of the descriptor (45_descriptors.md R348, R350). An ill-formed descriptor is refused: no command is issued
(45_descriptors.md R341). DESIGN CHOICE, unsafe: when `DEC_BEGIN` faults `DEC_NO_SOURCE`, the host goes on with its reads,
so that a decode still open on another channel is read and can give a record (notes/assumptions/18.md). -/
def hostDecode (c : Chan) (d : Descriptor) (s : State) : HostAnswer Record :=
  if d.wf then
    issueThen (.decBegin (chanOperand c)) (fun t =>
      match c with
      | .ch0 => issueThen (.decFixed 1) (hostDecodeFields d) t
      | .ch1 => hostDecodeFields d t
      | .ch2 => hostDecodeFields d t) s
  else giveUp s

/-- The bytes of a chunk's content that are the message: after `hdr` for a CH0 frame, all of them on the other channels
(45_descriptors.md R350, 41_crc_receiver.md R200); none when a CH0 chunk has no `hdr`. -/
def messageBytes (c : Chan) (content : List Byte) : Option (List Byte) :=
  match c with
  | .ch0 => content.tail?
  | .ch1 => some content
  | .ch2 => some content

end Sys2Proof.Machine
end

