-- ==== Sys2Proof/Safety.lean ====
section
/-! DEFINITION. What a safe state is (the invariants of 10_state.md R33, R34, R36 to R39, R42 to R46 and
41_crc_receiver.md R210), what a reader of a channel sees (40_channel.md R152, R170), and runs of several commands. -/

namespace Sys2Proof.Machine

/-! ### What a channel holds -/

/-- Offset from the read cursor of the `k`-th committed chunk: the `k` chunks before it, each a length byte and its
content, lie back to back (10_state.md R39, 40_channel.md R152). -/
def chunkOffset (n : Nat) (ch : Channel) : Nat → Nat
  | 0 => 0
  | k + 1 => chunkOffset n ch k + (rbPeek n (chunkOffset n ch k) ch).toNat + 1

/-- The `len` stored bytes from offset `p` after the read cursor. -/
def storedBytes (n : Nat) (ch : Channel) (p len : Nat) : List Byte := (List.range len).map (fun i => rbPeek n (p + i) ch)

/-- Content of the `k`-th committed chunk, oldest first (40_channel.md R152). -/
def chunkContent (n : Nat) (ch : Channel) (k : Nat) : List Byte :=
  storedBytes n ch (chunkOffset n ch k + 1) (rbPeek n (chunkOffset n ch k) ch).toNat

/-- The contents of the committed chunks not yet released, oldest first: what a reader of the channel will see
(20_memory.md R88, R89). -/
def committed (n : Nat) (ch : Channel) : List (List Byte) := (List.range ch.nchunks).map (chunkContent n ch)

/-- The content bytes of the chunk open for writing, in the order written (20_memory.md R80). -/
def openContent (n : Nat) (ch : Channel) : List Byte :=
  (List.range (ch.wbytes - 1)).map (fun i => ch.byteAt n (ch.wstart + 1 + i))

/-- The committed chunks of channel `c`. -/
def State.committed (s : State) (c : Chan) : List (List Byte) := Sys2Proof.Machine.committed (s.capacity c) (s.chan c)

/-- The content of the chunk open for writing on channel `c`. -/
def State.openContent (s : State) (c : Chan) : List Byte :=
  Sys2Proof.Machine.openContent (s.capacity c) (s.chan c)

/-! ### Invariants -/

/-- Every listed index of a storage array lies below the capacity (20_memory.md R70). -/
def Memory.below (n : Nat) (m : Memory) : Bool := m.cells.all (fun cell => decide (cell.1 < n))

/-- The channel invariants of 10_state.md R36 to R39. -/
structure Channel.Inv (n : Nat) (ch : Channel) : Prop where
  bufCanonical : ch.buf.wf = true
  bufBelow : ch.buf.below n = true
  rdRange : ch.rd < n
  wrRange : ch.wr < n
  wstartRange : ch.wstart < n
  countRange : ch.count ≤ n
  countSum : ch.count = chunkOffset n ch ch.nchunks + (if ch.writing then ch.wbytes else 0)
  wrPlace : ch.wr = (ch.rd + ch.count) % n
  wstartPlace : ch.writing = true → ch.wstart = (ch.rd + chunkOffset n ch ch.nchunks) % n
  readOpen : ch.ropen = true → 1 ≤ ch.nchunks ∧ ch.rlen = (rbPeek n 0 ch).toNat ∧ ch.rpos ≤ ch.rlen
  readClosed : ch.ropen = false → ch.rlen = 0 ∧ ch.rpos = 0
  writeClosed : ch.writing = false → ch.wbytes = 0 ∧ ch.wlost = false
  writeOpen : ch.writing = true → ch.wlost = false → 1 ≤ ch.wbytes

/-- `rxRem` in each receiver state: 0 outside `DATA`, and from 1 to `MAX_LEN + 2` in it (10_state.md R42,
41_crc_receiver.md R202, R205). -/
def rxRemOk (maxLen : Nat) (st : RxState) (rem : Nat) : Prop :=
  match st with
  | .idle => rem = 0
  | .length => rem = 0
  | .data => 1 ≤ rem ∧ rem ≤ maxLen + 2

/-- The pulse decoder's counters in each phase (10_state.md R43, 42_pulse_decoder.md R236, R241 to R243). -/
def pdCountersOk (s : State) : Prop :=
  match s.pdPhase with
  | .hunt => s.pdBits = 0 ∧ s.pdShift = 0 ∧ s.pdCount = 0 ∧ s.pdExpect = 5
  | .data =>
    s.pdBits ≤ 8 ∧ s.pdCount < s.pdExpect ∧ (s.pdExpect = 5 ∨ s.pdExpect = 6) ∧ (s.pdCount < 4 → s.pdExpect = 5)

/-- The invariant every step keeps (10_state.md R33, R34, R39, R42 to R46, 41_crc_receiver.md R210,
43_wire_encoder.md R280, R281). -/
structure State.Inv (s : State) : Prop where
  config : s.cfg.wf = true
  channels : ∀ c, (s.chan c).Inv (s.capacity c)
  ctrlReserved : s.ctrl &&& 0xFE = 0
  faultReserved : s.fault >>> 17 = 0
  faultUnset : s.fault.getLsbD 16 = false → s.fault = 0
  faultSet : s.fault.getLsbD 16 = true → ∃ unit op cause, s.fault = faultWord unit op cause
  rxWriting : s.ch0.writing = true ↔ s.rxState ≠ .idle
  rxCounter : rxRemOk s.cfg.maxLen s.rxState s.rxRem
  pdWriting : s.ch1.writing = true ↔ s.pdPhase = .data
  pdCounters : pdCountersOk s
  encWriting : s.encOpen = true → s.ch2.writing = true ∧ s.encValid = !s.ch2.wlost
  encClosed : s.encOpen = false → s.encValid = false
  decSource : s.decOpen = true → (s.chan s.decCh).ropen = true ∧ s.decPos ≤ (s.chan s.decCh).rlen
  decRange : s.decPos ≤ 255

/-- No usage error has been recorded since reset (60_exceptions.md R401, 70_reset_and_hazards.md R457). -/
def State.faultFree (s : State) : Bool := !s.fault.getLsbD 16

/-! ### Runs -/

/-- Commands performed one after another, each whole (00_scope.md R21), stopping at the first that does not answer a
next state. -/
def execAll : List Instr → State → Host.Outcome State Fault Refusal
  | [], s => .next s
  | i :: is, s =>
    match exec i s with
    | .next t => execAll is t
    | .fault r => .fault r
    | .refused r => .refused r

/-- The reply of a step: `RESULT` of the state it answers (70_reset_and_hazards.md R450). -/
def reply (s : State) : Option Word :=
  match step s with
  | .next t => some t.result
  | .fault _ => none
  | .refused _ => none

/-- `RESULT` after each of a list of commands (70_reset_and_hazards.md R450). -/
def replies : List Instr → State → List Word
  | [], _ => []
  | i :: is, s =>
    match exec i s with
    | .next t => t.result :: replies is t
    | .fault _ => []
    | .refused _ => []

/-- The commands of one agent in a stream of inputs, in their order (00_scope.md R20, R21). -/
def agentStream (a : Agent) (inputs : List Input) : List Command :=
  inputs.filterMap (fun i =>
    match i with
    | .command t => if t.agent = a then some t else none
    | .reset => none)

/-! ### What statements compare -/

/-- Storage `m'` is `m` with the one byte `v` stored at index `a`, every other byte as before (20_memory.md R70). -/
def Memory.storedAt (m : Memory) (a : Nat) (v : Byte) (m' : Memory) : Prop :=
  ∀ x, m'.read x = if x = a then v else m.read x

/-- Two channels that no command can tell apart: every field but storage agrees, and so does every stored byte
(10_state.md R39, R48; 93_implementation_defined.md U9, U10). -/
def sameStored (n : Nat) (a b : Channel) : Prop :=
  { a with buf := b.buf } = b ∧ ∀ k, k < a.count → rbPeek n k a = rbPeek n k b

/-- Two states that differ at most in storage bytes that are not stored bytes of a channel: bytes never written, of
aborted chunks, of released chunks (93_implementation_defined.md U9, U10). -/
def sameVisible (s t : State) : Prop :=
  { s with ch0 := t.ch0, ch1 := t.ch1, ch2 := t.ch2 } = t ∧ ∀ c, sameStored (s.capacity c) (s.chan c) (t.chan c)

/-- The duration lies in the window of a pulse class (42_pulse_decoder.md R232). -/
def inWindow (cfg : Config) (d : Half) : PulseClass → Prop
  | .short => cfg.shortMin ≤ d.toNat ∧ d.toNat ≤ cfg.shortMax
  | .long => cfg.longMin ≤ d.toNat ∧ d.toNat ≤ cfg.longMax

/-- The bytes a well-formed field command of the encoder appends (43_wire_encoder.md R283 to R286); none for every
other command. -/
def fieldBytes : Instr → Option (List Byte)
  | .encFixed w v => (widthOperand w).map (fun n => fixedBytes n v)
  | .encVarint v => some (varint v)
  | .encTvarint tag v => if tag = 0 then none else some (fieldKey tag wireVarint ++ varint v)
  | .encTfixed32 tag v => if tag = 0 then none else some (fieldKey tag wireFixed32 ++ fixedBytes 4 v)
  | .chWriteStart _ => none
  | .chWrite _ _ => none
  | .chWriteEnd _ => none
  | .chWriteAbort _ => none
  | .chHasContent _ => none
  | .chReadStart _ => none
  | .chRead _ => none
  | .chPeek _ _ => none
  | .chReadEnd _ => none
  | .chAvail _ => none
  | .chIsWriting _ => none
  | .rxStart _ => none
  | .rxByte _ => none
  | .rxIsWriting => none
  | .pulse _ _ => none
  | .pdStatus => none
  | .encBegin => none
  | .encEnd => none
  | .encStatus => none
  | .decBegin _ => none
  | .decFixed _ => none
  | .decVarint => none
  | .decRemain => none
  | .decStatus => none
  | .nop => none
  | .ctrlRead => none
  | .ctrlWrite _ => none
  | .faultRead => none

/-- The pulses of bits given as (high, low) duration pairs. -/
def pairPulses (pairs : List (Half × Half)) : List Instr := pairs.flatMap (fun p => [.pulse true p.1, .pulse false p.2])

end Sys2Proof.Machine
end

