-- ==== Sys2Proof/Certificates/Slice0/Obligations.lean ====
section
/-! DEFINITION. The statements about this model. Each docstring says which rule of spec/ it formalises; a clause that
rests on a choice of the model names its log entry (notes/assumptions). -/

open Sys2Proof Sys2Proof.Machine

/-! ### Commands as words -/

/-- 30_encoding.md R102, R107, R108: decoding the words of a command gives the command back, for every command with
every operand. -/
def Obligations.DecodeInvertsEncode : Prop :=
  ∀ i : Instr, decode (encode i).1 (encode i).2 = .ok i

/-- 30_encoding.md R102, R107, R108: a command word that decodes holds exactly the bits of the command's encoding, but
for the bits the command's row calls ignored; those may hold any value and change nothing. -/
def Obligations.DecodedCommandReencodes : Prop :=
  ∀ (cmd : Half) (data : Word) (i : Instr), decode cmd data = .ok i →
    ((encode i).1 = cmd &&& (0xFF00#16 ||| (usedImm8 i).setWidth 16) ∧ (encode i).2 = data &&& usedData i)
    ∧ ∀ (cmd' : Half) (data' : Word),
        cmd' &&& (0xFF00#16 ||| (usedImm8 i).setWidth 16) = (encode i).1 → data' &&& usedData i = (encode i).2 →
        decode cmd' data' = .ok i

/-- 30_encoding.md R103, R107, R108, R111: every row of the operation map, with its operand fields. -/
def Obligations.OperationMapDecodes : Prop :=
  ∀ (imm : Byte) (data : Word),
    (∀ c : Chan,
      decode (chanUnit c ++ 0x0#4 ++ imm) data = .ok (.chWriteStart c)
      ∧ decode (chanUnit c ++ 0x1#4 ++ imm) data = .ok (.chWrite c imm)
      ∧ decode (chanUnit c ++ 0x2#4 ++ imm) data = .ok (.chWriteEnd c)
      ∧ decode (chanUnit c ++ 0x3#4 ++ imm) data = .ok (.chWriteAbort c)
      ∧ decode (chanUnit c ++ 0x4#4 ++ imm) data = .ok (.chHasContent c)
      ∧ decode (chanUnit c ++ 0x5#4 ++ imm) data = .ok (.chReadStart c)
      ∧ decode (chanUnit c ++ 0x6#4 ++ imm) data = .ok (.chRead c)
      ∧ decode (chanUnit c ++ 0x7#4 ++ imm) data = .ok (.chPeek c imm)
      ∧ decode (chanUnit c ++ 0x8#4 ++ imm) data = .ok (.chReadEnd c)
      ∧ decode (chanUnit c ++ 0x9#4 ++ imm) data = .ok (.chAvail c)
      ∧ decode (chanUnit c ++ 0xA#4 ++ imm) data = .ok (.chIsWriting c))
    ∧ decode (0x3#4 ++ 0x0#4 ++ imm) data = .ok (.rxStart imm)
    ∧ decode (0x3#4 ++ 0x1#4 ++ imm) data = .ok (.rxByte imm)
    ∧ decode (0x3#4 ++ 0x2#4 ++ imm) data = .ok .rxIsWriting
    ∧ decode (0x4#4 ++ 0x0#4 ++ imm) data = .ok (.pulse (imm.getLsbD 0) (data.extractLsb' 0 16))
    ∧ decode (0x4#4 ++ 0x1#4 ++ imm) data = .ok .pdStatus
    ∧ decode (0x5#4 ++ 0x0#4 ++ imm) data = .ok .encBegin
    ∧ decode (0x5#4 ++ 0x1#4 ++ imm) data = .ok (.encFixed imm data)
    ∧ decode (0x5#4 ++ 0x2#4 ++ imm) data = .ok (.encVarint data)
    ∧ decode (0x5#4 ++ 0x3#4 ++ imm) data = .ok (.encTvarint imm data)
    ∧ decode (0x5#4 ++ 0x4#4 ++ imm) data = .ok (.encTfixed32 imm data)
    ∧ decode (0x5#4 ++ 0x5#4 ++ imm) data = .ok .encEnd
    ∧ decode (0x5#4 ++ 0x6#4 ++ imm) data = .ok .encStatus
    ∧ decode (0x6#4 ++ 0x0#4 ++ imm) data = .ok (.decBegin (imm.extractLsb' 0 2))
    ∧ decode (0x6#4 ++ 0x1#4 ++ imm) data = .ok (.decFixed imm)
    ∧ decode (0x6#4 ++ 0x2#4 ++ imm) data = .ok .decVarint
    ∧ decode (0x6#4 ++ 0x3#4 ++ imm) data = .ok .decRemain
    ∧ decode (0x6#4 ++ 0x4#4 ++ imm) data = .ok .decStatus
    ∧ decode (0xF#4 ++ 0x0#4 ++ imm) data = .ok .nop
    ∧ decode (0xF#4 ++ 0x1#4 ++ imm) data = .ok .ctrlRead
    ∧ decode (0xF#4 ++ 0x2#4 ++ imm) data = .ok (.ctrlWrite imm)
    ∧ decode (0xF#4 ++ 0x3#4 ++ imm) data = .ok .faultRead

/-- 30_encoding.md R110, R111: the illegal command words are exactly those of a reserved unit or a reserved operation. -/
def Obligations.IllegalWordsAreTheReserved : Prop :=
  ∀ (cmd : Half) (data : Word),
    (∃ why, decode cmd data = .error why) ↔
      (7 ≤ (unitField cmd).toNat ∧ (unitField cmd).toNat ≤ 14)
      ∨ ((unitField cmd).toNat ≤ 2 ∧ 0xB ≤ (opField cmd).toNat)
      ∨ ((unitField cmd).toNat = 3 ∧ 0x3 ≤ (opField cmd).toNat)
      ∨ ((unitField cmd).toNat = 4 ∧ 0x2 ≤ (opField cmd).toNat)
      ∨ ((unitField cmd).toNat = 5 ∧ 0x7 ≤ (opField cmd).toNat)
      ∨ ((unitField cmd).toNat = 6 ∧ 0x5 ≤ (opField cmd).toNat)
      ∨ ((unitField cmd).toNat = 15 ∧ 0x4 ≤ (opField cmd).toNat)

/-- 30_encoding.md R107: words written out from the operation map, one of every unit, decode to their commands. -/
def Obligations.WordsOfEveryUnitDecode : Prop :=
  decode 0x2141 0 = .ok (.chWrite .ch2 0x41) ∧ decode 0x1500 0 = .ok (.chReadStart .ch1)
    ∧ decode 0x0703 0 = .ok (.chPeek .ch0 3) ∧ decode 0x3138 0 = .ok (.rxByte 0x38)
    ∧ decode 0x4001 0x258 = .ok (.pulse true 600) ∧ decode 0x5301 0x12C = .ok (.encTvarint 1 300)
    ∧ decode 0x6102 0 = .ok (.decFixed 2) ∧ decode 0xF2FF 0 = .ok (.ctrlWrite 0xFF)

/-! ### One step -/

/-- 00_scope.md R21: when the next input is a command whose words decode, the step is that command's, performed on the
state with the command taken from the port and counted (10_state.md R31). -/
def Obligations.StepPerformsDecodedCommand : Prop :=
  ∀ (s : State) (t : Command) (rest : List Input) (i : Instr),
    s.cfg.wf = true → s.inputs = .command t :: rest → decode t.cmd t.data = .ok i →
    step s = exec i { s with inputs := rest, position := s.position + 1 }

/-- 30_encoding.md R110, 60_exceptions.md R401: an illegal command records `ILLEGAL_COMMAND` with its `UNIT` and `OP`,
if no fault is recorded yet, and does nothing else. -/
def Obligations.StepRecordsIllegalCommand : Prop :=
  ∀ (s : State) (t : Command) (rest : List Input) (why : DecodeReject),
    s.cfg.wf = true → s.inputs = .command t :: rest → decode t.cmd t.data = .error why →
    step s
      = .next { s with
          inputs := rest
          position := s.position + 1
          fault :=
            if s.fault.getLsbD 16 then s.fault
            else
              0x00010000 ||| ((t.cmd.extractLsb' 12 4).setWidth 32 <<< 12)
                ||| ((t.cmd.extractLsb' 8 4).setWidth 32 <<< 8) ||| 0x01 }

/-- 70_reset_and_hazards.md R440: the reset event sets every field to its value after reset and keeps the parameters
(R441); the inputs still to come and their numbering stand outside the block (log entry 8). R460: a run ends when its
inputs end, and no command, legal or illegal, ends it before. 00_scope.md R8: a configuration that breaks its
well-formedness is refused. How a step says either of the last two is the model's (log entries 1 and 3). -/
def Obligations.StepResetsEndsOrGoesOn : Prop :=
  (∀ (s : State) (rest : List Input), s.cfg.wf = true → s.inputs = .reset :: rest →
    step s = .next { State.resetWith s.cfg with inputs := rest, position := s.position })
    ∧ (∀ s : State, s.cfg.wf = true → s.inputs = [] → step s = .fault .runEnded)
    ∧ (∀ s : State, s.cfg.wf = false → step s = .refused .illFormedConfig)
    ∧ (∀ (s : State) (i : Input) (rest : List Input), s.cfg.wf = true → s.inputs = i :: rest → ∃ t, step s = .next t)

/-- 10_state.md R48: every field after reset, for a block with any parameters (storage is left unspecified). -/
def Obligations.ResetLeavesListedValues : Prop :=
  ∀ cfg : Config,
    (State.resetWith cfg).result = 0x00000000 ∧ (State.resetWith cfg).ctrl = 0x01
    ∧ (State.resetWith cfg).fault = 0x00000000
    ∧ (∀ c, ((State.resetWith cfg).chan c).rd = 0 ∧ ((State.resetWith cfg).chan c).wr = 0
        ∧ ((State.resetWith cfg).chan c).count = 0 ∧ ((State.resetWith cfg).chan c).nchunks = 0
        ∧ ((State.resetWith cfg).chan c).writing = false ∧ ((State.resetWith cfg).chan c).wlost = false
        ∧ ((State.resetWith cfg).chan c).ropen = false ∧ ((State.resetWith cfg).chan c).wstart = 0
        ∧ ((State.resetWith cfg).chan c).wbytes = 0 ∧ ((State.resetWith cfg).chan c).rlen = 0
        ∧ ((State.resetWith cfg).chan c).rpos = 0 ∧ (State.resetWith cfg).hasContentOutput c = false)
    ∧ (State.resetWith cfg).rxState = .idle ∧ (State.resetWith cfg).rxCrc = 0x0000 ∧ (State.resetWith cfg).rxRem = 0
    ∧ (State.resetWith cfg).pdPhase = .hunt ∧ (State.resetWith cfg).pdZeros = 0 ∧ (State.resetWith cfg).pdBits = 0
    ∧ (State.resetWith cfg).pdShift = 0 ∧ (State.resetWith cfg).pdCount = 0 ∧ (State.resetWith cfg).pdPend = none
    ∧ (State.resetWith cfg).pdExpect = 5 ∧ (State.resetWith cfg).pdBytes.toList = List.replicate 6 0x00
    ∧ (State.resetWith cfg).encOpen = false ∧ (State.resetWith cfg).encValid = false
    ∧ (State.resetWith cfg).decOpen = false ∧ (State.resetWith cfg).decCh = .ch0 ∧ (State.resetWith cfg).decPos = 0
    ∧ (State.resetWith cfg).decOk = false

/-- 10_state.md R31, 70_reset_and_hazards.md R441: no command changes the parameters, the inputs still to come or the
number of commands taken. -/
def Obligations.CommandsKeepParametersAndPort : Prop :=
  ∀ (i : Instr) (s t : State), exec i s = .next t →
    t.cfg = s.cfg ∧ t.inputs = s.inputs ∧ t.position = s.position

/-- 00_scope.md R21: within one agent's stream the order is that agent's issue order: a step takes at most the first
command of one agent and leaves the rest in order. 60_exceptions.md R420: which agent issued a command makes no
difference. -/
def Obligations.AgentOrderKeptAndAgentsUnchecked : Prop :=
  (∀ s t : State, step s = .next t →
    ∀ a, ∃ taken, agentStream a s.inputs = taken ++ agentStream a t.inputs ∧ taken.length ≤ 1)
  ∧ (∀ (s : State) (a : Agent) (t : Command) (rest : List Input),
      step { s with inputs := .command t :: rest } = step { s with inputs := .command { t with agent := a } :: rest })

/-! ### Invariants -/

/-- 10_state.md R48, R39, R44; 41_crc_receiver.md R210: the state after reset satisfies the invariant, for every
well-formed configuration. -/
def Obligations.ResetSatisfiesInvariant : Prop :=
  (∀ cfg : Config, cfg.wf = true → (State.resetWith cfg).Inv) ∧ State.reset.Inv

/-- 10_state.md R39: "Channel invariants, which every command preserves", with R33, R34, R36 to R38 and R42 to R46 of
10_state.md, R210 of 41_crc_receiver.md and R281 of 43_wire_encoder.md: every step keeps them all, from every state
that has them. That storage is a canonical list is the model's representation of it (log entry 4). -/
def Obligations.StepKeepsInvariant : Prop :=
  ∀ s t : State, s.Inv → step s = .next t → t.Inv

/-! ### Faults -/

/-- 60_exceptions.md R400, R401; 10_state.md R34: what raising a fault does: the first one since reset is recorded,
with its cause code, and nothing else changes; a later one changes nothing at all. -/
def Obligations.FirstFaultIsRecorded : Prop :=
  (∀ (unit op : Nibble) (cause : FaultCause) (s : State), s.fault.getLsbD 16 = true →
    recordFault unit op cause s = s)
  ∧ (∀ (unit op : Nibble) (cause : FaultCause) (s : State), s.fault.getLsbD 16 = false →
      ∃ w : Word, recordFault unit op cause s = { s with fault := w }
        ∧ w.extractLsb' 0 8 = cause.code ∧ w.extractLsb' 8 4 = op ∧ w.extractLsb' 12 4 = unit
        ∧ w.getLsbD 16 = true ∧ w.extractLsb' 17 15 = 0)
  ∧ FaultCause.code .illegalCommand = 0x01 ∧ FaultCause.code .nestedWriteStart = 0x02
  ∧ FaultCause.code .noOpenChunk = 0x03 ∧ FaultCause.code .channelOwned = 0x04
  ∧ FaultCause.code .readEmpty = 0x05 ∧ FaultCause.code .readAlreadyOpen = 0x06
  ∧ FaultCause.code .readNotOpen = 0x07 ∧ FaultCause.code .readPastEnd = 0x08
  ∧ FaultCause.code .badOperand = 0x09 ∧ FaultCause.code .encAlreadyOpen = 0x0A
  ∧ FaultCause.code .encNotOpen = 0x0B ∧ FaultCause.code .decNoSource = 0x0C
  ∧ FaultCause.code .decNotOpen = 0x0D

/-- 60_exceptions.md R403: a command that records a fault writes nothing but `FAULT`, only if no fault was recorded,
with its own `UNIT` and `OP`. R401: "No command clears `FAULT`", an illegal one neither. -/
def Obligations.FaultsArePreciseAndSticky : Prop :=
  (∀ (i : Instr) (s t : State), exec i s = .next t → t.fault ≠ s.fault →
    s.fault.getLsbD 16 = false
      ∧ ∃ cause, cause ≠ .illegalCommand ∧ t = { s with fault := faultWord (unitOf i) (opOf i) cause })
    ∧ (∀ (cmd : Half) (data : Word) (s t : State), perform cmd data s = .next t → s.fault.getLsbD 16 = true →
        t.fault = s.fault)

/-- 60_exceptions.md R402, 30_encoding.md R108: an operand outside its legal set faults `BAD_OPERAND` whatever the
state, before any state is looked at. -/
def Obligations.IllegalOperandsFaultFirst : Prop :=
  ∀ (i : Instr) (s : State), i.wf = false →
    exec i s = .next (recordFault (unitOf i) (opOf i) .badOperand s)

/-- 10_state.md R30, 30_encoding.md R107: the commands whose `RESULT` column says "unchanged" leave `RESULT` as it was. -/
def Obligations.ResultUnchangedWhereListed : Prop :=
  ∀ (s t : State) (c : Chan) (b w : Byte) (v : Word) (h : Bool) (d : Half) (ch : BitVec 2) (i : Instr),
    i ∈ [.chWriteStart c, .chWrite c b, .chWriteAbort c, .chReadEnd c, .rxStart b, .rxByte b, .pulse h d, .encBegin,
          .encFixed w v, .encVarint v, .encTvarint b v, .encTfixed32 b v, .decBegin ch, .nop, .ctrlWrite b] →
    exec i s = .next t → t.result = s.result

/-- 20_memory.md R84: a query that does not fault changes only `RESULT`, and every query is idempotent. -/
def Obligations.QueriesChangeOnlyResult : Prop :=
  ∀ (s t : State) (c : Chan) (k : Byte) (q : Instr),
    q ∈ [.chHasContent c, .chPeek c k, .chAvail c, .chIsWriting c, .rxIsWriting, .pdStatus, .encStatus, .decRemain,
          .decStatus, .ctrlRead, .faultRead] →
    exec q s = .next t →
    exec q t = .next t
      ∧ (t = { s with result := t.result } ∨ (t = { s with fault := t.fault } ∧ (q = .chPeek c k ∨ q = .decRemain)))

/-! ### Storage and chunk primitives -/

/-- 40_channel.md R150, R151; 20_memory.md R72, R75: `RB_put` stores at the write cursor when there is room and drops
the byte when there is not, and never overwrites a stored byte; `RB_peek` reads, and `RB_drop` consumes, from the read
cursor; indices are modulo the capacity. -/
def Obligations.RingBufferPrimitives : Prop :=
  ∀ (n : Nat) (ch : Channel) (b : Byte) (k : Nat),
    (ch.count < n → ch.wr < n →
      ∃ buf, ch.buf.storedAt ch.wr b buf
        ∧ rbPut n b ch = some { ch with buf := buf, wr := (ch.wr + 1) % n, count := ch.count + 1 })
    ∧ (¬ch.count < n → rbPut n b ch = none)
    ∧ (∀ ch', ch.wr = (ch.rd + ch.count) % n → k < ch.count → rbPut n b ch = some ch' →
        rbPeek n k ch' = rbPeek n k ch)
    ∧ rbPeek n k ch = ch.buf.read ((ch.rd + k) % n)
    ∧ rbDrop n k ch = { ch with rd := (ch.rd + k) % n, count := ch.count - k }

/-- 40_channel.md R153 to R157: opening a chunk, appending to it, ending it and discarding it, on a channel of any
capacity, lost or not. -/
def Obligations.ChunkPrimitives : Prop :=
  ∀ (n : Nat) (ch : Channel) (b : Byte),
    (ch.count < n → ch.wr < n →
      ∃ buf, ch.buf.storedAt ch.wr 0x00 buf
        ∧ chunkStart n ch
          = { ch with
              buf := buf, wr := (ch.wr + 1) % n, count := ch.count + 1, writing := true, wstart := ch.wr, wbytes := 1
              wlost := false })
    ∧ (¬ch.count < n →
        chunkStart n ch = { ch with writing := true, wstart := ch.wr, wbytes := 0, wlost := true })
    ∧ (ch.wlost = true → chunkPut n b ch = ch)
    ∧ (ch.wlost = false → ch.wbytes = 256 ∨ ¬ch.count < n → chunkPut n b ch = { ch with wlost := true })
    ∧ (ch.wlost = false → ch.wbytes ≠ 256 → ch.count < n → ch.wr < n →
        ∃ buf, ch.buf.storedAt ch.wr b buf
          ∧ chunkPut n b ch
            = { ch with buf := buf, wr := (ch.wr + 1) % n, count := ch.count + 1, wbytes := ch.wbytes + 1 })
    ∧ (ch.wlost = true → chunkEnd n ch = chunkAbort ch ∧ chunkEndCommits ch = false)
    ∧ (ch.wlost = false → ch.wstart < n →
        chunkEndCommits ch = true
          ∧ ∃ buf, ch.buf.storedAt ch.wstart (BitVec.ofNat 8 (ch.wbytes - 1)) buf
            ∧ chunkEnd n ch = { ch with buf := buf, nchunks := ch.nchunks + 1, writing := false, wbytes := 0 })
    ∧ chunkAbort ch
        = { ch with wr := ch.wstart, count := ch.count - ch.wbytes, writing := false, wbytes := 0, wlost := false }

/-! ### Channel commands -/

/-- 40_channel.md R158: `CH_WRITE_START` in every case, with R153 and R154 for what opening a chunk does. -/
def Obligations.ChWriteStartOpensChunk : Prop :=
  ∀ s : State,
    (∀ (c : Chan) (imm : Byte) (data : Word), decode (chanUnit c ++ 0x0#4 ++ imm) data = .ok (.chWriteStart c))
    ∧ (∀ c, c = .ch0 ∨ c = .ch1 → exec (.chWriteStart c) s = .next (recordFault (chanUnit c) 0x0 .channelOwned s))
    ∧ (s.encOpen = true → exec (.chWriteStart .ch2) s = .next (recordFault 0x2 0x0 .channelOwned s))
    ∧ (s.encOpen = false → s.ch2.writing = true →
        exec (.chWriteStart .ch2) s = .next (recordFault 0x2 0x0 .nestedWriteStart s))
    ∧ (s.encOpen = false → s.ch2.writing = false → s.ch2.count < s.cfg.n2 → s.ch2.wr < s.cfg.n2 →
        ∃ buf, s.ch2.buf.storedAt s.ch2.wr 0x00 buf
          ∧ exec (.chWriteStart .ch2) s
            = .next { s with
                ch2 := { s.ch2 with
                  buf := buf, wr := (s.ch2.wr + 1) % s.cfg.n2, count := s.ch2.count + 1, writing := true
                  wstart := s.ch2.wr, wbytes := 1, wlost := false } })
    ∧ (s.encOpen = false → s.ch2.writing = false → ¬s.ch2.count < s.cfg.n2 →
        exec (.chWriteStart .ch2) s
          = .next { s with
              ch2 := { s.ch2 with writing := true, wstart := s.ch2.wr, wbytes := 0, wlost := true } })

/-- 40_channel.md R159: `CH_WRITE` in every case, with R153 and R155 for what appending a byte does. -/
def Obligations.ChWriteAppendsByte : Prop :=
  ∀ (s : State) (b : Byte),
    (∀ (c : Chan) (data : Word), decode (chanUnit c ++ 0x1#4 ++ b) data = .ok (.chWrite c b))
    ∧ (∀ c, c = .ch0 ∨ c = .ch1 → exec (.chWrite c b) s = .next (recordFault (chanUnit c) 0x1 .channelOwned s))
    ∧ (s.encOpen = true → exec (.chWrite .ch2 b) s = .next (recordFault 0x2 0x1 .channelOwned s))
    ∧ (s.encOpen = false → s.ch2.writing = false →
        exec (.chWrite .ch2 b) s = .next (recordFault 0x2 0x1 .noOpenChunk s))
    ∧ (s.encOpen = false → s.ch2.writing = true → s.ch2.wlost = true → exec (.chWrite .ch2 b) s = .next s)
    ∧ (s.encOpen = false → s.ch2.writing = true → s.ch2.wlost = false →
        (s.ch2.wbytes = 256 ∨ ¬s.ch2.count < s.cfg.n2) →
        exec (.chWrite .ch2 b) s = .next { s with ch2 := { s.ch2 with wlost := true } })
    ∧ (s.encOpen = false → s.ch2.writing = true → s.ch2.wlost = false → s.ch2.wbytes ≠ 256 →
        s.ch2.count < s.cfg.n2 → s.ch2.wr < s.cfg.n2 →
        ∃ buf, s.ch2.buf.storedAt s.ch2.wr b buf
          ∧ exec (.chWrite .ch2 b) s
            = .next { s with
                ch2 := { s.ch2 with
                  buf := buf, wr := (s.ch2.wr + 1) % s.cfg.n2, count := s.ch2.count + 1
                  wbytes := s.ch2.wbytes + 1 } })

/-- 40_channel.md R160: `CH_WRITE_END` in every case, with R156 for what ending a chunk does. -/
def Obligations.ChWriteEndCommits : Prop :=
  ∀ s : State,
    (∀ (c : Chan) (imm : Byte) (data : Word), decode (chanUnit c ++ 0x2#4 ++ imm) data = .ok (.chWriteEnd c))
    ∧ (∀ c, c = .ch0 ∨ c = .ch1 → exec (.chWriteEnd c) s = .next (recordFault (chanUnit c) 0x2 .channelOwned s))
    ∧ (s.encOpen = true → exec (.chWriteEnd .ch2) s = .next (recordFault 0x2 0x2 .channelOwned s))
    ∧ (s.encOpen = false → s.ch2.writing = false →
        exec (.chWriteEnd .ch2) s = .next (recordFault 0x2 0x2 .noOpenChunk s))
    ∧ (s.encOpen = false → s.ch2.writing = true → s.ch2.wlost = true →
        exec (.chWriteEnd .ch2) s
          = .next { s with
              result := 0
              ch2 := { s.ch2 with
                wr := s.ch2.wstart, count := s.ch2.count - s.ch2.wbytes, writing := false, wbytes := 0
                wlost := false } })
    ∧ (s.encOpen = false → s.ch2.writing = true → s.ch2.wlost = false → s.ch2.wstart < s.cfg.n2 →
        ∃ buf, s.ch2.buf.storedAt s.ch2.wstart (BitVec.ofNat 8 (s.ch2.wbytes - 1)) buf
          ∧ exec (.chWriteEnd .ch2) s
            = .next { s with
                result := 1
                ch2 := { s.ch2 with
                  buf := buf, nchunks := s.ch2.nchunks + 1, writing := false, wbytes := 0 } })

/-- 40_channel.md R161: `CH_WRITE_ABORT` in every case, with R157 for what discarding a chunk does. -/
def Obligations.ChWriteAbortDiscards : Prop :=
  ∀ s : State,
    (∀ (c : Chan) (imm : Byte) (data : Word), decode (chanUnit c ++ 0x3#4 ++ imm) data = .ok (.chWriteAbort c))
    ∧ (∀ c, c = .ch0 ∨ c = .ch1 → exec (.chWriteAbort c) s = .next (recordFault (chanUnit c) 0x3 .channelOwned s))
    ∧ (s.encOpen = true → exec (.chWriteAbort .ch2) s = .next (recordFault 0x2 0x3 .channelOwned s))
    ∧ (s.encOpen = false → s.ch2.writing = false →
        exec (.chWriteAbort .ch2) s = .next (recordFault 0x2 0x3 .noOpenChunk s))
    ∧ (s.encOpen = false → s.ch2.writing = true →
        exec (.chWriteAbort .ch2) s
          = .next { s with
              ch2 := { s.ch2 with
                wr := s.ch2.wstart, count := s.ch2.count - s.ch2.wbytes, writing := false, wbytes := 0
                wlost := false } })

/-- 40_channel.md R162, R167, R168: the channel queries answer in `RESULT` and change nothing else, on every channel. -/
def Obligations.ChannelQueriesAnswer : Prop :=
  ∀ (s : State) (c : Chan),
    (∀ (imm : Byte) (data : Word),
      decode (chanUnit c ++ 0x4#4 ++ imm) data = .ok (.chHasContent c)
      ∧ decode (chanUnit c ++ 0x9#4 ++ imm) data = .ok (.chAvail c)
      ∧ decode (chanUnit c ++ 0xA#4 ++ imm) data = .ok (.chIsWriting c))
    ∧ exec (.chHasContent c) s = .next { s with result := if 0 < (s.chan c).nchunks then 1 else 0 }
    ∧ exec (.chAvail c) s = .next { s with result := BitVec.ofNat 32 (s.capacity c - (s.chan c).count) }
    ∧ exec (.chIsWriting c) s = .next { s with result := if (s.chan c).writing = true then 1 else 0 }

/-- 40_channel.md R163: `CH_READ_START` in every case. -/
def Obligations.ChReadStartOpensOldest : Prop :=
  ∀ (s : State) (c : Chan),
    (∀ (imm : Byte) (data : Word), decode (chanUnit c ++ 0x5#4 ++ imm) data = .ok (.chReadStart c))
    ∧ ((s.chan c).ropen = true → exec (.chReadStart c) s = .next (recordFault (chanUnit c) 0x5 .readAlreadyOpen s))
    ∧ ((s.chan c).ropen = false → (s.chan c).nchunks = 0 →
        exec (.chReadStart c) s = .next (recordFault (chanUnit c) 0x5 .readEmpty s))
    ∧ ((s.chan c).ropen = false → (s.chan c).nchunks ≠ 0 →
        exec (.chReadStart c) s
          = .next { s.setChan c { s.chan c with
                      ropen := true, rpos := 0
                      rlen := ((s.chan c).buf.read ((s.chan c).rd % s.capacity c)).toNat } with
              result := ((s.chan c).buf.read ((s.chan c).rd % s.capacity c)).setWidth 32 })

/-- 40_channel.md R164: `CH_READ` in every case. -/
def Obligations.ChReadReturnsNextByte : Prop :=
  ∀ (s : State) (c : Chan),
    (∀ (imm : Byte) (data : Word), decode (chanUnit c ++ 0x6#4 ++ imm) data = .ok (.chRead c))
    ∧ ((s.chan c).ropen = false → exec (.chRead c) s = .next (recordFault (chanUnit c) 0x6 .readNotOpen s))
    ∧ ((s.chan c).ropen = true → (s.chan c).rpos = (s.chan c).rlen →
        exec (.chRead c) s = .next (recordFault (chanUnit c) 0x6 .readPastEnd s))
    ∧ ((s.chan c).ropen = true → (s.chan c).rpos ≠ (s.chan c).rlen →
        exec (.chRead c) s
          = .next { s.setChan c { s.chan c with rpos := (s.chan c).rpos + 1 } with
              result :=
                ((s.chan c).buf.read (((s.chan c).rd + (1 + (s.chan c).rpos)) % s.capacity c)).setWidth 32 })

/-- 40_channel.md R165: `CH_PEEK` in every case. -/
def Obligations.ChPeekReturnsContentByte : Prop :=
  ∀ (s : State) (c : Chan) (k : Byte),
    (∀ data : Word, decode (chanUnit c ++ 0x7#4 ++ k) data = .ok (.chPeek c k))
    ∧ ((s.chan c).ropen = false → exec (.chPeek c k) s = .next (recordFault (chanUnit c) 0x7 .readNotOpen s))
    ∧ ((s.chan c).ropen = true → (s.chan c).rlen ≤ k.toNat →
        exec (.chPeek c k) s = .next (recordFault (chanUnit c) 0x7 .readPastEnd s))
    ∧ ((s.chan c).ropen = true → k.toNat < (s.chan c).rlen →
        exec (.chPeek c k) s
          = .next { s with
              result := ((s.chan c).buf.read (((s.chan c).rd + (1 + k.toNat)) % s.capacity c)).setWidth 32 })

/-- 40_channel.md R166: `CH_READ_END` in every case; a decode open on the channel is closed. -/
def Obligations.ChReadEndReleases : Prop :=
  ∀ (s : State) (c : Chan),
    (∀ (imm : Byte) (data : Word), decode (chanUnit c ++ 0x8#4 ++ imm) data = .ok (.chReadEnd c))
    ∧ ((s.chan c).ropen = false → exec (.chReadEnd c) s = .next (recordFault (chanUnit c) 0x8 .readNotOpen s))
    ∧ ((s.chan c).ropen = true →
        exec (.chReadEnd c) s
          = .next { s.setChan c { s.chan c with
                      rd := ((s.chan c).rd + ((s.chan c).rlen + 1)) % s.capacity c
                      count := (s.chan c).count - ((s.chan c).rlen + 1), nchunks := (s.chan c).nchunks - 1
                      ropen := false, rlen := 0, rpos := 0 } with
              decOpen := if s.decCh = c then false else s.decOpen })

/-- 40_channel.md R169, R157: a chunk that is aborted leaves the free space, the cursors and every committed chunk as
they were before its start, whatever was written into it. -/
def Obligations.AbortedChunkLeavesNoTrace : Prop :=
  ∀ (n : Nat) (ch : Channel) (bs : List Byte), ch.Inv n → ch.writing = false →
    (chunkAbort (chunkPutAll n bs (chunkStart n ch))).count = ch.count
    ∧ (chunkAbort (chunkPutAll n bs (chunkStart n ch))).wr = ch.wr
    ∧ committed n (chunkAbort (chunkPutAll n bs (chunkStart n ch))) = committed n ch

/-- 40_channel.md R152, R153, R156; 20_memory.md R80: a chunk that fits is committed with exactly the bytes written, in
order, after the chunks committed before it; one that does not fit is dropped whole. -/
def Obligations.ChunkCommitsWholeOrNotAtAll : Prop :=
  ∀ (n : Nat) (ch : Channel) (bs : List Byte), n ≤ 256 → ch.Inv n → ch.writing = false →
    (ch.count + bs.length + 1 ≤ n →
      chunkEndCommits (chunkPutAll n bs (chunkStart n ch)) = true
        ∧ committed n (chunkEnd n (chunkPutAll n bs (chunkStart n ch))) = committed n ch ++ [bs])
    ∧ (n < ch.count + bs.length + 1 →
        chunkEndCommits (chunkPutAll n bs (chunkStart n ch)) = false
          ∧ committed n (chunkEnd n (chunkPutAll n bs (chunkStart n ch))) = committed n ch
          ∧ (chunkEnd n (chunkPutAll n bs (chunkStart n ch))).count = ch.count)

/-- 40_channel.md R170; 20_memory.md R88, R89; 70_reset_and_hazards.md R458; 10_state.md R40: to a reader every channel
is a queue of whole chunks. A command appends at most one chunk, only the channel's own writer does, and only
`CH_READ_END` on that channel removes one, the oldest. -/
def Obligations.ChannelsAreQueuesOfChunks : Prop :=
  ∀ (i : Instr) (s t : State) (c : Chan), s.Inv → exec i s = .next t →
    t.committed c = s.committed c
    ∨ (t.committed c = (s.committed c).tail ∧ i = .chReadEnd c)
    ∨ (∃ chunk, t.committed c = s.committed c ++ [chunk]
        ∧ ((c = .ch0 ∧ ∃ b, i = .rxByte b) ∨ (c = .ch1 ∧ ∃ h d, i = .pulse h d)
            ∨ (c = .ch2 ∧ (i = .chWriteEnd .ch2 ∨ i = .encEnd))))

/-- 20_memory.md R80, R89; 40_channel.md R163, R164, R165: the reader gets the oldest committed chunk: its length, and
its bytes in the order written. -/
def Obligations.ReaderGetsOldestChunkInOrder : Prop :=
  ∀ (s : State) (c : Chan) (chunk : List Byte) (rest : List (List Byte)), s.Inv → s.committed c = chunk :: rest →
    ((s.chan c).ropen = false →
      ∃ t, exec (.chReadStart c) s = .next t ∧ t.result = BitVec.ofNat 32 chunk.length ∧ (t.chan c).rpos = 0)
    ∧ ((s.chan c).ropen = true →
        (∀ b, chunk[(s.chan c).rpos]? = some b →
          ∃ t, exec (.chRead c) s = .next t ∧ t.result = b.setWidth 32 ∧ (t.chan c).rpos = (s.chan c).rpos + 1)
        ∧ (∀ (k b : Byte), chunk[k.toNat]? = some b →
            ∃ t, exec (.chPeek c k) s = .next t ∧ t.result = b.setWidth 32))

/-- 10_state.md R39, R48; 70_reset_and_hazards.md R440; 93_implementation_defined.md U9, U10: no command can observe a
storage byte that is not a stored byte of a channel. Two states that differ only there stay so under every command, and
give the same `RESULT`. -/
def Obligations.UnstoredBytesAreNeverObserved : Prop :=
  ∀ (i : Instr) (s s' : State), s.Inv → s'.Inv → sameVisible s s' →
    ∃ t t', exec i s = .next t ∧ exec i s' = .next t' ∧ t.result = t'.result ∧ sameVisible t t'

/-! ### The CRC receiver -/

/-- 30_encoding.md R101, 41_crc_receiver.md R211: whatever the polynomial, folding a CRC's own low and high byte into it
gives 0; with bit 15 of the polynomial set, flipping bit 0 of the low byte gives another value (log entry 11). -/
def Obligations.AppendedCrcFoldsToZero : Prop :=
  (∀ poly crc : Half, crcFold poly crc [crcLow crc, crcHigh crc] = 0)
    ∧ (∀ poly crc : Half, poly.getLsbD 15 = true → crcFold poly crc [crcLow crc ^^^ 1, crcHigh crc] ≠ 0)

/-- 41_crc_receiver.md R204, R206: `RX_START` in every state, and `RX_IS_WRITING`. -/
def Obligations.RxStartBeginsFrame : Prop :=
  ∀ (s : State) (h : Byte),
    (∀ data : Word, decode (0x3#4 ++ 0x0#4 ++ h) data = .ok (.rxStart h))
    ∧ (∀ (imm : Byte) (data : Word), decode (0x3#4 ++ 0x2#4 ++ imm) data = .ok .rxIsWriting)
    ∧ exec (.rxStart h) s
      = .next { s with
          ch0 := chunkPut s.cfg.n0 h (chunkStart s.cfg.n0 (if s.rxState = .idle then s.ch0 else chunkAbort s.ch0))
          rxCrc := crc16Upd s.cfg.crcPoly (crc16Upd s.cfg.crcPoly s.cfg.crcInit s.cfg.groupId) h
          rxRem := 0
          rxState := .length }
    ∧ exec .rxIsWriting s = .next { s with result := if s.rxState = .idle then 0 else 1 }

/-- 41_crc_receiver.md R205, with R201, R202, R203, R207, R208: `RX_BYTE` in every state of the receiver. -/
def Obligations.RxByteAdvancesFrame : Prop :=
  ∀ (s : State) (b : Byte),
    (∀ data : Word, decode (0x3#4 ++ 0x1#4 ++ b) data = .ok (.rxByte b))
    ∧ (s.rxState = .idle → exec (.rxByte b) s = .next s)
    ∧ (s.rxState = .length →
        exec (.rxByte b) s
          = .next { s with
              rxCrc := crc16Upd s.cfg.crcPoly s.rxCrc b, rxRem := min b.toNat s.cfg.maxLen + 2, rxState := .data })
    ∧ (s.rxState = .data → 2 < s.rxRem →
        exec (.rxByte b) s
          = .next { s with
              ch0 := chunkPut s.cfg.n0 b s.ch0
              rxCrc := crc16Upd s.cfg.crcPoly s.rxCrc b
              rxRem := s.rxRem - 1 })
    ∧ (s.rxState = .data → s.rxRem = 2 →
        exec (.rxByte b) s = .next { s with rxCrc := crc16Upd s.cfg.crcPoly s.rxCrc b, rxRem := 1 })
    ∧ (s.rxState = .data → s.rxRem = 1 →
        (s.ctrl.getLsbD 0 = false ∨ crc16Upd s.cfg.crcPoly s.rxCrc b = s.cfg.crcResidue) →
        exec (.rxByte b) s
          = .next { s with
              ch0 := chunkEnd s.cfg.n0 s.ch0
              rxCrc := crc16Upd s.cfg.crcPoly s.rxCrc b
              rxRem := 0
              rxState := .idle })
    ∧ (s.rxState = .data → s.rxRem = 1 → s.ctrl.getLsbD 0 = true →
        crc16Upd s.cfg.crcPoly s.rxCrc b ≠ s.cfg.crcResidue →
        exec (.rxByte b) s
          = .next { s with
              ch0 := chunkAbort s.ch0
              rxCrc := crc16Upd s.cfg.crcPoly s.rxCrc b
              rxRem := 0
              rxState := .idle })

/-- 41_crc_receiver.md R211 (R200, R209; 30_encoding.md R100): with CRC checking enabled and the frame fitting in CH0, a
correct frame commits exactly one chunk, the first byte and the payload; the same frame with bit 0 of its low CRC byte
flipped commits none. The premises on the residue and the polynomial are log entry 11's. -/
def Obligations.CorrectFrameCommitsOneChunk : Prop :=
  ∀ (s : State) (h : Byte) (p : List Byte), s.Inv → s.ctrl.getLsbD 0 = true → s.cfg.crcResidue = 0 →
    p.length ≤ s.cfg.maxLen →
    (if s.rxState = .idle then s.ch0 else chunkAbort s.ch0).count + p.length + 2 ≤ s.cfg.n0 →
    (∃ t, execAll (rxFrame h p (crcLow (frameCrc s.cfg h p)) (crcHigh (frameCrc s.cfg h p))) s = .next t
      ∧ t.committed .ch0 = s.committed .ch0 ++ [h :: p] ∧ t.rxState = .idle)
    ∧ (s.cfg.crcPoly.getLsbD 15 = true →
        ∃ t, execAll (rxFrame h p (crcLow (frameCrc s.cfg h p) ^^^ 1) (crcHigh (frameCrc s.cfg h p))) s = .next t
          ∧ t.committed .ch0 = s.committed .ch0 ∧ t.rxState = .idle
          ∧ t.ch0.count = (if s.rxState = .idle then s.ch0 else chunkAbort s.ch0).count)

/-! ### The pulse decoder -/

/-- 42_pulse_decoder.md R231, R232, R234, R235, R236, R240: a sync error, and `PULSE` where no bit is completed: the empty event, a pulse in
neither window, a high pulse, a low pulse without a partner or of another class. -/
def Obligations.PulsesThatCompleteNoBit : Prop :=
  ∀ (s : State) (h : Bool) (d : Half), s.cfg.wf = true →
    (pdResync s
      = { s with
          ch1 :=
            if s.pdPhase = .data then
              { s.ch1 with
                wr := s.ch1.wstart, count := s.ch1.count - s.ch1.wbytes, writing := false, wbytes := 0, wlost := false }
            else s.ch1
          pdPhase := .hunt, pdZeros := 0, pdPend := none, pdBits := 0, pdShift := 0, pdCount := 0, pdExpect := 5 })
    ∧ (d = 0 ∨ (¬inWindow s.cfg d .short ∧ ¬inWindow s.cfg d .long) → exec (.pulse h d) s = .next (pdResync s))
    ∧ (∀ k, inWindow s.cfg d k → s.pdPend = none → exec (.pulse true d) s = .next { s with pdPend := some k })
    ∧ (∀ k, inWindow s.cfg d k → s.pdPend ≠ none →
        exec (.pulse true d) s = .next { pdResync s with pdPend := some k })
    ∧ (∀ k, inWindow s.cfg d k → s.pdPend = none → s.pdPhase = .hunt → exec (.pulse false d) s = .next s)
    ∧ (∀ k, inWindow s.cfg d k → s.pdPend = none → s.pdPhase = .data →
        exec (.pulse false d) s = .next (pdResync s))
    ∧ (∀ k k', inWindow s.cfg d k → s.pdPend = some k' → k' ≠ k → exec (.pulse false d) s = .next (pdResync s))

/-- 42_pulse_decoder.md R234, R237, R241, R242: a completed bit in `HUNT`, and one in `DATA` that does not complete a
byte: it is shifted in, first bit most significant. -/
def Obligations.BitsFindTheStartAndFillTheByte : Prop :=
  ∀ (s : State) (d : Half) (k : PulseClass), s.cfg.wf = true → inWindow s.cfg d k → s.pdPend = some k →
    (s.pdPhase = .hunt → k = .short →
      exec (.pulse false d) s
        = .next { s with pdPend := none, pdZeros := BitVec.ofNat 8 (min (s.pdZeros.toNat + 1) 255) })
    ∧ (s.pdPhase = .hunt → k = .long → s.cfg.syncMinZeros ≤ s.pdZeros.toNat →
        exec (.pulse false d) s
          = .next { s with
              pdPend := none, pdPhase := .data, pdBits := 0, pdShift := 0, pdCount := 0, pdExpect := 5
              ch1 := chunkStart s.cfg.n1 s.ch1 })
    ∧ (s.pdPhase = .hunt → k = .long → s.pdZeros.toNat < s.cfg.syncMinZeros →
        exec (.pulse false d) s = .next { s with pdPend := none, pdZeros := 0 })
    ∧ (s.pdPhase = .data → s.pdBits ≠ 8 →
        exec (.pulse false d) s
          = .next { s with
              pdPend := none
              pdBits := s.pdBits + 1
              pdShift := (s.pdShift <<< 1) ||| (if k = .long then 1 else 0) })

/-- 42_pulse_decoder.md R243, R245, R246, R250, R255, R256, R257: the ninth bit of a byte: `v` are the eight bits
shifted in before it and the ninth is the parity bit. Parity counts the 1 bits, and the checksum is
`(CHK_BASE + sum of the bytes) mod 256`. -/
def Obligations.NinthBitCompletesByte : Prop :=
  (∀ v : Byte, popcount v = (List.range 8).countP (fun i => v.getLsbD i))
  ∧ (∀ (cfg : Config) (bytes : List Byte),
      (packetCheck cfg bytes).toNat = (cfg.chkBase.toNat + (bytes.map BitVec.toNat).sum) % 256)
  ∧ ∀ (s : State) (d : Half) (k : PulseClass) (v : Byte) (expect : Nat),
    s.cfg.wf = true → s.pdPhase = .data → inWindow s.cfg d k → s.pdPend = some k → s.pdBits = 8 →
    v = s.pdShift.extractLsb' 0 8 →
    expect = (if s.pdCount + 1 = 4 then (if s.cfg.hasExt.getLsbD v.toNat then 6 else 5) else s.pdExpect) →
    ((popcount v + (if k = .long then 1 else 0)) % 2 = 1 → exec (.pulse false d) s = .next (pdResync s))
    ∧ ((popcount v + (if k = .long then 1 else 0)) % 2 = 0 → s.pdCount + 1 ≠ expect →
        exec (.pulse false d) s
          = .next { s with
              pdPend := none, pdBits := 0, pdShift := 0, pdCount := s.pdCount + 1, pdExpect := expect
              pdBytes := s.pdBytes.setIfInBounds s.pdCount v
              ch1 := chunkPut s.cfg.n1 v s.ch1 })
    ∧ ((popcount v + (if k = .long then 1 else 0)) % 2 = 0 → s.pdCount + 1 = expect →
        exec (.pulse false d) s
          = .next { s with
              pdPhase := .hunt, pdZeros := 0, pdPend := none, pdBits := 0, pdShift := 0, pdCount := 0, pdExpect := 5
              pdBytes := s.pdBytes.setIfInBounds s.pdCount v
              ch1 :=
                if v = packetCheck s.cfg (s.pdBytes.toList.take s.pdCount) then
                  chunkEnd s.cfg.n1 (chunkPut s.cfg.n1 v s.ch1)
                else chunkAbort (chunkPut s.cfg.n1 v s.ch1) })

/-- 42_pulse_decoder.md R260: the fields of the word `PD_STATUS` answers; nothing else changes. -/
def Obligations.PdStatusReportsDecoder : Prop :=
  (∀ (imm : Byte) (data : Word), decode (0x4#4 ++ 0x1#4 ++ imm) data = .ok .pdStatus)
  ∧ ∀ s : State, ∃ r : Word, exec .pdStatus s = .next { s with result := r }
    ∧ r.getLsbD 0 = decide (s.pdPhase = .data)
    ∧ r.extractLsb' 1 2 = (match s.pdPend with
        | none => 0
        | some .short => 1
        | some .long => 2)
    ∧ r.getLsbD 3 = false ∧ r.extractLsb' 4 4 = BitVec.ofNat 4 s.pdBits ∧ r.extractLsb' 8 8 = BitVec.ofNat 8 s.pdCount
    ∧ r.extractLsb' 16 8 = s.pdZeros ∧ r.extractLsb' 24 8 = 0

/-- 42_pulse_decoder.md R258: from any state, an empty event, then at least `SYNC_MIN_ZEROS` zero bits and a 1 bit, each
a valid pulse pair, bring the decoder to `DATA` with a freshly opened chunk on CH1. -/
def Obligations.EmptyEventAndPreambleResync : Prop :=
  ∀ (s : State) (zeros : List (Half × Half)) (a b : Half), s.cfg.wf = true →
    (∀ p ∈ zeros, inWindow s.cfg p.1 .short ∧ inWindow s.cfg p.2 .short) →
    inWindow s.cfg a .long → inWindow s.cfg b .long → s.cfg.syncMinZeros ≤ zeros.length →
    ∃ t, execAll (pulseEmpty ++ pairPulses (zeros ++ [(a, b)])) s = .next t
      ∧ t.pdPhase = .data ∧ t.pdPend = none ∧ t.pdBits = 0 ∧ t.pdCount = 0
      ∧ t.ch1 = chunkStart s.cfg.n1 (pdResync s).ch1

/-- 42_pulse_decoder.md R256, R261 (30_encoding.md R105, R106): the pulse train of a packet, of five or six bytes,
commits one CH1 chunk holding all its bytes; with a wrong checksum of right parity it commits none. -/
def Obligations.PacketTrainCommitsOneChunk : Prop :=
  ∀ (s : State) (dShort dLong : Half) (zeros : Nat) (hcHi hcLo addr cmd ext : Byte), s.Inv → s.pdPhase = .hunt →
    inWindow s.cfg dShort .short → inWindow s.cfg dLong .long → s.cfg.syncMinZeros ≤ zeros →
    s.ch1.count + (fs20Packet s.cfg hcHi hcLo addr cmd ext).length + 1 ≤ s.cfg.n1 →
    (∃ t, execAll (pulseTrain dShort dLong (trainBits zeros (fs20Packet s.cfg hcHi hcLo addr cmd ext))) s = .next t
      ∧ t.committed .ch1 = s.committed .ch1 ++ [fs20Packet s.cfg hcHi hcLo addr cmd ext] ∧ t.pdPhase = .hunt)
    ∧ (∀ bad, bad ≠ packetCheck s.cfg (fs20Body s.cfg hcHi hcLo addr cmd ext) →
        ∃ t, execAll (pulseTrain dShort dLong (trainBits zeros (fs20Body s.cfg hcHi hcLo addr cmd ext ++ [bad]))) s
            = .next t
          ∧ t.committed .ch1 = s.committed .ch1 ∧ t.pdPhase = .hunt)

/-! ### Wire-codec bytes -/

/-- 30_encoding.md R123: the bytes of a fixed-width field, least significant first, and the value read back from bytes. -/
def Obligations.FixedFieldBytes : Prop :=
  (∀ v : Word,
    fixedBytes 1 v = [v.extractLsb' 0 8]
    ∧ fixedBytes 2 v = [v.extractLsb' 0 8, v.extractLsb' 8 8]
    ∧ fixedBytes 4 v = [v.extractLsb' 0 8, v.extractLsb' 8 8, v.extractLsb' 16 8, v.extractLsb' 24 8])
  ∧ (∀ b0 b1 b2 b3 : Byte,
      (fixedValue [b0]).toNat = b0.toNat
      ∧ (fixedValue [b0, b1]).toNat = b0.toNat + b1.toNat * 2 ^ 8
      ∧ (fixedValue [b0, b1, b2, b3]).toNat
          = b0.toNat + b1.toNat * 2 ^ 8 + b2.toNat * 2 ^ 16 + b3.toNat * 2 ^ 24)

/-- 30_encoding.md R120: `varint(v)` is 1 to 5 bytes long by the size of `v`, every byte but the last has bit 7 set and
the last has not, and the 7-bit groups, least significant first, make up `v`. -/
def Obligations.VarintGroupsMakeTheValue : Prop :=
  ∀ v : Word,
    (varint v).length
      = (if v.toNat < 0x80 then 1 else if v.toNat < 0x4000 then 2 else if v.toNat < 0x200000 then 3
          else if v.toNat < 0x10000000 then 4 else 5)
    ∧ (∀ b ∈ (varint v).dropLast, b.getLsbD 7 = true)
    ∧ (∀ b ∈ (varint v).getLast?, b.getLsbD 7 = false)
    ∧ (varint v).foldr (fun b acc => b.toNat % 0x80 + 0x80 * acc) 0 = v.toNat

/-- 30_encoding.md R120, R121: decoding a varint gives the value back and takes exactly its bytes, whatever follows; one
that ends early, takes more than five bytes or more than 32 bits fails; every other run of bytes with bit 7 set and a
last one without, minimal or not, gives the sum of its 7-bit groups and the number of its bytes. -/
def Obligations.VarintDecodesOrFails : Prop :=
  (∀ (v : Word) (rest : List Byte), unvarint (varint v ++ rest) = some (v, (varint v).length))
    ∧ (∀ bs : List Byte, (∀ b ∈ bs, b.getLsbD 7 = true) → unvarint bs = none)
    ∧ (∀ b0 b1 b2 b3 b4 : Byte, ∀ rest : List Byte, b0.getLsbD 7 = true → b1.getLsbD 7 = true → b2.getLsbD 7 = true →
        b3.getLsbD 7 = true → 0x0F < b4.toNat → unvarint (b0 :: b1 :: b2 :: b3 :: b4 :: rest) = none)
    ∧ (∀ (run : List Byte) (last : Byte) (rest : List Byte), run.length ≤ 4 → (∀ b ∈ run, b.getLsbD 7 = true) →
        last.getLsbD 7 = false → (run.length = 4 → last.toNat ≤ 0x0F) →
        ∃ v : Word, unvarint (run ++ last :: rest) = some (v, run.length + 1)
          ∧ v.toNat = (run ++ [last]).foldr (fun b acc => b.toNat % 0x80 + 0x80 * acc) 0)
    ∧ (∀ rest : List Byte, unvarint (0x80 :: 0x00 :: rest) = some (0, 2))

/-- 30_encoding.md R122: the key of a tag is `varint((tag << 3) | wt)`: one byte for tags 1 to 15, two from 16 on. -/
def Obligations.KeysOfTags : Prop :=
  wireVarint = 0 ∧ wireFixed32 = 5 ∧ ∀ (tag : Byte) (wt : BitVec 3), tag ≠ 0 →
    fieldKey tag wt = varint (BitVec.ofNat 32 (8 * tag.toNat + wt.toNat))
      ∧ (fieldKey tag wt).length = (if tag.toNat ≤ 15 then 1 else 2)

/-! ### The wire encoder -/

/-- 43_wire_encoder.md R282: `ENC_BEGIN` in every case. -/
def Obligations.EncBeginOpensMessage : Prop :=
  ∀ s : State,
    (∀ (imm : Byte) (data : Word), decode (0x5#4 ++ 0x0#4 ++ imm) data = .ok .encBegin)
    ∧ (s.encOpen = true → exec .encBegin s = .next (recordFault 0x5 0x0 .encAlreadyOpen s))
    ∧ (s.encOpen = false → s.ch2.writing = true → exec .encBegin s = .next (recordFault 0x5 0x0 .nestedWriteStart s))
    ∧ (s.encOpen = false → s.ch2.writing = false → s.ch2.count < s.cfg.n2 → s.ch2.wr < s.cfg.n2 →
        ∃ buf, s.ch2.buf.storedAt s.ch2.wr 0x00 buf
          ∧ exec .encBegin s
            = .next { s with
                encOpen := true, encValid := true
                ch2 := { s.ch2 with
                  buf := buf, wr := (s.ch2.wr + 1) % s.cfg.n2, count := s.ch2.count + 1, writing := true
                  wstart := s.ch2.wr, wbytes := 1, wlost := false } })
    ∧ (s.encOpen = false → s.ch2.writing = false → ¬s.ch2.count < s.cfg.n2 →
        exec .encBegin s
          = .next { s with
              encOpen := true, encValid := false
              ch2 := { s.ch2 with writing := true, wstart := s.ch2.wr, wbytes := 0, wlost := true } })

/-- 43_wire_encoder.md R283 to R286: the four field commands in every case: illegal operands, no message open, and
otherwise the field's bytes appended one by one; `encValid` says whether all bytes so far fitted (R281). -/
def Obligations.EncFieldsAppendBytes : Prop :=
  ∀ (s : State) (w tag : Byte) (v : Word),
    (decode (0x5#4 ++ 0x1#4 ++ w) v = .ok (.encFixed w v)
      ∧ (∀ imm : Byte, decode (0x5#4 ++ 0x2#4 ++ imm) v = .ok (.encVarint v))
      ∧ decode (0x5#4 ++ 0x3#4 ++ tag) v = .ok (.encTvarint tag v)
      ∧ decode (0x5#4 ++ 0x4#4 ++ tag) v = .ok (.encTfixed32 tag v))
    ∧ (w ≠ 1 → w ≠ 2 → w ≠ 4 → exec (.encFixed w v) s = .next (recordFault 0x5 0x1 .badOperand s))
    ∧ exec (.encTvarint 0 v) s = .next (recordFault 0x5 0x3 .badOperand s)
    ∧ exec (.encTfixed32 0 v) s = .next (recordFault 0x5 0x4 .badOperand s)
    ∧ (s.encOpen = false → w = 1 ∨ w = 2 ∨ w = 4 →
        exec (.encFixed w v) s = .next (recordFault 0x5 0x1 .encNotOpen s))
    ∧ (s.encOpen = false → exec (.encVarint v) s = .next (recordFault 0x5 0x2 .encNotOpen s))
    ∧ (s.encOpen = false → tag ≠ 0 →
        exec (.encTvarint tag v) s = .next (recordFault 0x5 0x3 .encNotOpen s)
        ∧ exec (.encTfixed32 tag v) s = .next (recordFault 0x5 0x4 .encNotOpen s))
    ∧ (s.encOpen = true →
        (∀ n : Nat, n = 1 ∨ n = 2 ∨ n = 4 →
          exec (.encFixed (BitVec.ofNat 8 n) v) s
            = .next { s with
                ch2 := chunkPutAll s.cfg.n2 (fixedBytes n v) s.ch2
                encValid := !(chunkPutAll s.cfg.n2 (fixedBytes n v) s.ch2).wlost })
        ∧ exec (.encVarint v) s
            = .next { s with
                ch2 := chunkPutAll s.cfg.n2 (varint v) s.ch2
                encValid := !(chunkPutAll s.cfg.n2 (varint v) s.ch2).wlost }
        ∧ (tag ≠ 0 →
            exec (.encTvarint tag v) s
              = .next { s with
                  ch2 := chunkPutAll s.cfg.n2 (fieldKey tag 0 ++ varint v) s.ch2
                  encValid := !(chunkPutAll s.cfg.n2 (fieldKey tag 0 ++ varint v) s.ch2).wlost }
            ∧ exec (.encTfixed32 tag v) s
              = .next { s with
                  ch2 := chunkPutAll s.cfg.n2 (fieldKey tag 5 ++ fixedBytes 4 v) s.ch2
                  encValid := !(chunkPutAll s.cfg.n2 (fieldKey tag 5 ++ fixedBytes 4 v) s.ch2).wlost }))

/-- 43_wire_encoder.md R287, R288: `ENC_END` in every case, and `ENC_STATUS`. -/
def Obligations.EncEndClosesMessage : Prop :=
  ∀ s : State,
    (∀ (imm : Byte) (data : Word),
      decode (0x5#4 ++ 0x5#4 ++ imm) data = .ok .encEnd ∧ decode (0x5#4 ++ 0x6#4 ++ imm) data = .ok .encStatus)
    ∧ (s.encOpen = false → exec .encEnd s = .next (recordFault 0x5 0x5 .encNotOpen s))
    ∧ (s.encOpen = true → s.encValid = true →
        exec .encEnd s
          = .next { s with
              result := 1, encOpen := false, encValid := false, ch2 := chunkEnd s.cfg.n2 s.ch2 })
    ∧ (s.encOpen = true → s.encValid = false →
        exec .encEnd s
          = .next { s with result := 0, encOpen := false, encValid := false, ch2 := chunkAbort s.ch2 })
    ∧ exec .encStatus s = .next { s with result := if s.encValid then 1 else 0 }

/-- 43_wire_encoder.md R289, R281; 60_exceptions.md R407: a message of well-formed fields is committed whole, as one
chunk, when it fits, with `ENC_END` answering 1; otherwise `ENC_END` answers 0 and CH2 is as before `ENC_BEGIN`, with its
committed chunks and `CH_AVAIL`'s answer. Only storage that holds no stored byte, and `wstart`, which means something
while a chunk is open (10_state.md R37), may differ after a failure. Nothing outside CH2 changes but `RESULT`. -/
def Obligations.MessageCommitsWholeOrNotAtAll : Prop :=
  ∀ (s : State) (fields : List Instr) (bytes : List (List Byte)), s.Inv → s.encOpen = false → s.ch2.writing = false →
    fields.map fieldBytes = bytes.map some →
    ∃ t, execAll ([.encBegin] ++ fields ++ [.encEnd]) s = .next t
      ∧ t = { s with result := t.result, ch2 := t.ch2 }
      ∧ (s.ch2.count + bytes.flatten.length + 1 ≤ s.cfg.n2 →
          t.result = 1 ∧ t.committed .ch2 = s.committed .ch2 ++ [bytes.flatten]
            ∧ t.ch2
              = { s.ch2 with
                  buf := t.ch2.buf, wstart := t.ch2.wstart, wr := t.ch2.wr
                  count := s.ch2.count + bytes.flatten.length + 1, nchunks := s.ch2.nchunks + 1 })
      ∧ (s.cfg.n2 < s.ch2.count + bytes.flatten.length + 1 →
          t.result = 0 ∧ t.committed .ch2 = s.committed .ch2
            ∧ t.ch2 = { s.ch2 with buf := t.ch2.buf, wstart := t.ch2.wstart }
            ∧ (∀ k, k < s.ch2.count → rbPeek s.cfg.n2 k t.ch2 = rbPeek s.cfg.n2 k s.ch2)
            ∧ exec (.chAvail .ch2) t = .next { t with result := BitVec.ofNat 32 (s.cfg.n2 - s.ch2.count) }
            ∧ exec (.chAvail .ch2) s = .next { s with result := BitVec.ofNat 32 (s.cfg.n2 - s.ch2.count) })

/-! ### The wire decoder -/

/-- 44_wire_decoder.md R312: `DEC_BEGIN` in every case. -/
def Obligations.DecBeginStartsDecode : Prop :=
  ∀ (s : State) (c : Chan),
    (∀ (high : BitVec 6) (ch : BitVec 2) (data : Word),
      decode (0x6#4 ++ 0x0#4 ++ (high ++ ch : Byte)) data = .ok (.decBegin ch))
    ∧ exec (.decBegin 3) s = .next (recordFault 0x6 0x0 .badOperand s)
    ∧ ((s.chan c).ropen = false → exec (.decBegin (chanOperand c)) s = .next (recordFault 0x6 0x0 .decNoSource s))
    ∧ ((s.chan c).ropen = true →
        exec (.decBegin (chanOperand c)) s
          = .next { s with decOpen := true, decCh := c, decPos := 0, decOk := true })

/-- 44_wire_decoder.md R313 (R310, R311): `DEC_FIXED` in every case. -/
def Obligations.DecFixedReadsField : Prop :=
  ∀ (s : State) (w : Byte),
    (∀ data : Word, decode (0x6#4 ++ 0x1#4 ++ w) data = .ok (.decFixed w))
    ∧ (w ≠ 1 → w ≠ 2 → w ≠ 4 → exec (.decFixed w) s = .next (recordFault 0x6 0x1 .badOperand s))
    ∧ (w = 1 ∨ w = 2 ∨ w = 4 → s.decOpen = false →
        exec (.decFixed w) s = .next (recordFault 0x6 0x1 .decNotOpen s))
    ∧ (w = 1 ∨ w = 2 ∨ w = 4 → s.decOpen = true →
        s.decOk = false ∨ (s.chan s.decCh).rlen < s.decPos + w.toNat →
        exec (.decFixed w) s = .next { s with decOk := false, result := 0 })
    ∧ (w = 1 ∨ w = 2 ∨ w = 4 → s.decOpen = true → s.decOk = true → s.decPos + w.toNat ≤ (s.chan s.decCh).rlen →
        exec (.decFixed w) s
          = .next { s with
              decPos := s.decPos + w.toNat
              result :=
                fixedValue ((List.range w.toNat).map (fun i =>
                  rbPeek (s.capacity s.decCh) (1 + (s.decPos + i)) (s.chan s.decCh))) })

/-- 44_wire_decoder.md R314 (R310, R311): `DEC_VARINT` in every case. -/
def Obligations.DecVarintReadsVarint : Prop :=
  ∀ (s : State) (bytes : List Byte),
    bytes = (List.range ((s.chan s.decCh).rlen - s.decPos)).map (fun i =>
      rbPeek (s.capacity s.decCh) (1 + (s.decPos + i)) (s.chan s.decCh)) →
    (∀ (imm : Byte) (data : Word), decode (0x6#4 ++ 0x2#4 ++ imm) data = .ok .decVarint)
    ∧ (s.decOpen = false → exec .decVarint s = .next (recordFault 0x6 0x2 .decNotOpen s))
    ∧ (s.decOpen = true → s.decOk = false → exec .decVarint s = .next { s with result := 0 })
    ∧ (s.decOpen = true → s.decOk = true → unvarint bytes = none →
        exec .decVarint s = .next { s with decOk := false, result := 0 })
    ∧ (∀ v n, s.decOpen = true → s.decOk = true → unvarint bytes = some (v, n) →
        exec .decVarint s = .next { s with decPos := s.decPos + n, result := v })

/-- 44_wire_decoder.md R315, R316: `DEC_REMAIN` and `DEC_STATUS` in every case. -/
def Obligations.DecoderQueriesAnswer : Prop :=
  ∀ s : State,
    (∀ (imm : Byte) (data : Word),
      decode (0x6#4 ++ 0x3#4 ++ imm) data = .ok .decRemain ∧ decode (0x6#4 ++ 0x4#4 ++ imm) data = .ok .decStatus)
    ∧ (s.decOpen = false → exec .decRemain s = .next (recordFault 0x6 0x3 .decNotOpen s))
    ∧ (s.decOpen = true →
        exec .decRemain s = .next { s with result := BitVec.ofNat 32 ((s.chan s.decCh).rlen - s.decPos) })
    ∧ exec .decStatus s = .next { s with result := if s.decOpen = true ∧ s.decOk = true then 1 else 0 }

/-- 44_wire_decoder.md R317, 20_memory.md R84: the same decoder commands after `DEC_BEGIN` on an open chunk give the same
replies, whatever other commands ran before them, provided no `CH_READ_END` on that channel did. -/
def Obligations.DecodingTwiceGivesSameReplies : Prop :=
  ∀ (s t s' t' : State) (c : Chan) (between decodes : List Instr), s.Inv → (s.chan c).ropen = true →
    (∀ i ∈ between, i ≠ .chReadEnd c) → execAll between s = .next t →
    (∀ i ∈ decodes, i = .decFixed 1 ∨ i = .decFixed 2 ∨ i = .decFixed 4 ∨ i = .decVarint ∨ i = .decRemain
      ∨ i = .decStatus) →
    exec (.decBegin (chanOperand c)) s = .next s' → exec (.decBegin (chanOperand c)) t = .next t' →
    replies decodes s' = replies decodes t'

/-! ### Control -/

/-- 46_control.md R380 to R383, 10_state.md R33: the control unit's commands. -/
def Obligations.ControlCommands : Prop :=
  ∀ (s : State) (v : Byte),
    (∀ (imm : Byte) (data : Word),
      decode (0xF#4 ++ 0x0#4 ++ imm) data = .ok .nop ∧ decode (0xF#4 ++ 0x1#4 ++ imm) data = .ok .ctrlRead
      ∧ decode (0xF#4 ++ 0x2#4 ++ v) data = .ok (.ctrlWrite v)
      ∧ decode (0xF#4 ++ 0x3#4 ++ imm) data = .ok .faultRead)
    ∧ exec .nop s = .next s
    ∧ exec .ctrlRead s = .next { s with result := s.ctrl.setWidth 32 }
    ∧ exec (.ctrlWrite v) s = .next { s with ctrl := if v.getLsbD 0 then 0x01 else 0x00 }
    ∧ exec .faultRead s = .next { s with result := s.fault }

/-! ### Message descriptors -/

/-- 45_descriptors.md R351: for a well-formed descriptor and a record in range whose absent fields hold 0, decoding the
encoded message gives the record back, presence flags included. -/
def Obligations.DescriptorRoundTrip : Prop :=
  ∀ (d : Descriptor) (r : Record), d.wf = true → r.fits d = true →
    (encodeMsg d r).bind (decodeMsg d) = some r

/-- 45_descriptors.md R345, R346: an encoded message is at most `MaxSize(d)` bytes long, and the commands with which a
host encodes it append exactly `EncodeMsg(d, rec)` to CH2 as one chunk, and `ENC_END` answers 1, when `MaxSize(d) + 1`
bytes are free. R348, R349, R350: the commands with which a host decodes the chunk open for reading on a channel give the
record `DecodeSeq` or `DecodeTagged` gives of its content, on CH0 after the `hdr` byte, and none where that fails; they
change nothing but `RESULT` and the decoder. The host's run on an ill-formed descriptor, and what it does after a failure,
are log entries 15 and 18. -/
def Obligations.EncodeCommandsCommitMessage : Prop :=
  (∀ (d : Descriptor) (r : Record) (bytes : List Byte) (commands : List Instr),
    encodeMsg d r = some bytes → encodeCommands d r = some commands →
    bytes.length ≤ d.maxSize
    ∧ ∀ s : State, s.Inv → s.encOpen = false → s.ch2.writing = false → s.ch2.count + d.maxSize + 1 ≤ s.cfg.n2 →
        ∃ t, execAll commands s = .next t ∧ t.result = 1 ∧ t.committed .ch2 = s.committed .ch2 ++ [bytes])
  ∧ ∀ (d : Descriptor) (s : State) (c : Chan), s.Inv → (s.chan c).ropen = true →
      (d.wf = true →
        ∃ t, hostDecode c d s
            = .next (t, (messageBytes c (s.contentBytes c 0 (s.chan c).rlen)).bind (decodeMsg d))
          ∧ t = { s with result := t.result, decOpen := true, decCh := c, decPos := t.decPos, decOk := t.decOk })
      ∧ (d.wf = false → hostDecode c d s = .next (s, none))
end

