-- ==== Sys2Proof/Laws/State.lean ====
section
/-! SUPPORT. One lemma per field per update of the state, so that no proof unfolds a record update. -/

namespace Sys2Proof.Machine

variable (s : State) (c : Chan) (ch : Channel) (f : Nat → Channel → Channel)

/-! ### Channels -/

@[simp] theorem State.chan_ch0 : s.chan .ch0 = s.ch0 := rfl
@[simp] theorem State.chan_ch1 : s.chan .ch1 = s.ch1 := rfl
@[simp] theorem State.chan_ch2 : s.chan .ch2 = s.ch2 := rfl

@[simp] theorem State.chan_setChan_self : (s.setChan c ch).chan c = ch := by cases c <;> rfl

theorem State.chan_setChan_ne (d : Chan) (h : d ≠ c) : (s.setChan c ch).chan d = s.chan d := by
  cases c <;> cases d <;> first | rfl | exact absurd rfl h

@[simp] theorem State.setChan_chan : s.setChan c (s.chan c) = s := by cases c <;> rfl

@[simp] theorem State.setChan_setChan (ch' : Channel) : (s.setChan c ch).setChan c ch' = s.setChan c ch' := by
  cases c <;> rfl

@[simp] theorem State.setChan_ch0_ch0 : (s.setChan .ch0 ch).ch0 = ch := rfl
@[simp] theorem State.setChan_ch0_ch1 : (s.setChan .ch0 ch).ch1 = s.ch1 := rfl
@[simp] theorem State.setChan_ch0_ch2 : (s.setChan .ch0 ch).ch2 = s.ch2 := rfl
@[simp] theorem State.setChan_ch1_ch0 : (s.setChan .ch1 ch).ch0 = s.ch0 := rfl
@[simp] theorem State.setChan_ch1_ch1 : (s.setChan .ch1 ch).ch1 = ch := rfl
@[simp] theorem State.setChan_ch1_ch2 : (s.setChan .ch1 ch).ch2 = s.ch2 := rfl
@[simp] theorem State.setChan_ch2_ch0 : (s.setChan .ch2 ch).ch0 = s.ch0 := rfl
@[simp] theorem State.setChan_ch2_ch1 : (s.setChan .ch2 ch).ch1 = s.ch1 := rfl
@[simp] theorem State.setChan_ch2_ch2 : (s.setChan .ch2 ch).ch2 = ch := rfl

@[simp] theorem State.setChan_cfg : (s.setChan c ch).cfg = s.cfg := by cases c <;> rfl
@[simp] theorem State.setChan_result : (s.setChan c ch).result = s.result := by cases c <;> rfl
@[simp] theorem State.setChan_ctrl : (s.setChan c ch).ctrl = s.ctrl := by cases c <;> rfl
@[simp] theorem State.setChan_fault : (s.setChan c ch).fault = s.fault := by cases c <;> rfl
@[simp] theorem State.setChan_rxState : (s.setChan c ch).rxState = s.rxState := by cases c <;> rfl
@[simp] theorem State.setChan_rxCrc : (s.setChan c ch).rxCrc = s.rxCrc := by cases c <;> rfl
@[simp] theorem State.setChan_rxRem : (s.setChan c ch).rxRem = s.rxRem := by cases c <;> rfl
@[simp] theorem State.setChan_pdPhase : (s.setChan c ch).pdPhase = s.pdPhase := by cases c <;> rfl
@[simp] theorem State.setChan_pdZeros : (s.setChan c ch).pdZeros = s.pdZeros := by cases c <;> rfl
@[simp] theorem State.setChan_pdPend : (s.setChan c ch).pdPend = s.pdPend := by cases c <;> rfl
@[simp] theorem State.setChan_pdBits : (s.setChan c ch).pdBits = s.pdBits := by cases c <;> rfl
@[simp] theorem State.setChan_pdShift : (s.setChan c ch).pdShift = s.pdShift := by cases c <;> rfl
@[simp] theorem State.setChan_pdCount : (s.setChan c ch).pdCount = s.pdCount := by cases c <;> rfl
@[simp] theorem State.setChan_pdExpect : (s.setChan c ch).pdExpect = s.pdExpect := by cases c <;> rfl
@[simp] theorem State.setChan_pdBytes : (s.setChan c ch).pdBytes = s.pdBytes := by cases c <;> rfl
@[simp] theorem State.setChan_encOpen : (s.setChan c ch).encOpen = s.encOpen := by cases c <;> rfl
@[simp] theorem State.setChan_encValid : (s.setChan c ch).encValid = s.encValid := by cases c <;> rfl
@[simp] theorem State.setChan_decOpen : (s.setChan c ch).decOpen = s.decOpen := by cases c <;> rfl
@[simp] theorem State.setChan_decCh : (s.setChan c ch).decCh = s.decCh := by cases c <;> rfl
@[simp] theorem State.setChan_decPos : (s.setChan c ch).decPos = s.decPos := by cases c <;> rfl
@[simp] theorem State.setChan_decOk : (s.setChan c ch).decOk = s.decOk := by cases c <;> rfl
@[simp] theorem State.setChan_inputs : (s.setChan c ch).inputs = s.inputs := by cases c <;> rfl
@[simp] theorem State.setChan_position : (s.setChan c ch).position = s.position := by cases c <;> rfl

@[simp] theorem State.setChan_capacity (d : Chan) : (s.setChan c ch).capacity d = s.capacity d := by
  cases c <;> cases d <;> rfl

@[simp] theorem State.onChan_self : (s.onChan c f).chan c = f (s.capacity c) (s.chan c) := by simp [State.onChan]

theorem State.onChan_ne (d : Chan) (h : d ≠ c) : (s.onChan c f).chan d = s.chan d :=
  State.chan_setChan_ne s c _ d h

@[simp] theorem State.onChan_cfg : (s.onChan c f).cfg = s.cfg := by simp [State.onChan]
@[simp] theorem State.onChan_result : (s.onChan c f).result = s.result := by simp [State.onChan]
@[simp] theorem State.onChan_ctrl : (s.onChan c f).ctrl = s.ctrl := by simp [State.onChan]
@[simp] theorem State.onChan_fault : (s.onChan c f).fault = s.fault := by simp [State.onChan]
@[simp] theorem State.onChan_rxState : (s.onChan c f).rxState = s.rxState := by simp [State.onChan]
@[simp] theorem State.onChan_rxCrc : (s.onChan c f).rxCrc = s.rxCrc := by simp [State.onChan]
@[simp] theorem State.onChan_rxRem : (s.onChan c f).rxRem = s.rxRem := by simp [State.onChan]
@[simp] theorem State.onChan_pdPhase : (s.onChan c f).pdPhase = s.pdPhase := by simp [State.onChan]
@[simp] theorem State.onChan_pdZeros : (s.onChan c f).pdZeros = s.pdZeros := by simp [State.onChan]
@[simp] theorem State.onChan_pdPend : (s.onChan c f).pdPend = s.pdPend := by simp [State.onChan]
@[simp] theorem State.onChan_pdBits : (s.onChan c f).pdBits = s.pdBits := by simp [State.onChan]
@[simp] theorem State.onChan_pdShift : (s.onChan c f).pdShift = s.pdShift := by simp [State.onChan]
@[simp] theorem State.onChan_pdCount : (s.onChan c f).pdCount = s.pdCount := by simp [State.onChan]
@[simp] theorem State.onChan_pdExpect : (s.onChan c f).pdExpect = s.pdExpect := by simp [State.onChan]
@[simp] theorem State.onChan_pdBytes : (s.onChan c f).pdBytes = s.pdBytes := by simp [State.onChan]
@[simp] theorem State.onChan_encOpen : (s.onChan c f).encOpen = s.encOpen := by simp [State.onChan]
@[simp] theorem State.onChan_encValid : (s.onChan c f).encValid = s.encValid := by simp [State.onChan]
@[simp] theorem State.onChan_decOpen : (s.onChan c f).decOpen = s.decOpen := by simp [State.onChan]
@[simp] theorem State.onChan_decCh : (s.onChan c f).decCh = s.decCh := by simp [State.onChan]
@[simp] theorem State.onChan_decPos : (s.onChan c f).decPos = s.decPos := by simp [State.onChan]
@[simp] theorem State.onChan_decOk : (s.onChan c f).decOk = s.decOk := by simp [State.onChan]
@[simp] theorem State.onChan_inputs : (s.onChan c f).inputs = s.inputs := by simp [State.onChan]
@[simp] theorem State.onChan_position : (s.onChan c f).position = s.position := by simp [State.onChan]

@[simp] theorem State.onChan_capacity (d : Chan) : (s.onChan c f).capacity d = s.capacity d := by simp [State.onChan]

@[simp] theorem State.onChan_ch0_ch0 : (s.onChan .ch0 f).ch0 = f s.cfg.n0 s.ch0 := rfl
@[simp] theorem State.onChan_ch0_ch1 : (s.onChan .ch0 f).ch1 = s.ch1 := rfl
@[simp] theorem State.onChan_ch0_ch2 : (s.onChan .ch0 f).ch2 = s.ch2 := rfl
@[simp] theorem State.onChan_ch1_ch0 : (s.onChan .ch1 f).ch0 = s.ch0 := rfl
@[simp] theorem State.onChan_ch1_ch1 : (s.onChan .ch1 f).ch1 = f s.cfg.n1 s.ch1 := rfl
@[simp] theorem State.onChan_ch1_ch2 : (s.onChan .ch1 f).ch2 = s.ch2 := rfl
@[simp] theorem State.onChan_ch2_ch0 : (s.onChan .ch2 f).ch0 = s.ch0 := rfl
@[simp] theorem State.onChan_ch2_ch1 : (s.onChan .ch2 f).ch1 = s.ch1 := rfl
@[simp] theorem State.onChan_ch2_ch2 : (s.onChan .ch2 f).ch2 = f s.cfg.n2 s.ch2 := rfl

variable (v : Word) (k : Nat) (rest : List Input) (unit op : Nibble) (cause : FaultCause)

/-! ### RESULT -/

@[simp] theorem State.setResult_cfg : (s.setResult v).cfg = s.cfg := rfl
@[simp] theorem State.setResult_ch0 : (s.setResult v).ch0 = s.ch0 := rfl
@[simp] theorem State.setResult_ch1 : (s.setResult v).ch1 = s.ch1 := rfl
@[simp] theorem State.setResult_ch2 : (s.setResult v).ch2 = s.ch2 := rfl
@[simp] theorem State.setResult_result : (s.setResult v).result = v := rfl
@[simp] theorem State.setResult_ctrl : (s.setResult v).ctrl = s.ctrl := rfl
@[simp] theorem State.setResult_fault : (s.setResult v).fault = s.fault := rfl
@[simp] theorem State.setResult_rxState : (s.setResult v).rxState = s.rxState := rfl
@[simp] theorem State.setResult_rxCrc : (s.setResult v).rxCrc = s.rxCrc := rfl
@[simp] theorem State.setResult_rxRem : (s.setResult v).rxRem = s.rxRem := rfl
@[simp] theorem State.setResult_pdPhase : (s.setResult v).pdPhase = s.pdPhase := rfl
@[simp] theorem State.setResult_pdZeros : (s.setResult v).pdZeros = s.pdZeros := rfl
@[simp] theorem State.setResult_pdPend : (s.setResult v).pdPend = s.pdPend := rfl
@[simp] theorem State.setResult_pdBits : (s.setResult v).pdBits = s.pdBits := rfl
@[simp] theorem State.setResult_pdShift : (s.setResult v).pdShift = s.pdShift := rfl
@[simp] theorem State.setResult_pdCount : (s.setResult v).pdCount = s.pdCount := rfl
@[simp] theorem State.setResult_pdExpect : (s.setResult v).pdExpect = s.pdExpect := rfl
@[simp] theorem State.setResult_pdBytes : (s.setResult v).pdBytes = s.pdBytes := rfl
@[simp] theorem State.setResult_encOpen : (s.setResult v).encOpen = s.encOpen := rfl
@[simp] theorem State.setResult_encValid : (s.setResult v).encValid = s.encValid := rfl
@[simp] theorem State.setResult_decOpen : (s.setResult v).decOpen = s.decOpen := rfl
@[simp] theorem State.setResult_decCh : (s.setResult v).decCh = s.decCh := rfl
@[simp] theorem State.setResult_decPos : (s.setResult v).decPos = s.decPos := rfl
@[simp] theorem State.setResult_decOk : (s.setResult v).decOk = s.decOk := rfl
@[simp] theorem State.setResult_inputs : (s.setResult v).inputs = s.inputs := rfl
@[simp] theorem State.setResult_position : (s.setResult v).position = s.position := rfl
@[simp] theorem State.setResult_chan : (s.setResult v).chan c = s.chan c := by cases c <;> rfl
@[simp] theorem State.setResult_capacity : (s.setResult v).capacity c = s.capacity c := by cases c <;> rfl

/-! ### Taking a command from the port -/

@[simp] theorem State.takeCommand_cfg : (s.takeCommand rest).cfg = s.cfg := rfl
@[simp] theorem State.takeCommand_ch0 : (s.takeCommand rest).ch0 = s.ch0 := rfl
@[simp] theorem State.takeCommand_ch1 : (s.takeCommand rest).ch1 = s.ch1 := rfl
@[simp] theorem State.takeCommand_ch2 : (s.takeCommand rest).ch2 = s.ch2 := rfl
@[simp] theorem State.takeCommand_result : (s.takeCommand rest).result = s.result := rfl
@[simp] theorem State.takeCommand_ctrl : (s.takeCommand rest).ctrl = s.ctrl := rfl
@[simp] theorem State.takeCommand_fault : (s.takeCommand rest).fault = s.fault := rfl
@[simp] theorem State.takeCommand_rxState : (s.takeCommand rest).rxState = s.rxState := rfl
@[simp] theorem State.takeCommand_rxCrc : (s.takeCommand rest).rxCrc = s.rxCrc := rfl
@[simp] theorem State.takeCommand_rxRem : (s.takeCommand rest).rxRem = s.rxRem := rfl
@[simp] theorem State.takeCommand_pdPhase : (s.takeCommand rest).pdPhase = s.pdPhase := rfl
@[simp] theorem State.takeCommand_pdZeros : (s.takeCommand rest).pdZeros = s.pdZeros := rfl
@[simp] theorem State.takeCommand_pdPend : (s.takeCommand rest).pdPend = s.pdPend := rfl
@[simp] theorem State.takeCommand_pdBits : (s.takeCommand rest).pdBits = s.pdBits := rfl
@[simp] theorem State.takeCommand_pdShift : (s.takeCommand rest).pdShift = s.pdShift := rfl
@[simp] theorem State.takeCommand_pdCount : (s.takeCommand rest).pdCount = s.pdCount := rfl
@[simp] theorem State.takeCommand_pdExpect : (s.takeCommand rest).pdExpect = s.pdExpect := rfl
@[simp] theorem State.takeCommand_pdBytes : (s.takeCommand rest).pdBytes = s.pdBytes := rfl
@[simp] theorem State.takeCommand_encOpen : (s.takeCommand rest).encOpen = s.encOpen := rfl
@[simp] theorem State.takeCommand_encValid : (s.takeCommand rest).encValid = s.encValid := rfl
@[simp] theorem State.takeCommand_decOpen : (s.takeCommand rest).decOpen = s.decOpen := rfl
@[simp] theorem State.takeCommand_decCh : (s.takeCommand rest).decCh = s.decCh := rfl
@[simp] theorem State.takeCommand_decPos : (s.takeCommand rest).decPos = s.decPos := rfl
@[simp] theorem State.takeCommand_decOk : (s.takeCommand rest).decOk = s.decOk := rfl
@[simp] theorem State.takeCommand_inputs : (s.takeCommand rest).inputs = rest := rfl
@[simp] theorem State.takeCommand_position : (s.takeCommand rest).position = s.position + 1 := rfl
@[simp] theorem State.takeCommand_chan : (s.takeCommand rest).chan c = s.chan c := by cases c <;> rfl
@[simp] theorem State.takeCommand_capacity : (s.takeCommand rest).capacity c = s.capacity c := by cases c <;> rfl

/-! ### pdClear -/

@[simp] theorem pdClear_cfg : (pdClear s).cfg = s.cfg := rfl
@[simp] theorem pdClear_ch0 : (pdClear s).ch0 = s.ch0 := rfl
@[simp] theorem pdClear_ch1 : (pdClear s).ch1 = s.ch1 := rfl
@[simp] theorem pdClear_ch2 : (pdClear s).ch2 = s.ch2 := rfl
@[simp] theorem pdClear_result : (pdClear s).result = s.result := rfl
@[simp] theorem pdClear_ctrl : (pdClear s).ctrl = s.ctrl := rfl
@[simp] theorem pdClear_fault : (pdClear s).fault = s.fault := rfl
@[simp] theorem pdClear_rxState : (pdClear s).rxState = s.rxState := rfl
@[simp] theorem pdClear_rxCrc : (pdClear s).rxCrc = s.rxCrc := rfl
@[simp] theorem pdClear_rxRem : (pdClear s).rxRem = s.rxRem := rfl
@[simp] theorem pdClear_pdPhase : (pdClear s).pdPhase = .hunt := rfl
@[simp] theorem pdClear_pdZeros : (pdClear s).pdZeros = 0 := rfl
@[simp] theorem pdClear_pdPend : (pdClear s).pdPend = none := rfl
@[simp] theorem pdClear_pdBits : (pdClear s).pdBits = 0 := rfl
@[simp] theorem pdClear_pdShift : (pdClear s).pdShift = 0 := rfl
@[simp] theorem pdClear_pdCount : (pdClear s).pdCount = 0 := rfl
@[simp] theorem pdClear_pdExpect : (pdClear s).pdExpect = 5 := rfl
@[simp] theorem pdClear_pdBytes : (pdClear s).pdBytes = s.pdBytes := rfl
@[simp] theorem pdClear_encOpen : (pdClear s).encOpen = s.encOpen := rfl
@[simp] theorem pdClear_encValid : (pdClear s).encValid = s.encValid := rfl
@[simp] theorem pdClear_decOpen : (pdClear s).decOpen = s.decOpen := rfl
@[simp] theorem pdClear_decCh : (pdClear s).decCh = s.decCh := rfl
@[simp] theorem pdClear_decPos : (pdClear s).decPos = s.decPos := rfl
@[simp] theorem pdClear_decOk : (pdClear s).decOk = s.decOk := rfl
@[simp] theorem pdClear_inputs : (pdClear s).inputs = s.inputs := rfl
@[simp] theorem pdClear_position : (pdClear s).position = s.position := rfl
@[simp] theorem pdClear_chan : (pdClear s).chan c = s.chan c := by cases c <;> rfl
@[simp] theorem pdClear_capacity : (pdClear s).capacity c = s.capacity c := by cases c <;> rfl

/-! ### Decoder reads -/

@[simp] theorem decFail_cfg : (decFail s).cfg = s.cfg := rfl
@[simp] theorem decFail_ch0 : (decFail s).ch0 = s.ch0 := rfl
@[simp] theorem decFail_ch1 : (decFail s).ch1 = s.ch1 := rfl
@[simp] theorem decFail_ch2 : (decFail s).ch2 = s.ch2 := rfl
@[simp] theorem decFail_result : (decFail s).result = 0 := rfl
@[simp] theorem decFail_ctrl : (decFail s).ctrl = s.ctrl := rfl
@[simp] theorem decFail_fault : (decFail s).fault = s.fault := rfl
@[simp] theorem decFail_rxState : (decFail s).rxState = s.rxState := rfl
@[simp] theorem decFail_rxCrc : (decFail s).rxCrc = s.rxCrc := rfl
@[simp] theorem decFail_rxRem : (decFail s).rxRem = s.rxRem := rfl
@[simp] theorem decFail_pdPhase : (decFail s).pdPhase = s.pdPhase := rfl
@[simp] theorem decFail_pdZeros : (decFail s).pdZeros = s.pdZeros := rfl
@[simp] theorem decFail_pdPend : (decFail s).pdPend = s.pdPend := rfl
@[simp] theorem decFail_pdBits : (decFail s).pdBits = s.pdBits := rfl
@[simp] theorem decFail_pdShift : (decFail s).pdShift = s.pdShift := rfl
@[simp] theorem decFail_pdCount : (decFail s).pdCount = s.pdCount := rfl
@[simp] theorem decFail_pdExpect : (decFail s).pdExpect = s.pdExpect := rfl
@[simp] theorem decFail_pdBytes : (decFail s).pdBytes = s.pdBytes := rfl
@[simp] theorem decFail_encOpen : (decFail s).encOpen = s.encOpen := rfl
@[simp] theorem decFail_encValid : (decFail s).encValid = s.encValid := rfl
@[simp] theorem decFail_decOpen : (decFail s).decOpen = s.decOpen := rfl
@[simp] theorem decFail_decCh : (decFail s).decCh = s.decCh := rfl
@[simp] theorem decFail_decPos : (decFail s).decPos = s.decPos := rfl
@[simp] theorem decFail_decOk : (decFail s).decOk = false := rfl
@[simp] theorem decFail_inputs : (decFail s).inputs = s.inputs := rfl
@[simp] theorem decFail_position : (decFail s).position = s.position := rfl
@[simp] theorem decFail_chan : (decFail s).chan c = s.chan c := by cases c <;> rfl
@[simp] theorem decFail_capacity : (decFail s).capacity c = s.capacity c := by cases c <;> rfl

/-! ### Decoder reads that succeed -/

@[simp] theorem decAdvance_cfg : (decAdvance k v s).cfg = s.cfg := rfl
@[simp] theorem decAdvance_ch0 : (decAdvance k v s).ch0 = s.ch0 := rfl
@[simp] theorem decAdvance_ch1 : (decAdvance k v s).ch1 = s.ch1 := rfl
@[simp] theorem decAdvance_ch2 : (decAdvance k v s).ch2 = s.ch2 := rfl
@[simp] theorem decAdvance_result : (decAdvance k v s).result = v := rfl
@[simp] theorem decAdvance_ctrl : (decAdvance k v s).ctrl = s.ctrl := rfl
@[simp] theorem decAdvance_fault : (decAdvance k v s).fault = s.fault := rfl
@[simp] theorem decAdvance_rxState : (decAdvance k v s).rxState = s.rxState := rfl
@[simp] theorem decAdvance_rxCrc : (decAdvance k v s).rxCrc = s.rxCrc := rfl
@[simp] theorem decAdvance_rxRem : (decAdvance k v s).rxRem = s.rxRem := rfl
@[simp] theorem decAdvance_pdPhase : (decAdvance k v s).pdPhase = s.pdPhase := rfl
@[simp] theorem decAdvance_pdZeros : (decAdvance k v s).pdZeros = s.pdZeros := rfl
@[simp] theorem decAdvance_pdPend : (decAdvance k v s).pdPend = s.pdPend := rfl
@[simp] theorem decAdvance_pdBits : (decAdvance k v s).pdBits = s.pdBits := rfl
@[simp] theorem decAdvance_pdShift : (decAdvance k v s).pdShift = s.pdShift := rfl
@[simp] theorem decAdvance_pdCount : (decAdvance k v s).pdCount = s.pdCount := rfl
@[simp] theorem decAdvance_pdExpect : (decAdvance k v s).pdExpect = s.pdExpect := rfl
@[simp] theorem decAdvance_pdBytes : (decAdvance k v s).pdBytes = s.pdBytes := rfl
@[simp] theorem decAdvance_encOpen : (decAdvance k v s).encOpen = s.encOpen := rfl
@[simp] theorem decAdvance_encValid : (decAdvance k v s).encValid = s.encValid := rfl
@[simp] theorem decAdvance_decOpen : (decAdvance k v s).decOpen = s.decOpen := rfl
@[simp] theorem decAdvance_decCh : (decAdvance k v s).decCh = s.decCh := rfl
@[simp] theorem decAdvance_decPos : (decAdvance k v s).decPos = s.decPos + k := rfl
@[simp] theorem decAdvance_decOk : (decAdvance k v s).decOk = s.decOk := rfl
@[simp] theorem decAdvance_inputs : (decAdvance k v s).inputs = s.inputs := rfl
@[simp] theorem decAdvance_position : (decAdvance k v s).position = s.position := rfl
@[simp] theorem decAdvance_chan : (decAdvance k v s).chan c = s.chan c := by cases c <;> rfl
@[simp] theorem decAdvance_capacity : (decAdvance k v s).capacity c = s.capacity c := by cases c <;> rfl

/-! ### Recording a fault -/

@[simp] theorem recordFault_cfg : (recordFault unit op cause s).cfg = s.cfg := by
  unfold recordFault; split <;> rfl
@[simp] theorem recordFault_ch0 : (recordFault unit op cause s).ch0 = s.ch0 := by
  unfold recordFault; split <;> rfl
@[simp] theorem recordFault_ch1 : (recordFault unit op cause s).ch1 = s.ch1 := by
  unfold recordFault; split <;> rfl
@[simp] theorem recordFault_ch2 : (recordFault unit op cause s).ch2 = s.ch2 := by
  unfold recordFault; split <;> rfl
@[simp] theorem recordFault_result : (recordFault unit op cause s).result = s.result := by
  unfold recordFault; split <;> rfl
@[simp] theorem recordFault_ctrl : (recordFault unit op cause s).ctrl = s.ctrl := by
  unfold recordFault; split <;> rfl
@[simp] theorem recordFault_rxState : (recordFault unit op cause s).rxState = s.rxState := by
  unfold recordFault; split <;> rfl
@[simp] theorem recordFault_rxCrc : (recordFault unit op cause s).rxCrc = s.rxCrc := by
  unfold recordFault; split <;> rfl
@[simp] theorem recordFault_rxRem : (recordFault unit op cause s).rxRem = s.rxRem := by
  unfold recordFault; split <;> rfl
@[simp] theorem recordFault_pdPhase : (recordFault unit op cause s).pdPhase = s.pdPhase := by
  unfold recordFault; split <;> rfl
@[simp] theorem recordFault_pdZeros : (recordFault unit op cause s).pdZeros = s.pdZeros := by
  unfold recordFault; split <;> rfl
@[simp] theorem recordFault_pdPend : (recordFault unit op cause s).pdPend = s.pdPend := by
  unfold recordFault; split <;> rfl
@[simp] theorem recordFault_pdBits : (recordFault unit op cause s).pdBits = s.pdBits := by
  unfold recordFault; split <;> rfl
@[simp] theorem recordFault_pdShift : (recordFault unit op cause s).pdShift = s.pdShift := by
  unfold recordFault; split <;> rfl
@[simp] theorem recordFault_pdCount : (recordFault unit op cause s).pdCount = s.pdCount := by
  unfold recordFault; split <;> rfl
@[simp] theorem recordFault_pdExpect : (recordFault unit op cause s).pdExpect = s.pdExpect := by
  unfold recordFault; split <;> rfl
@[simp] theorem recordFault_pdBytes : (recordFault unit op cause s).pdBytes = s.pdBytes := by
  unfold recordFault; split <;> rfl
@[simp] theorem recordFault_encOpen : (recordFault unit op cause s).encOpen = s.encOpen := by
  unfold recordFault; split <;> rfl
@[simp] theorem recordFault_encValid : (recordFault unit op cause s).encValid = s.encValid := by
  unfold recordFault; split <;> rfl
@[simp] theorem recordFault_decOpen : (recordFault unit op cause s).decOpen = s.decOpen := by
  unfold recordFault; split <;> rfl
@[simp] theorem recordFault_decCh : (recordFault unit op cause s).decCh = s.decCh := by
  unfold recordFault; split <;> rfl
@[simp] theorem recordFault_decPos : (recordFault unit op cause s).decPos = s.decPos := by
  unfold recordFault; split <;> rfl
@[simp] theorem recordFault_decOk : (recordFault unit op cause s).decOk = s.decOk := by
  unfold recordFault; split <;> rfl
@[simp] theorem recordFault_inputs : (recordFault unit op cause s).inputs = s.inputs := by
  unfold recordFault; split <;> rfl
@[simp] theorem recordFault_position : (recordFault unit op cause s).position = s.position := by
  unfold recordFault; split <;> rfl
@[simp] theorem recordFault_chan : (recordFault unit op cause s).chan c = s.chan c := by
  unfold recordFault; split <;> rfl
@[simp] theorem recordFault_capacity : (recordFault unit op cause s).capacity c = s.capacity c := by
  unfold recordFault; split <;> rfl

/-! ### Reset -/

@[simp] theorem State.takeReset_inputs : (s.takeReset rest).inputs = rest := rfl
@[simp] theorem State.takeReset_position : (s.takeReset rest).position = s.position := rfl
@[simp] theorem State.takeReset_cfg : (s.takeReset rest).cfg = s.cfg := rfl
@[simp] theorem State.takeReset_result : (s.takeReset rest).result = 0 := rfl
@[simp] theorem State.takeReset_ctrl : (s.takeReset rest).ctrl = 1 := rfl
@[simp] theorem State.takeReset_fault : (s.takeReset rest).fault = 0 := rfl
@[simp] theorem State.takeReset_chan : (s.takeReset rest).chan c = Channel.reset := by cases c <;> rfl
@[simp] theorem State.takeReset_capacity : (s.takeReset rest).capacity c = s.capacity c := by cases c <;> rfl

end Sys2Proof.Machine
end

