-- ==== Sys2Proof/Laws/Storage.lean ====
section
/-! SUPPORT. What storage does: a read after a write, and that writing keeps the canonical form. -/

namespace Sys2Proof.Machine

/-! ### Reading after writing -/

theorem readCells_eraseCell_self (cells : List Host.Cell) (a : Nat) : readCells (eraseCell cells a) a = Memory.blank := by
  induction cells with
  | nil => rfl
  | cons cell rest ih =>
    obtain ⟨a', v'⟩ := cell
    by_cases h : a' = a
    · simpa [eraseCell, h] using ih
    · have h' : ¬a = a' := fun e => h e.symm
      simpa [eraseCell, h, readCells, h'] using ih

theorem readCells_eraseCell_ne (cells : List Host.Cell) {a b : Nat} (hne : b ≠ a) :
    readCells (eraseCell cells a) b = readCells cells b := by
  induction cells with
  | nil => rfl
  | cons cell rest ih =>
    obtain ⟨a', v'⟩ := cell
    by_cases h : a' = a
    · subst h; simpa [eraseCell, readCells, hne] using ih
    · by_cases hb : b = a'
      · simp [eraseCell, h, readCells, hb]
      · simpa [eraseCell, h, readCells, hb] using ih

theorem readCells_insertCell_self (cells : List Host.Cell) (a : Nat) (v : Byte)
    (habs : ∀ cell ∈ cells, cell.1 ≠ a) : readCells (insertCell a v cells) a = v := by
  induction cells with
  | nil => simp [insertCell, readCells]
  | cons cell rest ih =>
    obtain ⟨a', v'⟩ := cell
    have hne : ¬a = a' := fun e => habs (a', v') (by simp) e.symm
    by_cases h : a < a'
    · simp [insertCell, h, readCells]
    · simpa [insertCell, h, readCells, hne] using ih (fun cell hc => habs cell (by simp [hc]))

theorem readCells_insertCell_ne (cells : List Host.Cell) {a b : Nat} (v : Byte) (hne : b ≠ a) :
    readCells (insertCell a v cells) b = readCells cells b := by
  induction cells with
  | nil => simp [insertCell, readCells, hne]
  | cons cell rest ih =>
    obtain ⟨a', v'⟩ := cell
    by_cases h : a < a'
    · simp [insertCell, h, readCells, hne]
    · by_cases hb : b = a'
      · simp [insertCell, h, readCells, hb]
      · simpa [insertCell, h, readCells, hb] using ih

theorem eraseCell_absent (cells : List Host.Cell) (a : Nat) : ∀ cell ∈ eraseCell cells a, cell.1 ≠ a := by
  intro cell hc
  have := (List.mem_filter.1 hc).2
  simpa using this

/-- A read after a write gives the value written at its index and leaves every other index alone. -/
@[simp] theorem Memory.read_write (m : Memory) (a b : Nat) (v : Byte) :
    (m.write a v).read b = if b = a then v else m.read b := by
  by_cases hb : b = a
  · subst hb
    by_cases hv : v = Memory.blank
    · simp [Memory.read, Memory.write, writeCells, hv, readCells_eraseCell_self]
    · simp [Memory.read, Memory.write, writeCells, hv, readCells_insertCell_self _ b v (eraseCell_absent _ b)]
  · by_cases hv : v = Memory.blank
    · simp [Memory.read, Memory.write, writeCells, hv, hb, readCells_eraseCell_ne]
    · simp [Memory.read, Memory.write, writeCells, hv, hb, readCells_eraseCell_ne, readCells_insertCell_ne]

/-- Nothing written reads as the blank byte. -/
@[simp] theorem Memory.read_empty (a : Nat) : Memory.empty.read a = Memory.blank := rfl

/-! ### The canonical form -/

theorem cellsWf_weaken {lo lo' : Nat} (h : lo' ≤ lo) (cells : List Host.Cell) (hw : cellsWf lo cells = true) :
    cellsWf lo' cells = true := by
  cases cells with
  | nil => rfl
  | cons cell rest =>
    obtain ⟨a, v⟩ := cell
    simp only [cellsWf, Bool.and_eq_true, decide_eq_true_eq] at hw ⊢
    exact ⟨⟨Nat.le_trans h hw.1.1, hw.1.2⟩, hw.2⟩

theorem cellsWf_eraseCell (cells : List Host.Cell) (a lo : Nat) (hw : cellsWf lo cells = true) :
    cellsWf lo (eraseCell cells a) = true := by
  induction cells generalizing lo with
  | nil => rfl
  | cons cell rest ih =>
    obtain ⟨a', v'⟩ := cell
    simp only [cellsWf, Bool.and_eq_true, decide_eq_true_eq] at hw
    by_cases h : a' = a
    · have := cellsWf_weaken (Nat.le_trans hw.1.1 (Nat.le_succ a')) _ (ih (a' + 1) hw.2)
      simpa [eraseCell, h] using this
    · have := ih (a' + 1) hw.2
      simp only [eraseCell] at this
      simp [eraseCell, h, cellsWf, hw.1.1, hw.1.2, this]

theorem cellsWf_insertCell (cells : List Host.Cell) (a : Nat) (v : Byte) (lo : Nat) (hlo : lo ≤ a)
    (hv : v ≠ Memory.blank) (habs : ∀ cell ∈ cells, cell.1 ≠ a) (hw : cellsWf lo cells = true) :
    cellsWf lo (insertCell a v cells) = true := by
  induction cells generalizing lo with
  | nil => simp [insertCell, cellsWf, hlo, hv]
  | cons cell rest ih =>
    obtain ⟨a', v'⟩ := cell
    simp only [cellsWf, Bool.and_eq_true, decide_eq_true_eq] at hw
    have hne : a' ≠ a := habs (a', v') (by simp)
    by_cases h : a < a'
    · have ha : a + 1 ≤ a' := h
      simp [insertCell, h, cellsWf, hlo, hv, ha, hw.1.2, hw.2]
    · have ha : a' + 1 ≤ a := by omega
      have := ih (a' + 1) ha (fun cell hc => habs cell (by simp [hc])) hw.2
      simp [insertCell, h, cellsWf, hw.1.1, hw.1.2, this]

/-- Every write keeps the canonical form. -/
theorem Memory.wf_write (m : Memory) (a : Nat) (v : Byte) (hw : m.wf = true) : (m.write a v).wf = true := by
  by_cases hv : v = Memory.blank
  · simpa [Memory.wf, Memory.write, writeCells, hv] using cellsWf_eraseCell m.cells a 0 hw
  · simpa [Memory.wf, Memory.write, writeCells, hv] using
      cellsWf_insertCell _ a v 0 (Nat.zero_le a) hv (eraseCell_absent _ a) (cellsWf_eraseCell m.cells a 0 hw)

theorem Memory.wf_empty : Memory.empty.wf = true := rfl

theorem insertCell_below (cells : List Host.Cell) (a n : Nat) (v : Byte) (ha : a < n)
    (hb : ∀ cell ∈ cells, cell.1 < n) : ∀ cell ∈ insertCell a v cells, cell.1 < n := by
  induction cells with
  | nil => simpa [insertCell] using ha
  | cons head rest ih =>
    obtain ⟨a', v'⟩ := head
    intro cell hc
    by_cases h : a < a'
    · simp only [insertCell, h, if_true, List.mem_cons] at hc
      rcases hc with rfl | rfl | hc
      · exact ha
      · exact hb _ (by simp)
      · exact hb _ (by simp [hc])
    · simp only [insertCell, h, if_false, List.mem_cons] at hc
      rcases hc with rfl | hc
      · exact hb _ (by simp)
      · exact ih (fun c hc' => hb c (by simp [hc'])) cell hc

/-- A write below the capacity keeps every listed index below it. -/
theorem Memory.below_write (m : Memory) (a n : Nat) (v : Byte) (ha : a < n) (hb : m.below n = true) :
    (m.write a v).below n = true := by
  have hm : ∀ cell ∈ m.cells, cell.1 < n := by simpa [Memory.below] using hb
  have he : ∀ cell ∈ eraseCell m.cells a, cell.1 < n := fun c hc => hm c (List.mem_filter.1 hc).1
  suffices ∀ cell ∈ (m.write a v).cells, cell.1 < n by simpa [Memory.below] using this
  by_cases hv : v = Memory.blank
  · simpa [Memory.write, writeCells, hv] using he
  · simpa [Memory.write, writeCells, hv] using insertCell_below _ a n v ha he

end Sys2Proof.Machine
end

