-- ==== Sys2Proof/Laws/Ops.lean ====
section
/-! SUPPORT. One lemma per shared operation that says everything it can do. -/

namespace Sys2Proof.Machine

variable (n : Nat) (ch : Channel) (s : State)

/-! ### Ring-buffer and chunk primitives -/

/-- `RB_put` stores exactly when there is room (40_channel.md R150). -/
theorem rbPut_room (b : Byte) (h : ch.count < n) :
    rbPut n b ch
      = some { ch with buf := ch.buf.write (ch.wr % n) b, wr := (ch.wr + 1) % n, count := ch.count + 1 } := by
  simp [rbPut, h]

/-- `RB_put` drops the byte when the channel is full (40_channel.md R150). -/
theorem rbPut_full (b : Byte) (h : ¬ch.count < n) : rbPut n b ch = none := by simp [rbPut, h]

/-- `ChunkStart` with room: the length byte is reserved (40_channel.md R154). -/
theorem chunkStart_room (h : ch.count < n) :
    chunkStart n ch
      = { ch with
          buf := ch.buf.write (ch.wr % n) 0x00, wr := (ch.wr + 1) % n, count := ch.count + 1
          writing := true, wstart := ch.wr, wbytes := 1, wlost := false } := by
  simp [chunkStart, rbPut, h]

/-- `ChunkStart` on a full channel: the chunk opens lost (40_channel.md R153, R154). -/
theorem chunkStart_full (h : ¬ch.count < n) :
    chunkStart n ch = { ch with writing := true, wstart := ch.wr, wbytes := 0, wlost := true } := by
  simp [chunkStart, rbPut, h]

/-- `ChunkPut` on a lost chunk stores nothing (40_channel.md R153, R155). -/
theorem chunkPut_lost (b : Byte) (h : ch.wlost = true) : chunkPut n b ch = ch := by simp [chunkPut, h]

/-- `ChunkPut` that fits stores the byte at the write cursor (40_channel.md R155). -/
theorem chunkPut_fits (b : Byte) (hl : ch.wlost = false) (hw : ch.wbytes - 1 ≠ 255) (h : ch.count < n) :
    chunkPut n b ch
      = { ch with
          buf := ch.buf.write (ch.wr % n) b, wr := (ch.wr + 1) % n, count := ch.count + 1
          wbytes := ch.wbytes + 1 } := by
  simp [chunkPut, hl, hw, rbPut, h]

/-- `ChunkPut` that does not fit loses the chunk (40_channel.md R153, R155). -/
theorem chunkPut_overflow (b : Byte) (hl : ch.wlost = false) (h : ch.wbytes - 1 = 255 ∨ ¬ch.count < n) :
    chunkPut n b ch = { ch with wlost := true } := by
  by_cases hw : ch.wbytes - 1 = 255
  · simp [chunkPut, hl, hw]
  · have hc : ¬ch.count < n := h.resolve_left hw
    simp [chunkPut, hl, hw, rbPut, hc]

/-- Everything `ChunkPut` can do. -/
theorem chunkPut_cases (b : Byte) :
    (ch.wlost = true ∧ chunkPut n b ch = ch)
      ∨ (ch.wlost = false ∧ (ch.wbytes - 1 = 255 ∨ ¬ch.count < n) ∧ chunkPut n b ch = { ch with wlost := true })
      ∨ (ch.wlost = false ∧ ch.wbytes - 1 ≠ 255 ∧ ch.count < n
          ∧ chunkPut n b ch
            = { ch with
                buf := ch.buf.write (ch.wr % n) b, wr := (ch.wr + 1) % n, count := ch.count + 1
                wbytes := ch.wbytes + 1 }) := by
  by_cases hl : ch.wlost = true
  · exact .inl ⟨hl, chunkPut_lost n ch b hl⟩
  · have hl' : ch.wlost = false := by simpa using hl
    by_cases h : ch.wbytes - 1 = 255 ∨ ¬ch.count < n
    · exact .inr (.inl ⟨hl', h, chunkPut_overflow n ch b hl' h⟩)
    · have hw : ch.wbytes - 1 ≠ 255 := fun e => h (.inl e)
      have hc : ch.count < n := Decidable.byContradiction (fun e => h (.inr e))
      exact .inr (.inr ⟨hl', hw, hc, chunkPut_fits n ch b hl' hw hc⟩)

/-- `ChunkEnd` discards a lost chunk (40_channel.md R156). -/
theorem chunkEnd_lost (h : ch.wlost = true) : chunkEnd n ch = chunkAbort ch := by simp [chunkEnd, h]

/-- `ChunkEnd` commits a chunk that is not lost and patches its length byte (40_channel.md R156). -/
theorem chunkEnd_commits (h : ch.wlost = false) :
    chunkEnd n ch
      = { ch with
          buf := ch.buf.write (ch.wstart % n) (BitVec.ofNat 8 (ch.wbytes - 1)), nchunks := ch.nchunks + 1
          writing := false, wbytes := 0 } := by
  simp [chunkEnd, h]

@[simp] theorem chunkPutAll_nil : chunkPutAll n [] ch = ch := rfl

@[simp] theorem chunkPutAll_cons (b : Byte) (bs : List Byte) :
    chunkPutAll n (b :: bs) ch = chunkPutAll n bs (chunkPut n b ch) := rfl

theorem chunkPutAll_append (bs cs : List Byte) :
    chunkPutAll n (bs ++ cs) ch = chunkPutAll n cs (chunkPutAll n bs ch) := by
  simp [chunkPutAll, List.foldl_append]

/-! ### Faults -/

/-- A fault once one is recorded changes nothing (60_exceptions.md R401). -/
theorem recordFault_sticky (unit op : Nibble) (cause : FaultCause) (h : s.fault.getLsbD 16 = true) :
    recordFault unit op cause s = s := if_pos h

/-- The first fault is recorded, and nothing else changes (60_exceptions.md R401). -/
theorem recordFault_first (unit op : Nibble) (cause : FaultCause) (h : s.fault.getLsbD 16 = false) :
    recordFault unit op cause s = { s with fault := faultWord unit op cause } :=
  if_neg (by rw [h]; decide)

/-- A recorded word is VALID (10_state.md R34). -/
theorem faultWord_valid (unit op : Nibble) (cause : FaultCause) : (faultWord unit op cause).getLsbD 16 = true := by
  simp [faultWord]

/-! ### Operands -/

/-- A width operand names 1, 2 or 4 bytes, and no other value is legal (30_encoding.md R108). -/
theorem widthOperand_cases (w : Byte) :
    (w = 1 ∧ widthOperand w = some 1) ∨ (w = 2 ∧ widthOperand w = some 2) ∨ (w = 4 ∧ widthOperand w = some 4)
      ∨ (w ≠ 1 ∧ w ≠ 2 ∧ w ≠ 4 ∧ widthOperand w = none) := by
  by_cases h1 : w = 1
  · subst h1; exact .inl ⟨rfl, rfl⟩
  · by_cases h2 : w = 2
    · subst h2; exact .inr (.inl ⟨rfl, rfl⟩)
    · by_cases h4 : w = 4
      · subst h4; exact .inr (.inr (.inl ⟨rfl, rfl⟩))
      · exact .inr (.inr (.inr ⟨h1, h2, h4, (if_neg h1).trans ((if_neg h2).trans (if_neg h4))⟩))

/-- `DEC_BEGIN`'s operand names a channel unless it is 3 (30_encoding.md R108). -/
theorem channelOperand_cases (ch : BitVec 2) :
    (ch = 0 ∧ channelOperand ch = some .ch0) ∨ (ch = 1 ∧ channelOperand ch = some .ch1)
      ∨ (ch = 2 ∧ channelOperand ch = some .ch2) ∨ (ch = 3 ∧ channelOperand ch = none) := by
  revert ch; decide

/-- The legal operand sets of the decoder's and the meanings' checks are the same. -/
theorem widthOperand_isSome (w : Byte) : (widthOperand w).isSome = Instr.widthOperandLegal w := by
  rcases widthOperand_cases w with ⟨rfl, h⟩ | ⟨rfl, h⟩ | ⟨rfl, h⟩ | ⟨h1, h2, h4, h⟩
  · rfl
  · rfl
  · rfl
  · have e : ∀ x : Byte, w ≠ x → (w == x) = false := fun x hx => beq_false_of_ne hx
    simp only [h, Instr.widthOperandLegal, e _ h1, e _ h2, e _ h4]; rfl

/-- Everything `classify` can answer: the two windows of a well-formed configuration do not meet
(42_pulse_decoder.md R232). -/
theorem classify_cases (cfg : Config) (d : Half) :
    (cfg.shortMin ≤ d.toNat ∧ d.toNat ≤ cfg.shortMax ∧ classify cfg d = some .short)
      ∨ (cfg.longMin ≤ d.toNat ∧ d.toNat ≤ cfg.longMax ∧ ¬(cfg.shortMin ≤ d.toNat ∧ d.toNat ≤ cfg.shortMax)
          ∧ classify cfg d = some .long)
      ∨ (¬(cfg.shortMin ≤ d.toNat ∧ d.toNat ≤ cfg.shortMax) ∧ ¬(cfg.longMin ≤ d.toNat ∧ d.toNat ≤ cfg.longMax)
          ∧ classify cfg d = none) := by
  by_cases hs : cfg.shortMin ≤ d.toNat ∧ d.toNat ≤ cfg.shortMax
  · exact .inl ⟨hs.1, hs.2, by simp [classify, hs]⟩
  · by_cases hl : cfg.longMin ≤ d.toNat ∧ d.toNat ≤ cfg.longMax
    · exact .inr (.inl ⟨hl.1, hl.2, hs, by simp [classify, hs, hl]⟩)
    · exact .inr (.inr ⟨hs, hl, by simp [classify, hs, hl]⟩)

/-! ### The pulse decoder's shared operations -/

/-- A sync error in `HUNT` only clears the decoder (42_pulse_decoder.md R236). -/
theorem pdResync_hunt (h : s.pdPhase = .hunt) : pdResync s = pdClear s := by simp [pdResync, h]

/-- A sync error in `DATA` discards the packet's chunk and clears the decoder (42_pulse_decoder.md R236). -/
theorem pdResync_data (h : s.pdPhase = .data) :
    pdResync s = pdClear (s.onChan .ch1 (fun _ => chunkAbort)) := by simp [pdResync, h]

end Sys2Proof.Machine
end

