-- ==== Sys2Proof/Laws/Channel.lean ====
section
/-! SUPPORT. What the chunk primitives do to the invariant of a channel and to the chunks its reader will see. -/

namespace Sys2Proof.Machine

variable {n : Nat} {a b ch : Channel}

/-! ### Offsets and contents of the committed chunks -/

@[simp] theorem chunkOffset_zero : chunkOffset n ch 0 = 0 := rfl

theorem chunkOffset_succ (k : Nat) :
    chunkOffset n ch (k + 1) = chunkOffset n ch k + (rbPeek n (chunkOffset n ch k) ch).toNat + 1 := rfl

theorem chunkOffset_lt_succ (k : Nat) : chunkOffset n ch k < chunkOffset n ch (k + 1) := by
  rw [chunkOffset_succ]; omega

theorem chunkOffset_mono {j m : Nat} (h : j ≤ m) : chunkOffset n ch j ≤ chunkOffset n ch m := by
  induction m with
  | zero => exact Nat.le_of_eq (congrArg (chunkOffset n ch) (Nat.le_zero.1 h))
  | succ m ih =>
    rcases Nat.lt_or_eq_of_le h with h | h
    · exact Nat.le_trans (ih (Nat.lt_succ_iff.1 h)) (Nat.le_of_lt (chunkOffset_lt_succ m))
    · exact Nat.le_of_eq (congrArg (chunkOffset n ch) h)

/-- Offsets depend on the bytes of the chunks before them only. -/
theorem chunkOffset_congr {m : Nat} (h : ∀ k, k < chunkOffset n a m → rbPeek n k b = rbPeek n k a) :
    ∀ j, j ≤ m → chunkOffset n b j = chunkOffset n a j := by
  intro j
  induction j with
  | zero => intro _; rfl
  | succ j ih =>
    intro hj
    have e := ih (by omega)
    have hlt : chunkOffset n a j < chunkOffset n a m :=
      Nat.lt_of_lt_of_le (chunkOffset_lt_succ j) (chunkOffset_mono hj)
    rw [chunkOffset_succ, chunkOffset_succ, e, h _ hlt]

/-- The committed chunks depend on their own bytes only. -/
theorem chunkContent_congr {m : Nat} (h : ∀ k, k < chunkOffset n a m → rbPeek n k b = rbPeek n k a) (j : Nat)
    (hj : j < m) : chunkContent n b j = chunkContent n a j := by
  have ho := chunkOffset_congr h j (Nat.le_of_lt hj)
  have hm : chunkOffset n a (j + 1) ≤ chunkOffset n a m := chunkOffset_mono hj
  rw [chunkOffset_succ] at hm
  have hp : rbPeek n (chunkOffset n a j) b = rbPeek n (chunkOffset n a j) a := h _ (by omega)
  unfold chunkContent storedBytes
  rw [ho, hp]
  refine List.map_congr_left ?_
  intro i hi
  have hi' := List.mem_range.1 hi
  exact h _ (by omega)

theorem committed_congr (hn : b.nchunks = a.nchunks)
    (h : ∀ k, k < chunkOffset n a a.nchunks → rbPeek n k b = rbPeek n k a) : committed n b = committed n a := by
  unfold committed
  rw [hn]
  exact List.map_congr_left fun j hj => chunkContent_congr h j (List.mem_range.1 hj)

/-! ### Bytes within the capacity -/

/-- Two offsets below the capacity name the same index only if they are equal. -/
theorem mod_ne {rd k c : Nat} (hk : k < c) (hc : c < n) : (rd + k) % n ≠ (rd + c) % n := by
  intro h
  have h1 := Nat.div_add_mod (rd + k) n
  have h2 := Nat.div_add_mod (rd + c) n
  rw [h] at h1
  have h3 : n * ((rd + c) / n) = n * ((rd + k) / n) + (c - k) := by omega
  have h4 : n * ((rd + c) / n - (rd + k) / n) = c - k := by rw [Nat.mul_sub]; omega
  rcases Nat.eq_zero_or_pos ((rd + c) / n - (rd + k) / n) with h5 | h5
  · rw [h5] at h4; omega
  · have := Nat.le_mul_of_pos_right n h5
    omega

theorem rbPeek_write_ne {i k : Nat} {v : Byte} (h : (ch.rd + k) % n ≠ i) :
    rbPeek n k { ch with buf := ch.buf.write i v } = rbPeek n k ch := by
  simp [rbPeek, Channel.byteAt, h]

/-! ### The invariant -/

namespace Channel.Inv

theorem pos (h : ch.Inv n) : 0 < n := Nat.lt_of_le_of_lt (Nat.zero_le _) h.rdRange

theorem committed_le (h : ch.Inv n) : chunkOffset n ch ch.nchunks ≤ ch.count := by
  rw [h.countSum]; exact Nat.le_add_right _ _

end Channel.Inv

/-- The oldest chunk's length byte is a stored byte. -/
theorem Channel.Inv.first_stored (h : ch.Inv n) (h1 : 1 ≤ ch.nchunks) : 0 < ch.count := by
  have h2 := chunkOffset_mono (n := n) (ch := ch) h1
  have h3 : 0 < chunkOffset n ch 1 := chunkOffset_lt_succ 0
  have h4 := h.committed_le
  omega

/-- `ChunkStart` keeps every byte stored before it (20_memory.md R75). -/
theorem rbPeek_chunkStart (hr : ch.wr = (ch.rd + ch.count) % n) {k : Nat} (hk : k < ch.count) :
    rbPeek n k (chunkStart n ch) = rbPeek n k ch := by
  by_cases h : ch.count < n
  · have := mod_ne (rd := ch.rd) hk h
    rw [chunkStart_room n ch h, hr, Nat.mod_mod]
    simp [rbPeek, Channel.byteAt, this]
  · rw [chunkStart_full n ch h]; rfl

/-- `ChunkPut` keeps every byte stored before it (20_memory.md R75). -/
theorem rbPeek_chunkPut (v : Byte) (hr : ch.wr = (ch.rd + ch.count) % n) {k : Nat} (hk : k < ch.count) :
    rbPeek n k (chunkPut n v ch) = rbPeek n k ch := by
  rcases chunkPut_cases n ch v with ⟨_, e⟩ | ⟨_, _, e⟩ | ⟨_, _, h, e⟩
  · rw [e]
  · rw [e]; rfl
  · have := mod_ne (rd := ch.rd) hk h
    rw [e, hr, Nat.mod_mod]
    simp [rbPeek, Channel.byteAt, this]

@[simp] theorem rbPeek_chunkAbort (k : Nat) : rbPeek n k (chunkAbort ch) = rbPeek n k ch := rfl

@[simp] theorem nchunks_chunkStart : (chunkStart n ch).nchunks = ch.nchunks := by
  by_cases h : ch.count < n <;> simp [chunkStart, rbPut, h]

@[simp] theorem nchunks_chunkPut (v : Byte) : (chunkPut n v ch).nchunks = ch.nchunks := by
  rcases chunkPut_cases n ch v with ⟨_, e⟩ | ⟨_, _, e⟩ | ⟨_, _, _, e⟩ <;> rw [e]

@[simp] theorem nchunks_chunkAbort : (chunkAbort ch).nchunks = ch.nchunks := rfl

/-- Opening a chunk shows the reader nothing (20_memory.md R88). -/
theorem committed_chunkStart (h : ch.Inv n) : committed n (chunkStart n ch) = committed n ch :=
  committed_congr nchunks_chunkStart fun _ hk =>
    rbPeek_chunkStart h.wrPlace (Nat.lt_of_lt_of_le hk h.committed_le)

/-- Appending to a chunk shows the reader nothing (20_memory.md R88). -/
theorem committed_chunkPut (v : Byte) (h : ch.Inv n) : committed n (chunkPut n v ch) = committed n ch :=
  committed_congr (nchunks_chunkPut v) fun _ hk =>
    rbPeek_chunkPut v h.wrPlace (Nat.lt_of_lt_of_le hk h.committed_le)

/-- Discarding a chunk shows the reader nothing (40_channel.md R169). -/
@[simp] theorem committed_chunkAbort : committed n (chunkAbort ch) = committed n ch :=
  committed_congr nchunks_chunkAbort fun _ _ => rfl

theorem inv_chunkStart (h : ch.Inv n) (hw : ch.writing = false) : (chunkStart n ch).Inv n := by
  have hn := h.pos
  have hsum : ch.count = chunkOffset n ch ch.nchunks := by have := h.countSum; simpa [hw] using this
  have hoff : chunkOffset n (chunkStart n ch) ch.nchunks = chunkOffset n ch ch.nchunks :=
    chunkOffset_congr (fun k hk => rbPeek_chunkStart h.wrPlace (by omega)) _ (Nat.le_refl _)
  have hpk : 1 ≤ ch.nchunks → rbPeek n 0 (chunkStart n ch) = rbPeek n 0 ch := fun h1 =>
    rbPeek_chunkStart h.wrPlace (h.first_stored h1)
  by_cases hc : ch.count < n
  · have e := chunkStart_room n ch hc
    rw [e] at hoff hpk ⊢
    exact
      { bufCanonical := Memory.wf_write _ _ _ h.bufCanonical
        bufBelow := Memory.below_write _ _ _ _ (Nat.mod_lt _ hn) h.bufBelow
        rdRange := h.rdRange
        wrRange := Nat.mod_lt _ hn
        wstartRange := h.wrRange
        countRange := hc
        countSum := by simp only [hoff]; simp; omega
        wrPlace := by simp only; rw [h.wrPlace, Nat.mod_add_mod, Nat.add_assoc]
        wstartPlace := fun _ => by simp only [hoff]; rw [h.wrPlace, hsum]
        readOpen := fun ho => ⟨(h.readOpen ho).1, by rw [hpk (h.readOpen ho).1]; exact (h.readOpen ho).2.1,
          (h.readOpen ho).2.2⟩
        readClosed := h.readClosed
        writeClosed := fun hf => by simp at hf
        writeOpen := fun _ _ => Nat.le_refl _ }
  · have e := chunkStart_full n ch hc
    rw [e] at hoff hpk ⊢
    exact
      { bufCanonical := h.bufCanonical
        bufBelow := h.bufBelow
        rdRange := h.rdRange
        wrRange := h.wrRange
        wstartRange := h.wrRange
        countRange := h.countRange
        countSum := by simp only [hoff]; simp; omega
        wrPlace := h.wrPlace
        wstartPlace := fun _ => by simp only [hoff]; rw [h.wrPlace, hsum]
        readOpen := fun ho => ⟨(h.readOpen ho).1, by rw [hpk (h.readOpen ho).1]; exact (h.readOpen ho).2.1,
          (h.readOpen ho).2.2⟩
        readClosed := h.readClosed
        writeClosed := fun hf => by simp at hf
        writeOpen := fun _ hl => by simp at hl }

theorem inv_chunkPut (v : Byte) (h : ch.Inv n) (hw : ch.writing = true) : (chunkPut n v ch).Inv n := by
  have hn := h.pos
  have hle := h.committed_le
  have hoff : chunkOffset n (chunkPut n v ch) ch.nchunks = chunkOffset n ch ch.nchunks :=
    chunkOffset_congr (fun k hk => rbPeek_chunkPut v h.wrPlace (by omega)) _ (Nat.le_refl _)
  have hpk : 1 ≤ ch.nchunks → rbPeek n 0 (chunkPut n v ch) = rbPeek n 0 ch := fun h1 =>
    rbPeek_chunkPut v h.wrPlace (h.first_stored h1)
  have hsum : ch.count = chunkOffset n ch ch.nchunks + ch.wbytes := by have := h.countSum; simpa [hw] using this
  rcases chunkPut_cases n ch v with ⟨_, e⟩ | ⟨_, _, e⟩ | ⟨hl, _, hc, e⟩
  · rw [e]; exact h
  · rw [e] at hoff hpk ⊢
    exact
      { bufCanonical := h.bufCanonical
        bufBelow := h.bufBelow
        rdRange := h.rdRange
        wrRange := h.wrRange
        wstartRange := h.wstartRange
        countRange := h.countRange
        countSum := by rw [if_pos hw, hoff]; exact hsum
        wrPlace := h.wrPlace
        wstartPlace := fun _ => by simp only [hoff]; exact h.wstartPlace hw
        readOpen := fun ho => ⟨(h.readOpen ho).1, by rw [hpk (h.readOpen ho).1]; exact (h.readOpen ho).2.1,
          (h.readOpen ho).2.2⟩
        readClosed := h.readClosed
        writeClosed := fun hf => by simp [hw] at hf
        writeOpen := fun _ hl => by simp at hl }
  · rw [e] at hoff hpk ⊢
    exact
      { bufCanonical := Memory.wf_write _ _ _ h.bufCanonical
        bufBelow := Memory.below_write _ _ _ _ (Nat.mod_lt _ hn) h.bufBelow
        rdRange := h.rdRange
        wrRange := Nat.mod_lt _ hn
        wstartRange := h.wstartRange
        countRange := hc
        countSum := by rw [if_pos hw, hoff]; simp only; omega
        wrPlace := by simp only; rw [h.wrPlace, Nat.mod_add_mod, Nat.add_assoc]
        wstartPlace := fun _ => by simp only [hoff]; exact h.wstartPlace hw
        readOpen := fun ho => ⟨(h.readOpen ho).1, by rw [hpk (h.readOpen ho).1]; exact (h.readOpen ho).2.1,
          (h.readOpen ho).2.2⟩
        readClosed := h.readClosed
        writeClosed := fun hf => by simp [hw] at hf
        writeOpen := fun _ _ => by simp }

theorem inv_chunkAbort (h : ch.Inv n) (hw : ch.writing = true) : (chunkAbort ch).Inv n := by
  have hsum : ch.count = chunkOffset n ch ch.nchunks + ch.wbytes := by have := h.countSum; simpa [hw] using this
  have hoff : chunkOffset n (chunkAbort ch) ch.nchunks = chunkOffset n ch ch.nchunks :=
    chunkOffset_congr (m := ch.nchunks) (fun k _ => rbPeek_chunkAbort k) _ (Nat.le_refl _)
  have hcount : (chunkAbort ch).count = chunkOffset n ch ch.nchunks := by
    show ch.count - ch.wbytes = _; omega
  exact
    { bufCanonical := h.bufCanonical
      bufBelow := h.bufBelow
      rdRange := h.rdRange
      wrRange := h.wstartRange
      wstartRange := h.wstartRange
      countRange := Nat.le_trans (Nat.sub_le _ _) h.countRange
      countSum := by
        rw [hcount]; show _ = chunkOffset n (chunkAbort ch) ch.nchunks + _
        rw [hoff]; simp [chunkAbort]
      wrPlace := by rw [hcount]; exact h.wstartPlace hw
      wstartPlace := fun hf => by simp [chunkAbort] at hf
      readOpen := h.readOpen
      readClosed := h.readClosed
      writeClosed := fun _ => ⟨rfl, rfl⟩
      writeOpen := fun hf => by simp [chunkAbort] at hf }

/-! ### Committing the open chunk -/

/-- The open chunk of a channel that is not lost: where it starts and how much room it leaves. -/
theorem Channel.Inv.open_chunk (h : ch.Inv n) (hw : ch.writing = true) (hl : ch.wlost = false) :
    ch.count = chunkOffset n ch ch.nchunks + ch.wbytes ∧ 1 ≤ ch.wbytes ∧ chunkOffset n ch ch.nchunks < n
      ∧ ch.wstart % n = (ch.rd + chunkOffset n ch ch.nchunks) % n := by
  have hsum : ch.count = chunkOffset n ch ch.nchunks + ch.wbytes := by have := h.countSum; simpa [hw] using this
  have h1 := h.writeOpen hw hl
  have h2 := h.countRange
  exact ⟨hsum, h1, by omega, by rw [h.wstartPlace hw, Nat.mod_mod]⟩

/-- Committing keeps every byte of the chunks committed before. -/
theorem rbPeek_chunkEnd (h : ch.Inv n) (hw : ch.writing = true) {k : Nat}
    (hk : k < chunkOffset n ch ch.nchunks) : rbPeek n k (chunkEnd n ch) = rbPeek n k ch := by
  by_cases hl : ch.wlost = true
  · rw [chunkEnd_lost n ch hl]; rfl
  · have hl : ch.wlost = false := by simpa using hl
    obtain ⟨_, _, hn, hs⟩ := h.open_chunk hw hl
    have := mod_ne (rd := ch.rd) hk hn
    rw [chunkEnd_commits n ch hl, hs]
    simp [rbPeek, Channel.byteAt, this]

/-- Committing patches the length byte (40_channel.md R156). -/
theorem rbPeek_chunkEnd_length (h : ch.Inv n) (hw : ch.writing = true) (hl : ch.wlost = false) :
    rbPeek n (chunkOffset n ch ch.nchunks) (chunkEnd n ch) = BitVec.ofNat 8 (ch.wbytes - 1) := by
  obtain ⟨_, _, _, hs⟩ := h.open_chunk hw hl
  rw [chunkEnd_commits n ch hl, hs]
  simp [rbPeek, Channel.byteAt]

/-- Committing keeps the content of the chunk. -/
theorem rbPeek_chunkEnd_content (h : ch.Inv n) (hw : ch.writing = true) (hl : ch.wlost = false) {i : Nat}
    (hi : i < ch.wbytes - 1) :
    rbPeek n (chunkOffset n ch ch.nchunks + 1 + i) (chunkEnd n ch) = ch.byteAt n (ch.wstart + 1 + i) := by
  obtain ⟨hc, _, _, hs⟩ := h.open_chunk hw hl
  have hr := h.countRange
  have hne := mod_ne (n := n) (rd := ch.rd) (k := chunkOffset n ch ch.nchunks)
    (c := chunkOffset n ch ch.nchunks + 1 + i) (by omega) (by omega)
  have hplace : (ch.wstart + 1 + i) % n = (ch.rd + (chunkOffset n ch ch.nchunks + 1 + i)) % n := by
    rw [h.wstartPlace hw, Nat.add_assoc, Nat.mod_add_mod]; congr 1; omega
  rw [chunkEnd_commits n ch hl, hs]
  simp only [rbPeek, Channel.byteAt, Memory.read_write, if_neg (Ne.symm hne), hplace]

theorem chunkOffset_chunkEnd (h : ch.Inv n) (hw : ch.writing = true) {j : Nat} (hj : j ≤ ch.nchunks) :
    chunkOffset n (chunkEnd n ch) j = chunkOffset n ch j :=
  chunkOffset_congr (m := ch.nchunks) (fun _ hk => rbPeek_chunkEnd h hw hk) j hj

/-- A chunk that is not lost is committed with the content written, after the chunks before it (40_channel.md R156,
20_memory.md R88). -/
theorem committed_chunkEnd (h : ch.Inv n) (hw : ch.writing = true) (hl : ch.wlost = false) (hn : n ≤ 256) :
    committed n (chunkEnd n ch) = committed n ch ++ [openContent n ch] := by
  obtain ⟨hc, h1, _, _⟩ := h.open_chunk hw hl
  have hr := h.countRange
  have hlen : (BitVec.ofNat 8 (ch.wbytes - 1)).toNat = ch.wbytes - 1 := by
    rw [BitVec.toNat_ofNat]; exact Nat.mod_eq_of_lt (by omega)
  have hnc : (chunkEnd n ch).nchunks = ch.nchunks + 1 := by rw [chunkEnd_commits n ch hl]
  have hlast : chunkContent n (chunkEnd n ch) ch.nchunks = openContent n ch := by
    unfold chunkContent storedBytes openContent
    rw [chunkOffset_chunkEnd h hw (Nat.le_refl _), rbPeek_chunkEnd_length h hw hl, hlen]
    exact List.map_congr_left fun i hi => rbPeek_chunkEnd_content h hw hl (List.mem_range.1 hi)
  have hfirst : (List.range ch.nchunks).map (chunkContent n (chunkEnd n ch)) = committed n ch :=
    List.map_congr_left fun j hj =>
      chunkContent_congr (fun _ hk => rbPeek_chunkEnd h hw hk) j (List.mem_range.1 hj)
  show (List.range (chunkEnd n ch).nchunks).map (chunkContent n (chunkEnd n ch)) = _
  rw [hnc, List.range_succ, List.map_append, hfirst, List.map_singleton, hlast]

/-- A lost chunk shows the reader nothing (40_channel.md R153, R156). -/
theorem committed_chunkEnd_lost (hl : ch.wlost = true) : committed n (chunkEnd n ch) = committed n ch := by
  rw [chunkEnd_lost n ch hl]; exact committed_chunkAbort

theorem inv_chunkEnd (h : ch.Inv n) (hw : ch.writing = true) (hn : n ≤ 256) : (chunkEnd n ch).Inv n := by
  by_cases hl : ch.wlost = true
  · rw [chunkEnd_lost n ch hl]; exact inv_chunkAbort h hw
  · have hl : ch.wlost = false := by simpa using hl
    obtain ⟨hc, h1, _, _⟩ := h.open_chunk hw hl
    have hr := h.countRange
    have hlen : (BitVec.ofNat 8 (ch.wbytes - 1)).toNat = ch.wbytes - 1 := by
      rw [BitVec.toNat_ofNat]; exact Nat.mod_eq_of_lt (by omega)
    have hoff : chunkOffset n (chunkEnd n ch) (ch.nchunks + 1) = ch.count := by
      rw [chunkOffset_succ, chunkOffset_chunkEnd h hw (Nat.le_refl _), rbPeek_chunkEnd_length h hw hl, hlen]; omega
    have hpk : 1 ≤ ch.nchunks → rbPeek n 0 (chunkEnd n ch) = rbPeek n 0 ch := fun h2 =>
      rbPeek_chunkEnd h hw (Nat.lt_of_lt_of_le (chunkOffset_lt_succ (n := n) (ch := ch) 0) (chunkOffset_mono h2))
    have e := chunkEnd_commits n ch hl
    rw [e] at hoff hpk ⊢
    exact
      { bufCanonical := Memory.wf_write _ _ _ h.bufCanonical
        bufBelow := Memory.below_write _ _ _ _ (Nat.mod_lt _ h.pos) h.bufBelow
        rdRange := h.rdRange
        wrRange := h.wrRange
        wstartRange := h.wstartRange
        countRange := h.countRange
        countSum := by simp only [hoff]; simp
        wrPlace := h.wrPlace
        wstartPlace := fun hf => by simp at hf
        readOpen := fun ho => ⟨by simp, by rw [hpk (h.readOpen ho).1]; exact (h.readOpen ho).2.1, (h.readOpen ho).2.2⟩
        readClosed := h.readClosed
        writeClosed := fun _ => ⟨rfl, hl⟩
        writeOpen := fun hf => by simp at hf }

/-! ### Reading the oldest chunk -/

theorem inv_readStart (h : ch.Inv n) (h1 : ch.nchunks ≠ 0) : (readStart n ch).Inv n :=
  { bufCanonical := h.bufCanonical
    bufBelow := h.bufBelow
    rdRange := h.rdRange
    wrRange := h.wrRange
    wstartRange := h.wstartRange
    countRange := h.countRange
    countSum := by
      have := chunkOffset_congr (n := n) (a := ch) (b := readStart n ch) (m := ch.nchunks) (fun _ _ => rfl) ch.nchunks
        (Nat.le_refl _)
      show ch.count = chunkOffset n (readStart n ch) ch.nchunks + _
      rw [this]; exact h.countSum
    wrPlace := h.wrPlace
    wstartPlace := fun hw => by
      have := chunkOffset_congr (n := n) (a := ch) (b := readStart n ch) (m := ch.nchunks) (fun _ _ => rfl) ch.nchunks
        (Nat.le_refl _)
      show ch.wstart = (ch.rd + chunkOffset n (readStart n ch) ch.nchunks) % n
      rw [this]; exact h.wstartPlace hw
    readOpen := fun _ => ⟨Nat.one_le_iff_ne_zero.2 h1, rfl, Nat.zero_le _⟩
    readClosed := fun hf => by simp [readStart] at hf
    writeClosed := h.writeClosed
    writeOpen := h.writeOpen }

/-- Opening a chunk for reading releases nothing (20_memory.md R89). -/
@[simp] theorem committed_readStart : committed n (readStart n ch) = committed n ch :=
  committed_congr rfl fun _ _ => rfl

/-- After a release the bytes are those after the released chunk. -/
theorem rbPeek_readEnd (k : Nat) : rbPeek n k (readEnd n ch) = rbPeek n (ch.rlen + 1 + k) ch := by
  simp only [rbPeek, Channel.byteAt, readEnd, rbDrop]
  rw [Nat.mod_add_mod, Nat.add_assoc]

theorem chunkOffset_readEnd (h : ch.Inv n) (ho : ch.ropen = true) (j : Nat) :
    ch.rlen + 1 + chunkOffset n (readEnd n ch) j = chunkOffset n ch (j + 1) := by
  induction j with
  | zero => rw [chunkOffset_succ, chunkOffset_zero, chunkOffset_zero, (h.readOpen ho).2.1]; omega
  | succ j ih =>
    rw [chunkOffset_succ, chunkOffset_succ (ch := ch), ← ih, rbPeek_readEnd]; omega

/-- A release takes the oldest chunk away and leaves the others in order (20_memory.md R89). -/
theorem committed_readEnd (h : ch.Inv n) (ho : ch.ropen = true) :
    committed n (readEnd n ch) = (committed n ch).tail := by
  have h1 := (h.readOpen ho).1
  have hc : ∀ j, chunkContent n (readEnd n ch) j = chunkContent n ch (j + 1) := by
    intro j
    unfold chunkContent storedBytes
    rw [rbPeek_readEnd, chunkOffset_readEnd h ho]
    refine List.map_congr_left fun i _ => ?_
    rw [rbPeek_readEnd, ← chunkOffset_readEnd h ho]; congr 1; omega
  obtain ⟨m, hm⟩ : ∃ m, ch.nchunks = m + 1 := ⟨ch.nchunks - 1, by omega⟩
  have hm' : (readEnd n ch).nchunks = m := by show ch.nchunks - 1 = m; omega
  unfold committed
  rw [hm, hm', List.range_succ_eq_map, List.map_cons, List.tail_cons, List.map_map]
  exact List.map_congr_left fun j _ => hc j

theorem inv_readEnd (h : ch.Inv n) (ho : ch.ropen = true) : (readEnd n ch).Inv n := by
  have h1 := (h.readOpen ho).1
  have hlen := (h.readOpen ho).2.1
  have hn := h.pos
  obtain ⟨m, hm⟩ : ∃ m, ch.nchunks = m + 1 := ⟨ch.nchunks - 1, by omega⟩
  have hm' : (readEnd n ch).nchunks = m := by show ch.nchunks - 1 = m; omega
  have hoff := chunkOffset_readEnd h ho m
  rw [← hm] at hoff
  have hle := h.committed_le
  have hcount : (readEnd n ch).count = ch.count - (ch.rlen + 1) := rfl
  exact
    { bufCanonical := h.bufCanonical
      bufBelow := h.bufBelow
      rdRange := Nat.mod_lt _ hn
      wrRange := h.wrRange
      wstartRange := h.wstartRange
      countRange := Nat.le_trans (Nat.sub_le _ _) h.countRange
      countSum := by
        have hs := h.countSum
        rw [hm', hcount]
        show _ = _ + (if ch.writing = true then ch.wbytes else 0)
        omega
      wrPlace := by
        show ch.wr = ((ch.rd + (ch.rlen + 1)) % n + (ch.count - (ch.rlen + 1))) % n
        rw [h.wrPlace, Nat.mod_add_mod]; congr 1; omega
      wstartPlace := fun hw => by
        show ch.wstart = ((ch.rd + (ch.rlen + 1)) % n + chunkOffset n (readEnd n ch) (readEnd n ch).nchunks) % n
        rw [h.wstartPlace hw, hm', Nat.mod_add_mod]; congr 1; omega
      readOpen := fun hf => by simp [readEnd] at hf
      readClosed := fun _ => ⟨rfl, rfl⟩
      writeClosed := h.writeClosed
      writeOpen := h.writeOpen }

end Sys2Proof.Machine
end

