-- ==== Sys2Proof/Laws/Decode.lean ====
section
/-! SUPPORT. The fields of a command word put together from its fields, and decoding such a word. -/

namespace Sys2Proof

variable (unit op : Nibble) (imm8 : Byte) (data : Word)

/-- The bits of a command word, by field. -/
theorem word_bits (i : Nat) :
    BitVec.getLsbD (w := 16) (unit ++ op ++ imm8) i
      = if i < 8 then imm8.getLsbD i else if i < 12 then op.getLsbD (i - 8) else unit.getLsbD (i - 12) := by
  have h : BitVec.getLsbD (w := 4 + 4 + 8) (unit ++ op ++ imm8) i
      = if i < 8 then imm8.getLsbD i else if i < 12 then op.getLsbD (i - 8) else unit.getLsbD (i - 12) := by
    have e1 : i - 8 - 4 = i - 12 := by omega
    rw [BitVec.getLsbD_append, BitVec.getLsbD_append]
    by_cases h8 : i < 8
    · simp [h8]
    · by_cases h12 : i < 12
      · have : i - 8 < 4 := by omega
        simp [h8, h12, this]
      · have : ¬i - 8 < 4 := by omega
        simp [h8, h12, this, e1]
  exact h

theorem unitField_append : unitField (unit ++ op ++ imm8) = unit := by
  ext i hi
  have h1 : ¬12 + i < 8 := by omega
  have h2 : ¬12 + i < 12 := by omega
  have h3 : 12 + i - 12 = i := by omega
  simp only [unitField, BitVec.getElem_extractLsb', word_bits, h1, h2, h3, if_false]
  exact BitVec.getLsbD_eq_getElem hi

theorem opField_append : opField (unit ++ op ++ imm8) = op := by
  ext i hi
  have h1 : ¬8 + i < 8 := by omega
  have h2 : 8 + i < 12 := by omega
  have h3 : 8 + i - 8 = i := by omega
  simp only [opField, BitVec.getElem_extractLsb', word_bits, h1, h2, h3, if_false, if_true]
  exact BitVec.getLsbD_eq_getElem hi

theorem imm8Field_append : imm8Field (unit ++ op ++ imm8) = imm8 := by
  ext i hi
  simp only [imm8Field, BitVec.getElem_extractLsb', word_bits, Nat.zero_add, hi, if_true]
  exact BitVec.getLsbD_eq_getElem hi

/-- Decoding a word by its fields (30_encoding.md R102, R103). -/
theorem decode_append :
    decode (unit ++ op ++ imm8) data
      = (match unit.toNat with
        | 0x0 => decodeChannel .ch0 unit op imm8
        | 0x1 => decodeChannel .ch1 unit op imm8
        | 0x2 => decodeChannel .ch2 unit op imm8
        | 0x3 => decodeReceiver unit op imm8
        | 0x4 => decodePulse unit op imm8 data
        | 0x5 => decodeEncoder unit op imm8 data
        | 0x6 => decodeDecoder unit op imm8
        | 0xF => decodeControl unit op imm8
        | _ => .error (.reservedUnit unit)) := by
  unfold decode
  rw [unitField_append, opField_append, imm8Field_append] <;> rfl

end Sys2Proof
end

