-- ==== Sys2Proof/Laws/HostDecode.lean ====
section
/-! SUPPORT. What one command of a host's decode gives the host: the reply of a good read, the reply of a failed one, and
the final status. -/

namespace Sys2Proof.Machine

variable {α : Type} {i : Instr} {k : State → HostAnswer α} {s t : State}

/-- Every command answers a next state, and the host goes on from it. -/
theorem issueThen_next (h : exec i s = .next t) : issueThen i k s = k t := by simp [issueThen, h]

/-- `DEC_STATUS` keeps the answer exactly when the decode is open and good. -/
theorem checkStatus_eq (answer : Option α) :
    checkStatus answer s
      = .next (s.setResult (boolWord (s.decOpen && s.decOk)), if s.decOpen && s.decOk then answer else none) := by
  cases hb : s.decOpen && s.decOk <;> simp [checkStatus, issueThen, exec, execDecStatus, State.setResult, boolWord, hb]

/-- `DEC_REMAIN` of an open decode. -/
theorem issueThen_decRemain (h : s.decOpen = true) :
    issueThen .decRemain k s = k (s.setResult (BitVec.ofNat 32 (s.decLen - s.decPos))) :=
  issueThen_next (by simp [exec, execDecRemain, h])

/-- `DEC_VARINT` of a good decode: the value and the cursor past it, or a failure. -/
theorem issueThen_decVarint (h : s.decOpen = true) (hk : s.decOk = true) :
    issueThen .decVarint k s
      = k (match unvarint (s.contentBytes s.decCh s.decPos (s.decLen - s.decPos)) with
        | none => decFail s
        | some (v, n) => decAdvance n v s) :=
  issueThen_next (by
    cases hu : unvarint (s.contentBytes s.decCh s.decPos (s.decLen - s.decPos)) <;>
      simp [exec, execDecVarint, h, hk, hu])

/-- `DEC_FIXED` of a good decode with a legal width: the value and the cursor past it, or a failure. -/
theorem issueThen_decFixed {w : Byte} {n : Nat} (hw : widthOperand w = some n) (h : s.decOpen = true)
    (hk : s.decOk = true) :
    issueThen (.decFixed w) k s
      = k (if s.decPos + n > s.decLen then decFail s
        else decAdvance n (fixedValue (s.contentBytes s.decCh s.decPos n)) s) :=
  issueThen_next (by
    by_cases hl : s.decPos + n > s.decLen
    · have hl' : s.decLen < s.decPos + n := hl
      simp [exec, execDecFixed, hw, h, hk, hl']
    · have hl' : ¬s.decLen < s.decPos + n := hl
      simp [exec, execDecFixed, hw, h, hk, hl'])

/-- A read of a decode that has failed replies 0 and moves nothing, whatever the encoding (44_wire_decoder.md R311). -/
theorem issueThen_readCommand_failed {e : FieldEncoding} (he : e = .varint ∨ e = .fixed 1 ∨ e = .fixed 2 ∨ e = .fixed 4)
    (h : s.decOpen = true) (hk : s.decOk = false) :
    issueThen e.readCommand k s = k (s.setResult 0) := by
  have hf : decFail s = s.setResult 0 := by unfold decFail State.setResult; rw [← hk]
  rcases he with rfl | rfl | rfl | rfl <;>
    exact issueThen_next (by simp [FieldEncoding.readCommand, exec, execDecVarint, execDecFixed, widthOperand, h, hk, hf])

end Sys2Proof.Machine
end

