-- ==== Sys2Proof/Laws/Invariant.lean ====
section
/-! SUPPORT. The invariant as a check that the kernel evaluates, for concrete states. -/

namespace Sys2Proof.Machine

/-- `Channel.Inv`, clause by clause. -/
def Channel.invOk (n : Nat) (ch : Channel) : Bool :=
  ch.buf.wf && ch.buf.below n && decide (ch.rd < n) && decide (ch.wr < n) && decide (ch.wstart < n)
    && decide (ch.count ≤ n)
    && decide (ch.count = chunkOffset n ch ch.nchunks + (if ch.writing then ch.wbytes else 0))
    && decide (ch.wr = (ch.rd + ch.count) % n)
    && decide (ch.writing = true → ch.wstart = (ch.rd + chunkOffset n ch ch.nchunks) % n)
    && decide (ch.ropen = true → 1 ≤ ch.nchunks ∧ ch.rlen = (rbPeek n 0 ch).toNat ∧ ch.rpos ≤ ch.rlen)
    && decide (ch.ropen = false → ch.rlen = 0 ∧ ch.rpos = 0)
    && decide (ch.writing = false → ch.wbytes = 0 ∧ ch.wlost = false)
    && decide (ch.writing = true → ch.wlost = false → 1 ≤ ch.wbytes)

theorem Channel.inv_of_ok {n : Nat} {ch : Channel} (h : ch.invOk n = true) : ch.Inv n := by
  simp only [Channel.invOk, Bool.and_eq_true, decide_eq_true_eq] at h
  obtain ⟨⟨⟨⟨⟨⟨⟨⟨⟨⟨⟨⟨h1, h2⟩, h3⟩, h4⟩, h5⟩, h6⟩, h7⟩, h8⟩, h9⟩, h10⟩, h11⟩, h12⟩, h13⟩ := h
  exact ⟨h1, h2, h3, h4, h5, h6, h7, h8, h9, h10, h11, h12, h13⟩

/-- The causes of 60_exceptions.md R400. -/
def FaultCause.all : List FaultCause :=
  [.illegalCommand, .nestedWriteStart, .noOpenChunk, .channelOwned, .readEmpty, .readAlreadyOpen, .readNotOpen,
    .readPastEnd, .badOperand, .encAlreadyOpen, .encNotOpen, .decNoSource, .decNotOpen]

/-- `FAULT` is 0, or a word that recording a fault writes. -/
def faultOk (w : Word) : Bool :=
  w == 0 || FaultCause.all.any (fun cause => w == faultWord (w.extractLsb' 12 4) (w.extractLsb' 8 4) cause)

/-- `rxRemOk`, evaluated. -/
def rxRemOkB (maxLen : Nat) (st : RxState) (rem : Nat) : Bool :=
  match st with
  | .idle => decide (rem = 0)
  | .length => decide (rem = 0)
  | .data => decide (1 ≤ rem ∧ rem ≤ maxLen + 2)

/-- `pdCountersOk`, evaluated. -/
def pdCountersOkB (s : State) : Bool :=
  match s.pdPhase with
  | .hunt => decide (s.pdBits = 0 ∧ s.pdShift = 0 ∧ s.pdCount = 0 ∧ s.pdExpect = 5)
  | .data =>
    decide (s.pdBits ≤ 8 ∧ s.pdCount < s.pdExpect ∧ (s.pdExpect = 5 ∨ s.pdExpect = 6)
      ∧ (s.pdCount < 4 → s.pdExpect = 5))

/-- `State.Inv`, clause by clause. -/
def State.invOk (s : State) : Bool :=
  s.cfg.wf && s.ch0.invOk s.cfg.n0 && s.ch1.invOk s.cfg.n1 && s.ch2.invOk s.cfg.n2
    && decide (s.ctrl &&& 0xFE = 0) && faultOk s.fault
    && decide (s.ch0.writing = true ↔ s.rxState ≠ .idle) && rxRemOkB s.cfg.maxLen s.rxState s.rxRem
    && decide (s.ch1.writing = true ↔ s.pdPhase = .data) && pdCountersOkB s
    && decide (s.encOpen = true → s.ch2.writing = true ∧ s.encValid = !s.ch2.wlost)
    && decide (s.encOpen = false → s.encValid = false)
    && decide (s.decOpen = true → (s.chan s.decCh).ropen = true ∧ s.decPos ≤ (s.chan s.decCh).rlen)
    && decide (s.decPos ≤ 255)

theorem faultWord_reserved (unit op : Nibble) (cause : FaultCause) : faultWord unit op cause >>> 17 = 0 := by
  cases cause <;> revert unit op <;> decide

theorem State.inv_of_ok {s : State} (h : s.invOk = true) : s.Inv := by
  simp only [State.invOk, Bool.and_eq_true, decide_eq_true_eq] at h
  obtain ⟨⟨⟨⟨⟨⟨⟨⟨⟨⟨⟨⟨⟨h1, h2⟩, h3⟩, h4⟩, h5⟩, h6⟩, h7⟩, h8⟩, h9⟩, h10⟩, h11⟩, h12⟩, h13⟩, h14⟩ := h
  have hf : s.fault = 0 ∨ ∃ unit op cause, s.fault = faultWord unit op cause := by
    simp only [faultOk, Bool.or_eq_true, beq_iff_eq, List.any_eq_true] at h6
    exact h6.imp id (fun ⟨cause, _, e⟩ => ⟨_, _, cause, e⟩)
  have hrx : rxRemOk s.cfg.maxLen s.rxState s.rxRem := by
    cases hs : s.rxState <;> simpa [rxRemOk, rxRemOkB, hs] using h8
  have hpd : pdCountersOk s := by
    cases hs : s.pdPhase <;> simp only [pdCountersOk, pdCountersOkB, hs, decide_eq_true_eq] at h10 ⊢ <;> exact h10
  exact
    { config := h1
      channels := fun c => by
        cases c
        · exact Channel.inv_of_ok h2
        · exact Channel.inv_of_ok h3
        · exact Channel.inv_of_ok h4
      ctrlReserved := h5
      faultReserved := by
        rcases hf with e | ⟨unit, op, cause, e⟩
        · rw [e]; decide
        · rw [e]; exact faultWord_reserved unit op cause
      faultUnset := fun hv => by
        rcases hf with e | ⟨unit, op, cause, e⟩
        · exact e
        · rw [e] at hv; simp [faultWord] at hv
      faultSet := fun hv => by
        rcases hf with e | he
        · rw [e] at hv; exact absurd hv (by decide)
        · exact he
      rxWriting := h7
      rxCounter := hrx
      pdWriting := h9
      pdCounters := hpd
      encWriting := h11
      encClosed := h12
      decSource := h13
      decRange := h14 }

end Sys2Proof.Machine
end

