-- ==== Sys2Proof/Laws/PerInstr.lean ====
section
/-! SUPPORT. Statements made of every command, one lemma per constructor. -/

namespace Sys2Proof.Laws.OpcodeListed

/-- The command's `UNIT` and `OP` lie on the map of 30_encoding.md R107: it is none of the illegal ones of R110. -/
def Statement (i : Instr) : Prop :=
  ((unitOf i).toNat ≤ 2 ∧ (opOf i).toNat ≤ 0xA) ∨ ((unitOf i).toNat = 3 ∧ (opOf i).toNat ≤ 2)
    ∨ ((unitOf i).toNat = 4 ∧ (opOf i).toNat ≤ 1) ∨ ((unitOf i).toNat = 5 ∧ (opOf i).toNat ≤ 6)
    ∨ ((unitOf i).toNat = 6 ∧ (opOf i).toNat ≤ 4) ∨ ((unitOf i).toNat = 15 ∧ (opOf i).toNat ≤ 3)

theorem chWriteStart (c : Chan) : Statement (.chWriteStart c) := by cases c <;> simp [Statement, unitOf, opOf, chanUnit]
theorem chWrite (c : Chan) (b : Byte) : Statement (.chWrite c b) := by cases c <;> simp [Statement, unitOf, opOf, chanUnit]
theorem chWriteEnd (c : Chan) : Statement (.chWriteEnd c) := by cases c <;> simp [Statement, unitOf, opOf, chanUnit]
theorem chWriteAbort (c : Chan) : Statement (.chWriteAbort c) := by cases c <;> simp [Statement, unitOf, opOf, chanUnit]
theorem chHasContent (c : Chan) : Statement (.chHasContent c) := by cases c <;> simp [Statement, unitOf, opOf, chanUnit]
theorem chReadStart (c : Chan) : Statement (.chReadStart c) := by cases c <;> simp [Statement, unitOf, opOf, chanUnit]
theorem chRead (c : Chan) : Statement (.chRead c) := by cases c <;> simp [Statement, unitOf, opOf, chanUnit]
theorem chPeek (c : Chan) (k : Byte) : Statement (.chPeek c k) := by cases c <;> simp [Statement, unitOf, opOf, chanUnit]
theorem chReadEnd (c : Chan) : Statement (.chReadEnd c) := by cases c <;> simp [Statement, unitOf, opOf, chanUnit]
theorem chAvail (c : Chan) : Statement (.chAvail c) := by cases c <;> simp [Statement, unitOf, opOf, chanUnit]
theorem chIsWriting (c : Chan) : Statement (.chIsWriting c) := by cases c <;> simp [Statement, unitOf, opOf, chanUnit]
theorem rxStart (h : Byte) : Statement (.rxStart h) := by simp [Statement, unitOf, opOf]
theorem rxByte (b : Byte) : Statement (.rxByte b) := by simp [Statement, unitOf, opOf]
theorem rxIsWriting : Statement .rxIsWriting := by simp [Statement, unitOf, opOf]
theorem pulse (isHigh : Bool) (d : Half) : Statement (.pulse isHigh d) := by simp [Statement, unitOf, opOf]
theorem pdStatus : Statement .pdStatus := by simp [Statement, unitOf, opOf]
theorem encBegin : Statement .encBegin := by simp [Statement, unitOf, opOf]
theorem encFixed (w : Byte) (v : Word) : Statement (.encFixed w v) := by simp [Statement, unitOf, opOf]
theorem encVarint (v : Word) : Statement (.encVarint v) := by simp [Statement, unitOf, opOf]
theorem encTvarint (tag : Byte) (v : Word) : Statement (.encTvarint tag v) := by simp [Statement, unitOf, opOf]
theorem encTfixed32 (tag : Byte) (v : Word) : Statement (.encTfixed32 tag v) := by simp [Statement, unitOf, opOf]
theorem encEnd : Statement .encEnd := by simp [Statement, unitOf, opOf]
theorem encStatus : Statement .encStatus := by simp [Statement, unitOf, opOf]
theorem decBegin (ch : BitVec 2) : Statement (.decBegin ch) := by simp [Statement, unitOf, opOf]
theorem decFixed (w : Byte) : Statement (.decFixed w) := by simp [Statement, unitOf, opOf]
theorem decVarint : Statement .decVarint := by simp [Statement, unitOf, opOf]
theorem decRemain : Statement .decRemain := by simp [Statement, unitOf, opOf]
theorem decStatus : Statement .decStatus := by simp [Statement, unitOf, opOf]
theorem nop : Statement .nop := by simp [Statement, unitOf, opOf]
theorem ctrlRead : Statement .ctrlRead := by simp [Statement, unitOf, opOf]
theorem ctrlWrite (v : Byte) : Statement (.ctrlWrite v) := by simp [Statement, unitOf, opOf]
theorem faultRead : Statement .faultRead := by simp [Statement, unitOf, opOf]

end Sys2Proof.Laws.OpcodeListed
end

