-- ==== Sys2Proof/Tests/Slice0.lean ====
section
/-! SUPPORT. Tests. Expected values are those of spec/95_test_vectors.md and of the worked examples of the rules, or are
computed from the rules by hand; no test is pasted from the model's own answer. The last part gives, for every
obligation with hypotheses, a concrete state and operands that meet them. -/

namespace Sys2Proof.Tests

open Sys2Proof.Machine

/-! ### Small states -/

/-- A channel with an empty chunk open for writing at index 0. -/
def chanOpen : Channel := { Channel.reset with wr := 1, count := 1, writing := true, wbytes := 1 }

/-- A channel holding one committed chunk, `[0x41, 0x42]`. -/
def chanHeld : Channel :=
  { Channel.reset with buf := ⟨[(0, 0x02), (1, 0x41), (2, 0x42)]⟩, wr := 3, count := 3, nchunks := 1 }

/-- The same chunk, open for reading. -/
def chanRead : Channel := { chanHeld with ropen := true, rlen := 2 }

/-- The same chunk, open for reading and read to its end. -/
def chanDone : Channel := { chanRead with rpos := 2 }

/-- Parameters with two-byte channels and the shortest preamble; every bound of 00_scope.md R8 at its least. -/
def tiny : Config :=
  { Config.default with
    n0 := 2, n1 := 2, n2 := 2, maxLen := 0, syncMinZeros := 1, shortMin := 1, shortMax := 1, longMin := 2, longMax := 2 }

/-- A two-byte channel holding one empty chunk: one byte is free. -/
def chanLast : Channel := { Channel.reset with wr := 1, count := 1, nchunks := 1 }

/-- A two-byte channel full of two empty chunks. -/
def chanFull : Channel := { Channel.reset with count := 2, nchunks := 2 }

/-- The reset state with CH2 replaced. -/
def withCh2 (ch : Channel) : State := { State.reset with ch2 := ch }

/-- The reset state of a block with the parameters `tiny` and CH2 replaced. -/
def tinyCh2 (ch : Channel) : State := { State.resetWith tiny with ch2 := ch }

/-- A message open in the encoder. -/
def encoding : State := { withCh2 chanOpen with encOpen := true, encValid := true }

/-- A decode open on the chunk `[0x41, 0x42]` of CH2. -/
def decoding : State := { withCh2 chanRead with decOpen := true, decCh := .ch2, decOk := true }

/-- A frame in progress, its next byte the last but `rem - 1`. -/
def receiving (crc : Half) (rem : Nat) : State :=
  { State.reset with ch0 := chanOpen, rxState := .data, rxCrc := crc, rxRem := rem }

/-- The pulse decoder in `DATA` with `bits` bits shifted in and a high pulse of class `k` held. -/
def hearing (bits : Nat) (shift : BitVec 9) (k : PulseClass) : State :=
  { State.reset with ch1 := chanOpen, pdPhase := .data, pdZeros := 6, pdBits := bits, pdShift := shift, pdPend := some k }

/-- A channel whose one chunk, with this content, is open for reading. -/
def chanReading (content : List Byte) : Channel :=
  { Channel.reset with
    buf := content.zipIdx.foldl (fun m p => m.write (p.2 + 1) p.1) (Memory.empty.write 0 (BitVec.ofNat 8 content.length))
    wr := content.length + 1, count := content.length + 1, nchunks := 1, ropen := true, rlen := content.length }

/-- The record a host decodes by commands from channel `c` when that channel is `ch`. -/
def hostRecord (c : Chan) (d : Descriptor) (ch : Channel) : Option Record :=
  match hostDecode c d (State.reset.setChan c ch) with
  | .next (_, r) => r
  | .fault _ => none
  | .refused _ => none

/-- The state a command answers. -/
def after (i : Instr) (s : State) : Option State :=
  match exec i s with
  | .next t => some t
  | .fault _ => none
  | .refused _ => none

/-- `RESULT` after a command. -/
def resultOf (i : Instr) (s : State) : Option Word := (after i s).map State.result

/-- `FAULT` after a command. -/
def faultOf (i : Instr) (s : State) : Option Word := (after i s).map State.fault

/-! ### Well-formedness: each check refuses an ill-formed term -/

theorem test_wf_width_three : (Instr.encFixed 3 0).wf = false := by decide
theorem test_wf_width_zero : (Instr.decFixed 0).wf = false := by decide
theorem test_wf_tag_zero : (Instr.encTvarint 0 5).wf = false ∧ (Instr.encTfixed32 0 5).wf = false := by decide
theorem test_wf_channel_three : (Instr.decBegin 3).wf = false := by decide
theorem test_wf_legal_operands :
    (Instr.encFixed 1 0).wf = true ∧ (Instr.decFixed 4).wf = true ∧ (Instr.encTvarint 255 0).wf = true
      ∧ (Instr.decBegin 2).wf = true := by decide
theorem test_config_legal : Config.default.wf = true ∧ tiny.wf = true := by decide
theorem test_config_capacity :
    ({ Config.default with n0 := 1 } : Config).wf = false ∧ ({ Config.default with n1 := 257 } : Config).wf = false
      ∧ ({ Config.default with n2 := 256 } : Config).wf = true := by decide
theorem test_config_max_len :
    ({ Config.default with maxLen := 255 } : Config).wf = false
      ∧ ({ Config.default with maxLen := 254 } : Config).wf = true := by decide
theorem test_config_windows :
    ({ Config.default with shortMax := 500 } : Config).wf = false
      ∧ ({ Config.default with shortMin := 0 } : Config).wf = false
      ∧ ({ Config.default with longMin := 751 } : Config).wf = false := by decide
theorem test_config_sync : ({ Config.default with syncMinZeros := 0 } : Config).wf = false := by decide
theorem test_descriptor_tag_twice :
    (Descriptor.mk .tagged [taggedVarint "a" 1 8 false .always, taggedVarint "b" 1 8 false .always]).wf = false := by
  decide
theorem test_descriptor_tagged_width :
    (Descriptor.mk .tagged [⟨"a", .fixed 2, 16, false, some 1, .always⟩]).wf = false := by decide
theorem test_descriptor_sequence_optional :
    (Descriptor.mk .sequence [sequenceByte "a" (.optional "f")]).wf = false := by decide

/-! ### Decoding: one word of every command, written out from 30_encoding.md R102, R103 and R107 -/

theorem test_decode_ch_write_start : decode 0b0010000000000000 0 = .ok (.chWriteStart .ch2) := rfl
theorem test_decode_ch_write : decode 0b0010000101000001 0 = .ok (.chWrite .ch2 0x41) := rfl
theorem test_decode_ch_write_end : decode 0b0001001000000000 0 = .ok (.chWriteEnd .ch1) := rfl
theorem test_decode_ch_write_abort : decode 0b0000001100000000 0 = .ok (.chWriteAbort .ch0) := rfl
theorem test_decode_ch_has_content : decode 0b0010010000000000 0 = .ok (.chHasContent .ch2) := rfl
theorem test_decode_ch_read_start : decode 0b0001010100000000 0 = .ok (.chReadStart .ch1) := rfl
theorem test_decode_ch_read : decode 0b0000011000000000 0 = .ok (.chRead .ch0) := rfl
theorem test_decode_ch_peek : decode 0b0010011100000011 0 = .ok (.chPeek .ch2 3) := rfl
theorem test_decode_ch_read_end : decode 0b0001100000000000 0 = .ok (.chReadEnd .ch1) := rfl
theorem test_decode_ch_avail : decode 0b0000100100000000 0 = .ok (.chAvail .ch0) := rfl
theorem test_decode_ch_is_writing : decode 0b0010101000000000 0 = .ok (.chIsWriting .ch2) := rfl
theorem test_decode_rx_start : decode 0b0011000000000001 0 = .ok (.rxStart 0x01) := rfl
theorem test_decode_rx_byte : decode 0b0011000100111000 0 = .ok (.rxByte 0x38) := rfl
theorem test_decode_rx_is_writing : decode 0b0011001000000000 0 = .ok .rxIsWriting := rfl
theorem test_decode_pulse :
    decode 0b0100000000000001 0x00010190 = .ok (.pulse true 400)
      ∧ decode 0b0100000000000000 600 = .ok (.pulse false 600) := ⟨rfl, rfl⟩
theorem test_decode_pd_status : decode 0b0100000100000000 0 = .ok .pdStatus := rfl
theorem test_decode_enc_begin : decode 0b0101000000000000 0 = .ok .encBegin := rfl
theorem test_decode_enc_fixed : decode 0b0101000100000100 0x12345678 = .ok (.encFixed 4 0x12345678) := rfl
theorem test_decode_enc_varint : decode 0b0101001000000000 300 = .ok (.encVarint 300) := rfl
theorem test_decode_enc_tvarint : decode 0b0101001100000001 7 = .ok (.encTvarint 1 7) := rfl
theorem test_decode_enc_tfixed32 : decode 0b0101010011111111 0xDEADBEEF = .ok (.encTfixed32 255 0xDEADBEEF) := rfl
theorem test_decode_enc_end : decode 0b0101010100000000 0 = .ok .encEnd := rfl
theorem test_decode_enc_status : decode 0b0101011000000000 0 = .ok .encStatus := rfl
theorem test_decode_dec_begin :
    decode 0b0110000000000010 0 = .ok (.decBegin 2) ∧ decode 0b0110000000000110 0 = .ok (.decBegin 2) := ⟨rfl, rfl⟩
theorem test_decode_dec_fixed : decode 0b0110000100000010 0 = .ok (.decFixed 2) := rfl
theorem test_decode_dec_varint : decode 0b0110001000000000 0 = .ok .decVarint := rfl
theorem test_decode_dec_remain : decode 0b0110001100000000 0 = .ok .decRemain := rfl
theorem test_decode_dec_status : decode 0b0110010000000000 0 = .ok .decStatus := rfl
theorem test_decode_nop : decode 0b1111000011111111 0xFFFFFFFF = .ok .nop := rfl
theorem test_decode_ctrl_read : decode 0b1111000100000000 0 = .ok .ctrlRead := rfl
theorem test_decode_ctrl_write : decode 0b1111001011111110 0 = .ok (.ctrlWrite 0xFE) := rfl
theorem test_decode_fault_read : decode 0b1111001100000000 0 = .ok .faultRead := rfl

/-- 95_test_vectors.md V-CT-2. -/
theorem test_decode_reserved :
    decode 0x0B00 0 = .error (.reservedOp 0x0 0xB) ∧ decode 0x3300 0 = .error (.reservedOp 0x3 0x3)
      ∧ decode 0x4200 0 = .error (.reservedOp 0x4 0x2) ∧ decode 0x5700 0 = .error (.reservedOp 0x5 0x7)
      ∧ decode 0x6500 0 = .error (.reservedOp 0x6 0x5) ∧ decode 0xF400 0 = .error (.reservedOp 0xF 0x4)
      ∧ decode 0x7000 0 = .error (.reservedUnit 0x7) ∧ decode 0xE5FF 0 = .error (.reservedUnit 0xE) := ⟨rfl, rfl, rfl, rfl, rfl, rfl, rfl, rfl⟩

/-- `CMD` in bits 15..0 and `DATA` in bits 47..16 (notes/assumptions/13.md). -/
theorem test_table_word : decodeTableWord 48 0x0000012C5301 = some (.encTvarint 1 300) := by decide

/-! ### Channel commands (95_test_vectors.md section 2.4) -/

/-- 40_channel.md R158, example. -/
theorem test_ch_write_start :
    (after (.chWriteStart .ch2) State.reset).map (fun t => t.ch2) = some chanOpen
      ∧ faultOf (.chWriteStart .ch0) State.reset = some 0x10004 := by decide

/-- 40_channel.md R159, example. -/
theorem test_ch_write :
    (after (.chWrite .ch2 0x41) (withCh2 chanOpen)).map (fun t => (t.ch2.buf.read 1, t.ch2.wbytes, t.ch2.count, t.ch2.wr))
        = some (0x41, 2, 2, 2)
      ∧ faultOf (.chWrite .ch1 0) State.reset = some 0x11104 := by decide

/-- V-CH-2, V-CH-3: a zero-length chunk is a chunk; ending none is a fault. -/
theorem test_ch_write_end :
    (after (.chWriteEnd .ch2) (withCh2 chanOpen)).map (fun t => (t.result, t.ch2.nchunks, t.ch2.writing))
        = some (1, 1, false)
      ∧ faultOf (.chWriteEnd .ch2) State.reset = some 0x12203 := by decide

/-- V-CH-6, V-CH-3. -/
theorem test_ch_write_abort :
    (after (.chWriteAbort .ch2) (withCh2 chanOpen)).map (fun t => t.ch2) = some Channel.reset
      ∧ faultOf (.chWriteAbort .ch1) State.reset = some 0x11304 := by decide

theorem test_ch_has_content :
    resultOf (.chHasContent .ch2) (withCh2 chanHeld) = some 1 ∧ resultOf (.chHasContent .ch2) (withCh2 chanOpen) = some 0 := by
  decide

/-- V-CH-1 step 6, V-CH-3. -/
theorem test_ch_read_start :
    resultOf (.chReadStart .ch2) (withCh2 chanHeld) = some 2 ∧ faultOf (.chReadStart .ch2) State.reset = some 0x12505 := by
  decide

/-- V-CH-1 steps 8 and 10. -/
theorem test_ch_read :
    (after (.chRead .ch2) (withCh2 chanRead)).map (fun t => (t.result, t.ch2.rpos)) = some (0x41, 1)
      ∧ faultOf (.chRead .ch2) (withCh2 chanDone) = some 0x12608 := by decide

/-- V-CH-1 step 7, V-CH-3. -/
theorem test_ch_peek :
    resultOf (.chPeek .ch2 1) (withCh2 chanRead) = some 0x42 ∧ faultOf (.chPeek .ch2 0) State.reset = some 0x12707 := by
  decide

/-- V-CH-1 steps 13 to 15: the bytes are free, and `RESULT` keeps its value. A decode on the channel is closed (R166). -/
theorem test_ch_read_end :
    (after (.chReadEnd .ch2) decoding).map (fun t => (t.ch2.count, t.ch2.nchunks, t.ch2.rd, t.decOpen)) = some (0, 0, 3, false)
      ∧ faultOf (.chReadEnd .ch2) State.reset = some 0x12807 := by decide

theorem test_ch_avail :
    resultOf (.chAvail .ch0) State.reset = some 128 ∧ resultOf (.chAvail .ch2) (withCh2 chanHeld) = some 61 := by decide

theorem test_ch_is_writing :
    resultOf (.chIsWriting .ch2) (withCh2 chanOpen) = some 1 ∧ resultOf (.chIsWriting .ch1) State.reset = some 0 := by
  decide

/-! ### CRC receiver (95_test_vectors.md section 2.3) -/

/-- 41_crc_receiver.md R204, example. -/
theorem test_rx_start :
    (after (.rxStart 0x01) State.reset).map (fun t => (t.rxCrc, t.rxState, t.ch0.wbytes, t.ch0.count, t.ch0.buf.read 1))
      = some (0x709F, .length, 2, 2, 0x01) := by decide +kernel

/-- 30_encoding.md R101 with R204's numbers: `GROUP_ID` folded into `CRC_INIT`. -/
theorem test_crc16_upd : crc16Upd 0xA001 0xFFFF 0xD4 = 0x1FBF ∧ crc16Upd 0xA001 0x1FBF 0x01 = 0x709F := by decide

/-- V-RX-1: the CRC of the frame, sent `0x38, 0x67`. -/
theorem test_frame_crc : frameCrc Config.default 0x01 [0x11, 0x22] = 0x6738 := by decide +kernel

/-- The length byte is clamped (R202) and a byte in `IDLE` is ignored (V-RX-9). -/
theorem test_rx_byte :
    (after (.rxByte 67) { State.reset with ch0 := chanOpen, rxState := .length }).map (fun t => (t.rxRem, t.rxState))
        = some (68, .data)
      ∧ (after (.rxByte 0x55) State.reset).map (fun t => (t.rxState, t.ch0.count)) = some (.idle, 0) := by decide

/-- The last CRC byte commits the chunk when checking is disabled, and drops it when the CRC does not match (R203). -/
theorem test_rx_byte_last :
    (after (.rxByte 0x39) { receiving 0x1234 1 with ctrl := 0 }).map (fun t => (t.ch0.nchunks, t.rxState)) = some (1, .idle)
      ∧ (after (.rxByte 0x39) (receiving 0x1234 1)).map (fun t => (t.ch0.nchunks, t.ch0.count)) = some (0, 0) := by decide

theorem test_rx_is_writing :
    resultOf .rxIsWriting (receiving 0 1) = some 1 ∧ resultOf .rxIsWriting State.reset = some 0 := by decide

/-! ### Pulse decoder (95_test_vectors.md section 2.5) -/

theorem test_classify :
    [0, 1, 299, 300, 499, 500, 750, 751, 65535].map (fun d => classify Config.default (BitVec.ofNat 16 d))
      = [none, none, none, some .short, some .short, some .long, some .long, none, none] := by decide

/-- Two high pulses: the second restarts the pair. A mixed pair: nothing is pending. -/
theorem test_pulse :
    (after (.pulse true 600) { State.reset with pdPend := some .short }).map State.pdPend = some (some .long)
      ∧ (after (.pulse false 600) { State.reset with pdPend := some .short }).map State.pdPend = some none := by decide

/-- "sync": six zeros and a 1 bit open CH1; `pdZeros` is kept (`PD_STATUS` 0x00060001). -/
theorem test_pulse_sync :
    (after (.pulse false 600) { State.reset with pdZeros := 6, pdPend := some .long }).map
        (fun t => (pdStatusWord t, t.ch1.writing)) = some (0x00060001, true) := by decide

/-- "lone low in `HUNT`". -/
theorem test_pd_status :
    resultOf .pdStatus { State.reset with pdZeros := 3 } = some 0x00030000
      ∧ resultOf .pdStatus { State.reset with pdPend := some .long } = some 0x00000004 := by decide

/-- The extension table of the default parameters is `(cmd & 0x20) != 0` (00_scope.md R8). -/
theorem test_has_ext :
    (List.range 256).all (fun b =>
      Config.default.hasExt.getLsbD b == decide (BitVec.ofNat 8 b &&& 0x20 ≠ 0)) = true := by decide +kernel

/-- V-PD-1: the checksum of 27, 255, 0, 0 is 0x20. -/
theorem test_packet_check : packetCheck Config.default [27, 255, 0, 0] = 0x20 := by decide

/-- 30_encoding.md R106: the nine bits of 0x1B, four of them 1, parity 0. -/
theorem test_air_bits : airBits 0x1B = [false, false, false, true, true, false, true, true, false] := by decide

/-! ### Wire encoder (95_test_vectors.md section 2.7) -/

/-- V-ENC-2. -/
theorem test_varint :
    varint 0 = [0x00] ∧ varint 300 = [0xAC, 0x02] ∧ varint 0xFFFFFFFF = [0xFF, 0xFF, 0xFF, 0xFF, 0x0F] := by decide

/-- V-ENC-3: the keys of tag 255 with wire type 5 and of tag 16 with wire type 0. -/
theorem test_key : fieldKey 255 wireFixed32 = [0xFD, 0x0F] ∧ fieldKey 16 wireVarint = [0x80, 0x01] := by decide

/-- V-ENC-4. -/
theorem test_enc_begin :
    (after .encBegin State.reset).map (fun t => (t.encOpen, t.encValid, t.ch2.writing)) = some (true, true, true)
      ∧ faultOf .encBegin encoding = some 0x1500A ∧ faultOf .encBegin (withCh2 chanOpen) = some 0x15002 := by decide

/-- V-ENC-1, V-ENC-4. -/
theorem test_enc_fixed :
    (after (.encFixed 2 0xABCD1234) encoding).map (fun t => (t.ch2.buf.read 1, t.ch2.buf.read 2, t.ch2.wbytes))
        = some (0x34, 0x12, 3)
      ∧ faultOf (.encFixed 3 1) State.reset = some 0x15109 := by decide

theorem test_enc_varint :
    (after (.encVarint 300) encoding).map (fun t => (t.ch2.buf.read 1, t.ch2.buf.read 2)) = some (0xAC, 0x02)
      ∧ faultOf (.encVarint 5) State.reset = some 0x1520B := by decide

theorem test_enc_tvarint :
    (after (.encTvarint 16 1) encoding).map (fun t => (t.ch2.buf.read 1, t.ch2.buf.read 2, t.ch2.buf.read 3))
        = some (0x80, 0x01, 0x01)
      ∧ faultOf (.encTvarint 0 1) encoding = some 0x15309 := by decide

theorem test_enc_tfixed32 :
    (after (.encTfixed32 255 0xDEADBEEF) encoding).map
        (fun t => (t.ch2.buf.read 1, t.ch2.buf.read 2, t.ch2.buf.read 3, t.ch2.buf.read 6, t.ch2.wbytes))
        = some (0xFD, 0x0F, 0xEF, 0xDE, 7)
      ∧ faultOf (.encTfixed32 0 1) encoding = some 0x15409 := by decide

/-- V-ENC-4; a message that did not fit is discarded and answers 0 (R287). -/
theorem test_enc_end :
    (after .encEnd { encoding with encValid := false, ch2 := { chanOpen with wlost := true } }).map
        (fun t => (t.result, t.encOpen, t.ch2.count)) = some (0, false, 0)
      ∧ faultOf .encEnd State.reset = some 0x1550B := by decide

theorem test_enc_status : resultOf .encStatus encoding = some 1 ∧ resultOf .encStatus State.reset = some 0 := by decide

/-! ### Wire decoder (95_test_vectors.md section 2.9) -/

/-- V-DEC-1 to V-DEC-5: varints accepted and refused. -/
theorem test_unvarint :
    unvarint [0x80, 0x00] = some (0, 2) ∧ unvarint [0xFF, 0xFF, 0xFF, 0xFF, 0x0F] = some (0xFFFFFFFF, 5)
      ∧ unvarint [0xFF, 0xFF, 0xFF, 0xFF, 0x10] = none ∧ unvarint [0x80] = none
      ∧ unvarint [0x80, 0x80, 0x80, 0x80, 0x80, 0x01] = none := by decide

/-- V-DEC-13: `DEC_BEGIN ch0` with no chunk open there; the decode of CH2 stays open. -/
theorem test_dec_begin :
    (after (.decBegin 0) decoding).map (fun t => (t.fault, t.decOpen, t.decCh)) = some (0x1600C, true, .ch2)
      ∧ (after (.decBegin 2) (withCh2 chanRead)).map (fun t => (t.decOpen, t.decCh, t.decOk)) = some (true, .ch2, true) := by
  decide

/-- Little-endian; running out of bytes is no fault (44_wire_decoder.md R311). -/
theorem test_dec_fixed :
    (after (.decFixed 2) decoding).map (fun t => (t.result, t.decPos)) = some (0x4241, 2)
      ∧ (after (.decFixed 4) decoding).map (fun t => (t.result, t.decPos, t.decOk)) = some (0, 0, false) := by decide

theorem test_dec_varint :
    (after .decVarint decoding).map (fun t => (t.result, t.decPos, t.ch2.rpos)) = some (0x41, 1, 0)
      ∧ faultOf .decVarint State.reset = some 0x1620D := by decide

/-- V-RST-1 step 16. -/
theorem test_dec_remain : resultOf .decRemain decoding = some 2 ∧ faultOf .decRemain State.reset = some 0x1630D := by decide

theorem test_dec_status : resultOf .decStatus decoding = some 1 ∧ resultOf .decStatus State.reset = some 0 := by decide

/-! ### Control (95_test_vectors.md section 2.11) -/

theorem test_nop : resultOf .nop { State.reset with result := 128 } = some 128 := by decide

theorem test_ctrl_read : resultOf .ctrlRead State.reset = some 1 := by decide

theorem test_ctrl_write :
    (after (.ctrlWrite 0xFE) State.reset).map State.ctrl = some 0 ∧ (after (.ctrlWrite 0xFF) State.reset).map State.ctrl = some 1 := by
  decide

/-- V-CH-1 step 16: `FAULT_READ` answers the fault and keeps it. -/
theorem test_fault_read :
    (after .faultRead { State.reset with fault := 0x12608 }).map (fun t => (t.result, t.fault)) = some (0x12608, 0x12608) := by
  decide

/-! ### One step -/

/-- V-CT-2: unit 0xA is reserved. -/
theorem test_step_illegal :
    (match step (State.reset.issue 0xA123 0) with
      | .next t => t.fault
      | .fault _ => 0
      | .refused _ => 0) = 0x1A101 := by decide

/-- The command placed on the port is the one the next step performs. -/
theorem test_step_issued : reply (State.reset.withFetchWord 48 0x0900) = some 128 := by decide

/-! ### Descriptors (95_test_vectors.md section 2.10) -/

/-- V-DS-1. -/
theorem test_encode_measurement :
    encodeMsg measurement ⟨[7, 300, 3300, -125, 0], [("hasSoil", false)]⟩
      = some [0x08, 0x07, 0x10, 0xAC, 0x02, 0x18, 0xE4, 0x19, 0x20, 0x83, 0xFF, 0xFF, 0xFF, 0x0F] := by decide

/-- V-DS-4: the fields in another order. -/
theorem test_decode_measurement :
    decodeMsg measurement [0x20, 0x83, 0xFF, 0xFF, 0xFF, 0x0F, 0x08, 0x07, 0x10, 0xAC, 0x02, 0x18, 0xE4, 0x19]
      = some ⟨[7, 300, 3300, -125, 0], [("hasSoil", false)]⟩ := by decide

/-- Section 2.10, FS20: a packet with its extension byte. -/
theorem test_decode_fs20 :
    decodeMsg (fs20Descriptor Config.default) [0x12, 0x34, 0x56, 0x20, 0x99, 0x5B]
      = some ⟨[18, 52, 86, 32, 153, 91], []⟩ := by decide

/-- 95_test_vectors.md P1: the frame's chunk on CH0, decoded by commands after its `hdr` byte 0x21. -/
theorem test_host_decode_frame :
    hostRecord .ch0 measurement
        (chanReading [0x21, 0x08, 0x07, 0x10, 0xAC, 0x02, 0x18, 0xE4, 0x19, 0x20, 0x83, 0xFF, 0xFF, 0xFF, 0x0F])
      = some ⟨[7, 300, 3300, -125, 0], [("hasSoil", false)]⟩ := by decide +kernel

/-- Section 2.10, FS20, decoded by commands from CH1: a whole packet, and one without its checksum. -/
theorem test_host_decode_packet :
    hostRecord .ch1 (fs20Descriptor Config.default) (chanReading [0x1B, 0xFF, 0x00, 0x00, 0x20])
        = some ⟨[27, 255, 0, 0, 0, 32], []⟩
      ∧ hostRecord .ch1 (fs20Descriptor Config.default) (chanReading [0x1B, 0xFF, 0x00, 0x00]) = none := by
  decide +kernel

/-- 30_encoding.md R112: a line of assembly and its words. -/
theorem test_assemble : assembleLine "CH_WRITE ch2, 0x41".toList = some [(0x2141, 0)] := by decide

/-! ### Witnesses: for each obligation with hypotheses, a concrete state and operands that meet them, clause by clause at
the bounds of each range -/

/-- A command of the host on the port, with nothing after it. -/
def onPort (cmd : Half) (data : Word) : State :=
  { State.reset with inputs := [.command ⟨.host, cmd, data⟩] }

/-- `DecodedCommandReencodes`: `CH_WRITE_START ch2` with all its ignored bits set, and with none. -/
theorem witness_DecodedCommandReencodes :
    decode 0x20FF 0xFFFFFFFF = .ok (.chWriteStart .ch2)
      ∧ 0x2000#16 &&& (0xFF00#16 ||| (usedImm8 (.chWriteStart .ch2)).setWidth 16) = (encode (.chWriteStart .ch2)).1
      ∧ 0x0#32 &&& usedData (.chWriteStart .ch2) = (encode (.chWriteStart .ch2)).2 := ⟨rfl, rfl, rfl⟩

theorem witness_StepPerformsDecodedCommand :
    (onPort 0xF2FF 0).cfg.wf = true ∧ (onPort 0xF2FF 0).inputs = .command ⟨.host, 0xF2FF, 0⟩ :: []
      ∧ decode 0xF2FF 0 = .ok (.ctrlWrite 0xFF) := ⟨by decide, rfl, rfl⟩

theorem witness_StepRecordsIllegalCommand :
    (onPort 0x7000 0).cfg.wf = true ∧ (onPort 0x7000 0).inputs = .command ⟨.host, 0x7000, 0⟩ :: []
      ∧ decode 0x7000 0 = .error (.reservedUnit 0x7) := ⟨by decide, rfl, rfl⟩

theorem witness_StepResetsEndsOrGoesOn :
    ({ State.resetWith tiny with inputs := [.reset] }.cfg.wf = true
        ∧ { State.resetWith tiny with inputs := [.reset] }.inputs = .reset :: [])
      ∧ (State.reset.cfg.wf = true ∧ State.reset.inputs = [])
      ∧ (State.resetWith { Config.default with maxLen := 255 }).cfg.wf = false
      ∧ ((onPort 0 0).cfg.wf = true ∧ (onPort 0 0).inputs = .command ⟨.host, 0, 0⟩ :: []) := by decide

theorem witness_CommandsKeepParametersAndPort :
    exec .encStatus (onPort 0 0) = .next { onPort 0 0 with result := 0 } := rfl

theorem witness_AgentOrderKeptAndAgentsUnchecked :
    step (onPort 0xF000 0) = .next { onPort 0xF000 0 with inputs := [], position := 1 } := rfl

/-- `ResetSatisfiesInvariant`: the least and the greatest legal parameters. -/
theorem witness_ResetSatisfiesInvariant :
    tiny.wf = true
      ∧ ({ Config.default with
            n0 := 256, n1 := 256, n2 := 256, maxLen := 254, syncMinZeros := 255, shortMin := 1, shortMax := 1
            longMin := 2, longMax := 65535 } : Config).wf = true := by decide

/-- `StepKeepsInvariant`: a state with a chunk open, and a step from it. -/
theorem witness_StepKeepsInvariant :
    { encoding with inputs := [.reset] }.Inv
      ∧ step { encoding with inputs := [.reset] } = .next State.reset :=
  ⟨State.inv_of_ok (by decide), rfl⟩

theorem witness_FirstFaultIsRecorded :
    { State.reset with fault := 0x12608 }.fault.getLsbD 16 = true ∧ State.reset.fault.getLsbD 16 = false := by decide

theorem witness_FaultsArePreciseAndSticky :
    (exec .encEnd State.reset = .next { State.reset with fault := 0x1550B }
        ∧ { State.reset with fault := 0x1550B }.fault ≠ State.reset.fault)
      ∧ (perform 0x7000 0 { State.reset with fault := 0x1550B } = .next { State.reset with fault := 0x1550B }
        ∧ { State.reset with fault := 0x1550B }.fault.getLsbD 16 = true) := ⟨⟨rfl, by decide⟩, rfl, by decide⟩

theorem witness_IllegalOperandsFaultFirst :
    (Instr.encFixed 0 7).wf = false ∧ (Instr.encFixed 3 7).wf = false ∧ (Instr.decFixed 5).wf = false
      ∧ (Instr.decFixed 255).wf = false ∧ (Instr.encTvarint 0 7).wf = false ∧ (Instr.encTfixed32 0 7).wf = false
      ∧ (Instr.decBegin 3).wf = false := by decide

theorem witness_ResultUnchangedWhereListed :
    Instr.nop ∈ [Instr.chWriteStart .ch0, .chWrite .ch0 0, .chWriteAbort .ch0, .chReadEnd .ch0, .rxStart 0, .rxByte 0,
        .pulse true 0, .encBegin, .encFixed 0 0, .encVarint 0, .encTvarint 0 0, .encTfixed32 0 0, .decBegin 0, .nop,
        .ctrlWrite 0]
      ∧ exec .nop State.reset = .next State.reset := ⟨by decide, rfl⟩

/-- `QueriesChangeOnlyResult`: a query that answers, and one that faults. -/
theorem witness_QueriesChangeOnlyResult :
    (∀ q ∈ [Instr.ctrlRead, .decRemain],
        q ∈ [Instr.chHasContent .ch0, .chPeek .ch0 0, .chAvail .ch0, .chIsWriting .ch0, .rxIsWriting, .pdStatus,
          .encStatus, .decRemain, .decStatus, .ctrlRead, .faultRead])
      ∧ exec .ctrlRead State.reset = .next { State.reset with result := 1 }
      ∧ exec .decRemain State.reset = .next { State.reset with fault := 0x1630D } := ⟨by decide, rfl, rfl⟩

/-- `RingBufferPrimitives`: the last free byte; no free byte; the last stored byte beside the last free one. -/
theorem witness_RingBufferPrimitives :
    (chanLast.count < 2 ∧ chanLast.wr < 2) ∧ ¬chanFull.count < 2
      ∧ (chanLast.wr = (chanLast.rd + chanLast.count) % 2 ∧ 0 < chanLast.count
        ∧ (rbPut 2 0x41 chanLast).isSome = true) := by decide

/-- `ChunkPrimitives`: the last free byte; a full channel; a lost chunk; the 256th byte of a chunk; the 255th. -/
theorem witness_ChunkPrimitives :
    (chanLast.count < 2 ∧ chanLast.wr < 2) ∧ ¬chanFull.count < 2
      ∧ { chanOpen with wlost := true }.wlost = true
      ∧ ({ chanOpen with wbytes := 256 }.wlost = false ∧ { chanOpen with wbytes := 256 }.wbytes = 256)
      ∧ (chanFull.wlost = false ∧ ¬chanFull.count < 2)
      ∧ ({ chanOpen with wbytes := 255 }.wlost = false ∧ { chanOpen with wbytes := 255 }.wbytes ≠ 256
        ∧ chanOpen.count < 2 ∧ chanOpen.wr < 2)
      ∧ (chanOpen.wlost = false ∧ { chanOpen with wstart := 1 }.wstart < 2) := by decide

/-- `ChWriteStartOpensChunk`: owned by the encoder; a chunk open; the last free byte; a full channel. -/
theorem witness_ChWriteStartOpensChunk :
    (Chan.ch0 = .ch0 ∨ Chan.ch0 = .ch1) ∧ encoding.encOpen = true
      ∧ ((withCh2 chanOpen).encOpen = false ∧ (withCh2 chanOpen).ch2.writing = true)
      ∧ ((tinyCh2 chanLast).encOpen = false ∧ (tinyCh2 chanLast).ch2.writing = false
        ∧ (tinyCh2 chanLast).ch2.count < (tinyCh2 chanLast).cfg.n2 ∧ (tinyCh2 chanLast).ch2.wr < (tinyCh2 chanLast).cfg.n2)
      ∧ ((tinyCh2 chanFull).encOpen = false ∧ (tinyCh2 chanFull).ch2.writing = false
        ∧ ¬(tinyCh2 chanFull).ch2.count < (tinyCh2 chanFull).cfg.n2) := by decide

/-- `ChWriteAppendsByte`: owned; no chunk; a lost chunk; the 256th byte; a full channel; the last free byte. -/
theorem witness_ChWriteAppendsByte :
    (Chan.ch1 = .ch0 ∨ Chan.ch1 = .ch1) ∧ encoding.encOpen = true
      ∧ (State.reset.encOpen = false ∧ State.reset.ch2.writing = false)
      ∧ ((withCh2 { chanOpen with wlost := true }).encOpen = false
        ∧ (withCh2 { chanOpen with wlost := true }).ch2.writing = true
        ∧ (withCh2 { chanOpen with wlost := true }).ch2.wlost = true)
      ∧ ((withCh2 { chanOpen with wbytes := 256 }).encOpen = false
        ∧ (withCh2 { chanOpen with wbytes := 256 }).ch2.writing = true
        ∧ (withCh2 { chanOpen with wbytes := 256 }).ch2.wlost = false
        ∧ (withCh2 { chanOpen with wbytes := 256 }).ch2.wbytes = 256)
      ∧ ((tinyCh2 { chanOpen with count := 2, wbytes := 2 }).ch2.writing = true
        ∧ (tinyCh2 { chanOpen with count := 2, wbytes := 2 }).ch2.wlost = false
        ∧ ¬(tinyCh2 { chanOpen with count := 2, wbytes := 2 }).ch2.count < tiny.n2)
      ∧ ((tinyCh2 chanOpen).encOpen = false ∧ (tinyCh2 chanOpen).ch2.writing = true ∧ (tinyCh2 chanOpen).ch2.wlost = false
        ∧ (tinyCh2 chanOpen).ch2.wbytes ≠ 256 ∧ (tinyCh2 chanOpen).ch2.count < (tinyCh2 chanOpen).cfg.n2
        ∧ (tinyCh2 chanOpen).ch2.wr < (tinyCh2 chanOpen).cfg.n2) := by decide

theorem witness_ChWriteEndCommits :
    (Chan.ch0 = .ch0 ∨ Chan.ch0 = .ch1) ∧ encoding.encOpen = true
      ∧ (State.reset.encOpen = false ∧ State.reset.ch2.writing = false)
      ∧ ((withCh2 { chanOpen with wlost := true }).encOpen = false
        ∧ (withCh2 { chanOpen with wlost := true }).ch2.writing = true
        ∧ (withCh2 { chanOpen with wlost := true }).ch2.wlost = true)
      ∧ ((tinyCh2 { chanOpen with wstart := 1 }).encOpen = false ∧ (tinyCh2 { chanOpen with wstart := 1 }).ch2.writing = true
        ∧ (tinyCh2 { chanOpen with wstart := 1 }).ch2.wlost = false
        ∧ (tinyCh2 { chanOpen with wstart := 1 }).ch2.wstart < (tinyCh2 { chanOpen with wstart := 1 }).cfg.n2) := by decide

theorem witness_ChWriteAbortDiscards :
    (Chan.ch1 = .ch0 ∨ Chan.ch1 = .ch1) ∧ encoding.encOpen = true
      ∧ (State.reset.encOpen = false ∧ State.reset.ch2.writing = false)
      ∧ ((withCh2 chanOpen).encOpen = false ∧ (withCh2 chanOpen).ch2.writing = true) := by decide

theorem witness_ChReadStartOpensOldest :
    ((withCh2 chanRead).chan .ch2).ropen = true
      ∧ ((State.reset.chan .ch0).ropen = false ∧ (State.reset.chan .ch0).nchunks = 0)
      ∧ (((withCh2 chanHeld).chan .ch2).ropen = false ∧ ((withCh2 chanHeld).chan .ch2).nchunks ≠ 0) := by decide

theorem witness_ChReadReturnsNextByte :
    (State.reset.chan .ch1).ropen = false
      ∧ (((withCh2 chanDone).chan .ch2).ropen = true
        ∧ ((withCh2 chanDone).chan .ch2).rpos = ((withCh2 chanDone).chan .ch2).rlen)
      ∧ (((withCh2 { chanRead with rpos := 1 }).chan .ch2).ropen = true
        ∧ ((withCh2 { chanRead with rpos := 1 }).chan .ch2).rpos ≠ ((withCh2 { chanRead with rpos := 1 }).chan .ch2).rlen) := by
  decide

/-- `ChPeekReturnsContentByte`: one past the last content byte, and the last. -/
theorem witness_ChPeekReturnsContentByte :
    (State.reset.chan .ch1).ropen = false
      ∧ (((withCh2 chanRead).chan .ch2).ropen = true ∧ ((withCh2 chanRead).chan .ch2).rlen ≤ (2 : Byte).toNat)
      ∧ (((withCh2 chanRead).chan .ch2).ropen = true ∧ (1 : Byte).toNat < ((withCh2 chanRead).chan .ch2).rlen) := by decide

theorem witness_ChReadEndReleases :
    (State.reset.chan .ch0).ropen = false ∧ ((withCh2 chanDone).chan .ch2).ropen = true := by decide

theorem witness_AbortedChunkLeavesNoTrace : Channel.Inv 4 chanHeld ∧ chanHeld.writing = false :=
  ⟨Channel.inv_of_ok (by decide), by decide⟩

/-- `ChunkCommitsWholeOrNotAtAll`: the exact fit, and one byte too many. -/
theorem witness_ChunkCommitsWholeOrNotAtAll :
    6 ≤ 256 ∧ Channel.Inv 6 chanHeld ∧ chanHeld.writing = false
      ∧ chanHeld.count + [0x01, 0x02].length + 1 ≤ 6 ∧ 6 < chanHeld.count + [0x01, 0x02, 0x03].length + 1 :=
  ⟨by decide, Channel.inv_of_ok (by decide), by decide, by decide, by decide⟩

theorem witness_ChannelsAreQueuesOfChunks :
    (withCh2 chanRead).Inv ∧ (after (.chReadEnd .ch2) (withCh2 chanRead)).isSome = true :=
  ⟨State.inv_of_ok (by decide), by decide⟩

/-- `ReaderGetsOldestChunkInOrder`: the chunk not yet open; its last byte by `CH_READ`, its last by `CH_PEEK`. -/
theorem witness_ReaderGetsOldestChunkInOrder :
    (withCh2 chanHeld).Inv ∧ (withCh2 { chanRead with rpos := 1 }).Inv
      ∧ (withCh2 chanHeld).committed .ch2 = [[0x41, 0x42]]
      ∧ (withCh2 { chanRead with rpos := 1 }).committed .ch2 = [[0x41, 0x42]]
      ∧ ((withCh2 chanHeld).chan .ch2).ropen = false ∧ ((withCh2 { chanRead with rpos := 1 }).chan .ch2).ropen = true
      ∧ ([0x41, 0x42] : List Byte)[1]? = some 0x42 ∧ ([0x41, 0x42] : List Byte)[(1 : Byte).toNat]? = some 0x42 :=
  ⟨State.inv_of_ok (by decide), State.inv_of_ok (by decide), by decide, by decide, by decide, by decide, by decide,
    by decide⟩

/-- `UnstoredBytesAreNeverObserved`: two states whose CH2 differs in a byte past the stored ones. -/
theorem witness_UnstoredBytesAreNeverObserved :
    (withCh2 chanHeld).Inv
      ∧ (withCh2 { chanHeld with buf := ⟨[(0, 0x02), (1, 0x41), (2, 0x42), (3, 0x99)]⟩ }).Inv
      ∧ sameVisible (withCh2 chanHeld) (withCh2 { chanHeld with buf := ⟨[(0, 0x02), (1, 0x41), (2, 0x42), (3, 0x99)]⟩ }) := by
  refine ⟨State.inv_of_ok (by decide), State.inv_of_ok (by decide), by decide, ?_⟩
  intro c
  cases c
  · exact ⟨by decide, by decide⟩
  · exact ⟨by decide, by decide⟩
  · exact ⟨by decide, by decide⟩

theorem witness_AppendedCrcFoldsToZero : Config.default.crcPoly.getLsbD 15 = true := by decide

/-- `RxByteAdvancesFrame`: each state; three bytes left, two, and one, with the CRC unchecked, matching, or not. -/
theorem witness_RxByteAdvancesFrame :
    State.reset.rxState = .idle
      ∧ { State.reset with ch0 := chanOpen, rxState := .length }.rxState = .length
      ∧ ((receiving 0 3).rxState = .data ∧ 2 < (receiving 0 3).rxRem)
      ∧ ((receiving 0 2).rxState = .data ∧ (receiving 0 2).rxRem = 2)
      ∧ ((receiving 0 1).rxState = .data ∧ (receiving 0 1).rxRem = 1 ∧ { receiving 0 1 with ctrl := 0 }.ctrl.getLsbD 0 = false)
      ∧ crc16Upd Config.default.crcPoly 0 0 = Config.default.crcResidue
      ∧ ((receiving 0 1).ctrl.getLsbD 0 = true ∧ crc16Upd Config.default.crcPoly 0 1 ≠ Config.default.crcResidue) := by
  decide +kernel

/-- `CorrectFrameCommitsOneChunk`: an empty payload that fits exactly, at the largest declared length of `tiny`. -/
theorem witness_CorrectFrameCommitsOneChunk :
    (State.resetWith tiny).Inv ∧ (State.resetWith tiny).ctrl.getLsbD 0 = true ∧ (State.resetWith tiny).cfg.crcResidue = 0
      ∧ ([] : List Byte).length ≤ tiny.maxLen
      ∧ (if (State.resetWith tiny).rxState = .idle then (State.resetWith tiny).ch0
          else chunkAbort (State.resetWith tiny).ch0).count + ([] : List Byte).length + 2 ≤ tiny.n0
      ∧ tiny.crcPoly.getLsbD 15 = true :=
  ⟨State.inv_of_ok (by decide), by decide, by decide, by decide, by decide, by decide⟩

/-- `PulsesThatCompleteNoBit`: the bounds of the windows, and the pending and the phase of every clause. -/
theorem witness_PulsesThatCompleteNoBit :
    Config.default.wf = true
      ∧ (¬inWindow Config.default 299 .short ∧ ¬inWindow Config.default 299 .long)
      ∧ (¬inWindow Config.default 751 .short ∧ ¬inWindow Config.default 751 .long)
      ∧ inWindow Config.default 300 .short ∧ inWindow Config.default 499 .short
      ∧ inWindow Config.default 500 .long ∧ inWindow Config.default 750 .long
      ∧ (State.reset.pdPend = none ∧ State.reset.pdPhase = .hunt)
      ∧ ({ hearing 0 0 .short with pdPend := none }.pdPend = none ∧ (hearing 0 0 .short).pdPhase = .data)
      ∧ ((hearing 0 0 .short).pdPend ≠ none ∧ (hearing 0 0 .short).pdPend = some .short ∧ PulseClass.short ≠ .long) := by
  refine ⟨by decide, ⟨?_, ?_⟩, ⟨?_, ?_⟩, ?_, ?_, ?_, ?_, by decide, by decide, by decide⟩ <;>
    (unfold inWindow; decide)

/-- `BitsFindTheStartAndFillTheByte`: a 0 bit with the counter full, a 1 bit with just enough zeros and with one too few,
the eighth bit of a byte. -/
theorem witness_BitsFindTheStartAndFillTheByte :
    Config.default.wf = true ∧ inWindow Config.default 400 .short ∧ inWindow Config.default 600 .long
      ∧ ({ State.reset with pdZeros := 255, pdPend := some .short }.pdPend = some .short
        ∧ { State.reset with pdZeros := 255, pdPend := some .short }.pdPhase = .hunt)
      ∧ ({ State.reset with pdZeros := 6, pdPend := some .long }.pdPend = some .long
        ∧ Config.default.syncMinZeros ≤ { State.reset with pdZeros := 6, pdPend := some .long }.pdZeros.toNat)
      ∧ { State.reset with pdZeros := 5, pdPend := some .long }.pdZeros.toNat < Config.default.syncMinZeros
      ∧ ((hearing 7 0 .long).pdPhase = .data ∧ (hearing 7 0 .long).pdPend = some .long ∧ (hearing 7 0 .long).pdBits ≠ 8) := by
  refine ⟨by decide, ?_, ?_, by decide, by decide, by decide, by decide⟩ <;> (unfold inWindow; decide)

/-- `NinthBitCompletesByte`: a parity error; a byte that is not the last; a fourth byte; the last byte. -/
theorem witness_NinthBitCompletesByte :
    Config.default.wf = true ∧ inWindow Config.default 400 .short
      ∧ ((hearing 8 0x1B .short).pdPhase = .data ∧ (hearing 8 0x1B .short).pdPend = some .short
        ∧ (hearing 8 0x1B .short).pdBits = 8 ∧ (0x1B : Byte) = (hearing 8 0x1B .short).pdShift.extractLsb' 0 8)
      ∧ (popcount 0x01 + 0) % 2 = 1
      ∧ ((popcount 0x1B + 0) % 2 = 0 ∧ (hearing 8 0x1B .short).pdCount + 1 ≠ (hearing 8 0x1B .short).pdExpect)
      ∧ { hearing 8 0x1B .short with pdCount := 3 }.pdCount + 1 = 4
      ∧ { hearing 8 0x1B .short with pdCount := 4 }.pdCount + 1 = { hearing 8 0x1B .short with pdCount := 4 }.pdExpect := by
  refine ⟨by decide, by unfold inWindow; decide, by decide, by decide, by decide, by decide, by decide⟩

/-- `EmptyEventAndPreambleResync`: the shortest preamble of `tiny`, in the middle of a packet. -/
theorem witness_EmptyEventAndPreambleResync :
    tiny.wf = true ∧ (∀ p ∈ [((1 : Half), (1 : Half))], inWindow tiny p.1 .short ∧ inWindow tiny p.2 .short)
      ∧ inWindow tiny 2 .long ∧ tiny.syncMinZeros ≤ [((1 : Half), (1 : Half))].length := by
  refine ⟨by decide, fun p hp => ?_, by unfold inWindow; decide, by decide⟩
  rw [List.mem_singleton.1 hp]; unfold inWindow; decide

/-- `PacketTrainCommitsOneChunk`: just enough zeros, room for exactly the packet, and a wrong checksum. -/
theorem witness_PacketTrainCommitsOneChunk :
    (State.resetWith { Config.default with n1 := 6 }).Inv
      ∧ (State.resetWith { Config.default with n1 := 6 }).pdPhase = .hunt
      ∧ inWindow Config.default 400 .short ∧ inWindow Config.default 600 .long ∧ Config.default.syncMinZeros ≤ 6
      ∧ (State.resetWith { Config.default with n1 := 6 }).ch1.count
          + (fs20Packet Config.default 27 255 0 0 0).length + 1 ≤ 6
      ∧ (0x21 : Byte) ≠ packetCheck Config.default (fs20Body Config.default 27 255 0 0 0) := by
  refine ⟨State.inv_of_ok (by decide), by decide, ?_, ?_, by decide, by decide, by decide⟩ <;>
    (unfold inWindow; decide)

/-- `VarintDecodesOrFails`: a varint that ends early, the least fifth byte that is out of range, a run of no byte, and a
run of four with the greatest fifth byte. -/
theorem witness_VarintDecodesOrFails :
    (∀ b ∈ ([0x80] : List Byte), b.getLsbD 7 = true) ∧ (0x80 : Byte).getLsbD 7 = true ∧ 0x0F < (0x10 : Byte).toNat
      ∧ (([] : List Byte).length ≤ 4 ∧ (∀ b ∈ ([] : List Byte), b.getLsbD 7 = true) ∧ (0x7F : Byte).getLsbD 7 = false
        ∧ (([] : List Byte).length = 4 → (0x7F : Byte).toNat ≤ 0x0F))
      ∧ (([0x80, 0x80, 0x80, 0x80] : List Byte).length ≤ 4
        ∧ (∀ b ∈ ([0x80, 0x80, 0x80, 0x80] : List Byte), b.getLsbD 7 = true) ∧ (0x0F : Byte).getLsbD 7 = false
        ∧ (([0x80, 0x80, 0x80, 0x80] : List Byte).length = 4 → (0x0F : Byte).toNat ≤ 0x0F)) := by
  decide

/-- `KeysOfTags`: tags at the ends of the one-byte and two-byte ranges. -/
theorem witness_KeysOfTags :
    (1 : Byte) ≠ 0 ∧ (255 : Byte) ≠ 0
      ∧ [1, 15, 16, 255].map (fun tag => (fieldKey (BitVec.ofNat 8 tag) 0).length) = [1, 1, 2, 2] := by decide

theorem witness_EncBeginOpensMessage :
    encoding.encOpen = true
      ∧ ((withCh2 chanOpen).encOpen = false ∧ (withCh2 chanOpen).ch2.writing = true)
      ∧ ((tinyCh2 chanLast).encOpen = false ∧ (tinyCh2 chanLast).ch2.writing = false
        ∧ (tinyCh2 chanLast).ch2.count < (tinyCh2 chanLast).cfg.n2 ∧ (tinyCh2 chanLast).ch2.wr < (tinyCh2 chanLast).cfg.n2)
      ∧ ((tinyCh2 chanFull).encOpen = false ∧ (tinyCh2 chanFull).ch2.writing = false
        ∧ ¬(tinyCh2 chanFull).ch2.count < (tinyCh2 chanFull).cfg.n2) := by decide

theorem witness_EncFieldsAppendBytes :
    ((3 : Byte) ≠ 1 ∧ (3 : Byte) ≠ 2 ∧ (3 : Byte) ≠ 4) ∧ State.reset.encOpen = false ∧ (1 : Byte) ≠ 0 ∧ (255 : Byte) ≠ 0
      ∧ encoding.encOpen = true ∧ ((1 : Byte) = 1 ∨ (1 : Byte) = 2 ∨ (1 : Byte) = 4)
      ∧ (4 = 1 ∨ 4 = 2 ∨ 4 = 4) := by decide

theorem witness_EncEndClosesMessage :
    State.reset.encOpen = false ∧ (encoding.encOpen = true ∧ encoding.encValid = true)
      ∧ ({ encoding with encValid := false, ch2 := { chanOpen with wlost := true } }.encOpen = true
        ∧ { encoding with encValid := false, ch2 := { chanOpen with wlost := true } }.encValid = false) := by decide

/-- `MessageCommitsWholeOrNotAtAll`: one free byte, for an empty message that fits and a one-byte one that does not. -/
theorem witness_MessageCommitsWholeOrNotAtAll :
    (tinyCh2 chanLast).Inv ∧ (tinyCh2 chanLast).encOpen = false ∧ (tinyCh2 chanLast).ch2.writing = false
      ∧ [Instr.encFixed 1 0x41].map fieldBytes = [[0x41]].map some
      ∧ (tinyCh2 chanLast).ch2.count + ([] : List Byte).length + 1 ≤ (tinyCh2 chanLast).cfg.n2
      ∧ (tinyCh2 chanLast).cfg.n2 < (tinyCh2 chanLast).ch2.count + ([0x41] : List Byte).length + 1 :=
  ⟨State.inv_of_ok (by decide), by decide, by decide, by decide, by decide, by decide⟩

theorem witness_DecBeginStartsDecode :
    (State.reset.chan .ch2).ropen = false ∧ ((withCh2 chanRead).chan .ch2).ropen = true := by decide

/-- `DecFixedReadsField`: an illegal width; no decode; a decode that has failed; one byte too few; exactly enough. -/
theorem witness_DecFixedReadsField :
    ((3 : Byte) ≠ 1 ∧ (3 : Byte) ≠ 2 ∧ (3 : Byte) ≠ 4) ∧ State.reset.decOpen = false ∧ decoding.decOpen = true
      ∧ { decoding with decOk := false }.decOk = false
      ∧ ({ decoding with decPos := 1 }.chan .ch2).rlen < { decoding with decPos := 1 }.decPos + (2 : Byte).toNat
      ∧ (decoding.decOk = true ∧ decoding.decPos + (2 : Byte).toNat ≤ (decoding.chan decoding.decCh).rlen) := by decide

/-- `DecVarintReadsVarint`: no decode; one that has failed; no bytes left; one byte left. -/
theorem witness_DecVarintReadsVarint :
    State.reset.decOpen = false
      ∧ ({ decoding with decOk := false }.decOpen = true ∧ { decoding with decOk := false }.decOk = false)
      ∧ ([] : List Byte) = (List.range ((decoding.chan .ch2).rlen - 2)).map (fun i =>
          rbPeek (decoding.capacity .ch2) (1 + (2 + i)) (decoding.chan .ch2))
      ∧ unvarint [] = none
      ∧ ([0x42] : List Byte) = (List.range ((decoding.chan .ch2).rlen - 1)).map (fun i =>
          rbPeek (decoding.capacity .ch2) (1 + (1 + i)) (decoding.chan .ch2))
      ∧ unvarint [0x42] = some (0x42, 1) := by decide

theorem witness_DecoderQueriesAnswer : State.reset.decOpen = false ∧ decoding.decOpen = true := by decide

/-- `DecodingTwiceGivesSameReplies`: the host reads on between the two decodes. -/
theorem witness_DecodingTwiceGivesSameReplies :
    (withCh2 chanRead).Inv ∧ ((withCh2 chanRead).chan .ch2).ropen = true
      ∧ (∀ i ∈ [Instr.chRead .ch2], i ≠ .chReadEnd .ch2)
      ∧ execAll [.chRead .ch2] (withCh2 chanRead)
          = .next { withCh2 { chanRead with rpos := 1 } with result := 0x41 }
      ∧ exec (.decBegin (chanOperand .ch2)) (withCh2 chanRead) = .next decoding
      ∧ exec (.decBegin (chanOperand .ch2)) { withCh2 { chanRead with rpos := 1 } with result := 0x41 }
          = .next { decoding with ch2 := { chanRead with rpos := 1 }, result := 0x41 } :=
  ⟨State.inv_of_ok (by decide), by decide, by decide, rfl, rfl, rfl⟩

/-- `DescriptorRoundTrip`: the largest record of 95_test_vectors.md V-DS-3, and one with its optional field absent. -/
theorem witness_DescriptorRoundTrip :
    measurement.wf = true
      ∧ (Record.mk [255, 65535, 65535, -32768, 65535] [("hasSoil", true)]).fits measurement = true
      ∧ (Record.mk [7, 300, 3300, -125, 0] [("hasSoil", false)]).fits measurement = true
      ∧ (fs20Descriptor Config.default).wf = true
      ∧ (Record.mk [18, 52, 86, 32, 153, 91] []).fits (fs20Descriptor Config.default) = true := by decide

/-- `EncodeCommandsCommitMessage`: the one-byte message of a one-field sequence, and room for exactly it; a chunk open
for reading, and descriptors of both kinds, well formed and not. -/
theorem witness_EncodeCommandsCommitMessage :
    encodeMsg (Descriptor.mk .sequence [sequenceByte "a" .always]) (Record.mk [0x41] []) = some [0x41]
      ∧ encodeCommands (Descriptor.mk .sequence [sequenceByte "a" .always]) (Record.mk [0x41] [])
          = some [.encBegin, .encFixed 1 0x41, .encEnd]
      ∧ (State.resetWith tiny).Inv ∧ (State.resetWith tiny).encOpen = false ∧ (State.resetWith tiny).ch2.writing = false
      ∧ (State.resetWith tiny).ch2.count + (Descriptor.mk .sequence [sequenceByte "a" .always]).maxSize + 1 ≤ tiny.n2
      ∧ ((withCh2 chanRead).Inv ∧ ((withCh2 chanRead).chan .ch2).ropen = true)
      ∧ ((fs20Descriptor Config.default).wf = true ∧ measurement.wf = true)
      ∧ (Descriptor.mk .sequence [sequenceByte "a" (.optional "f")]).wf = false :=
  ⟨by decide, by decide, State.inv_of_ok (by decide), by decide, by decide, by decide,
    ⟨State.inv_of_ok (by decide), by decide⟩, by decide, by decide⟩

end Sys2Proof.Tests
end

section
/-! PROOFS. The command port. The block's commands leave the parameters, the inputs still to come and the count of
commands taken as they are (10_state.md R31, 70_reset_and_hazards.md R441), so only `step` takes from the port
(00_scope.md R21). -/

namespace Sys2Proof.Machine

variable {s t : State}

/-! ### The part of the state that belongs to the outside -/

/-- The parameters, the inputs still to come and the number of commands taken. -/
def State.port (s : State) : Config × List Input × Nat := (s.cfg, s.inputs, s.position)

theorem State.port_eq_iff :
    t.port = s.port ↔ t.cfg = s.cfg ∧ t.inputs = s.inputs ∧ t.position = s.position := by
  simp [State.port]

@[simp] theorem State.port_onChan (c : Chan) (f : Nat → Channel → Channel) : (s.onChan c f).port = s.port := by
  simp [State.port]

@[simp] theorem State.port_setResult (v : Word) : (s.setResult v).port = s.port := rfl

@[simp] theorem port_recordFault (unit op : Nibble) (cause : FaultCause) :
    (recordFault unit op cause s).port = s.port := by
  simp [State.port]

/-- A choice between two states with one port has that port, whatever decides it. -/
theorem port_ite {p : Prop} [Decidable p] {a b : State} (ha : a.port = s.port) (hb : b.port = s.port) :
    (if p then a else b).port = s.port := by
  split
  · exact ha
  · exact hb

/-! ### No operation of a unit changes the port -/

@[simp] theorem port_closeDecode (c : Chan) : (closeDecode c s).port = s.port := port_ite rfl rfl

@[simp] theorem port_encPut (bs : List Byte) : (encPut bs s).port = s.port := rfl

@[simp] theorem port_rxAbandon : (rxAbandon s).port = s.port := port_ite rfl rfl

@[simp] theorem port_rxDataByte (b : Byte) : (rxDataByte b s).port = s.port := by
  have hstored : (if s.rxRem > 2 then s.onChan .ch0 (fun n => chunkPut n b) else s).port = s.port := port_ite rfl rfl
  exact port_ite (port_ite hstored hstored) hstored

@[simp] theorem port_pdClear : (pdClear s).port = s.port := rfl

@[simp] theorem port_pdResync : (pdResync s).port = s.port := by
  cases hphase : s.pdPhase with
  | hunt => rw [pdResync_hunt s hphase, port_pdClear]
  | data => rw [pdResync_data s hphase, port_pdClear, State.port_onChan]

@[simp] theorem port_pdAccept (v : Byte) : (pdAccept v s).port = s.port :=
  port_ite (port_pdClear.trans (port_ite rfl rfl)) rfl

@[simp] theorem port_pdByte : (pdByte s).port = s.port := port_ite port_pdResync (port_pdAccept _)

@[simp] theorem port_pdBitHunt (b : Bool) : (pdBitHunt b s).port = s.port := port_ite rfl (port_ite rfl rfl)

@[simp] theorem port_pdBitData (b : Bool) : (pdBitData b s).port = s.port := port_ite port_pdByte rfl

@[simp] theorem port_pdBit (b : Bool) : (pdBit b s).port = s.port := by
  unfold pdBit
  split
  · exact port_pdBitHunt b
  · exact port_pdBitData b

@[simp] theorem port_pdHigh (k : PulseClass) : (pdHigh k s).port = s.port := port_ite port_pdResync rfl

@[simp] theorem port_pdLow (k : PulseClass) : (pdLow k s).port = s.port := by
  unfold pdLow
  split
  · exact port_ite port_pdResync rfl
  · exact port_ite port_pdResync (port_pdBit _)

@[simp] theorem port_pdEvent (isHigh : Bool) (d : Half) : (pdEvent isHigh d s).port = s.port := by
  refine port_ite port_pdResync ?_
  split
  · exact port_pdResync
  · exact port_ite (port_pdHigh _) (port_pdLow _)

/-! ### Commands -/

/-- The outcome is a next state with the port of `s`. -/
def KeepsPort (s : State) (o : Outcome) : Prop := ∃ t, o = .next t ∧ t.port = s.port

theorem keepsPort_next (h : t.port = s.port) : KeepsPort s (.next t) := ⟨t, rfl, h⟩

theorem keepsPort_raiseFault (i : Instr) (cause : FaultCause) : KeepsPort s (raiseFault i cause s) :=
  keepsPort_next (port_recordFault _ _ _)

theorem keepsPort_performIllegal (cmd : Half) : KeepsPort s (performIllegal cmd s) :=
  keepsPort_next (port_recordFault _ _ _)

/-- A check that raises a fault in front of a meaning that keeps the port. -/
theorem keepsPort_guard {p : Prop} [Decidable p] {i : Instr} {cause : FaultCause} {o : Outcome}
    (h : KeepsPort s o) : KeepsPort s (if p then raiseFault i cause s else o) := by
  split
  · exact keepsPort_raiseFault i cause
  · exact h

theorem keepsPort_execRxByte (b : Byte) : KeepsPort s (execRxByte b s) := by
  unfold execRxByte
  split
  · exact keepsPort_next rfl
  · exact keepsPort_next rfl
  · exact keepsPort_next (port_rxDataByte b)

theorem keepsPort_execEncFixed (w : Byte) (v : Word) : KeepsPort s (execEncFixed w v s) := by
  unfold execEncFixed
  split
  · exact keepsPort_raiseFault _ _
  · exact keepsPort_guard (keepsPort_next (port_encPut _))

theorem keepsPort_execEncEnd : KeepsPort s (execEncEnd s) := by
  have hended : (if s.encValid then s.onChan .ch2 chunkEnd else s.onChan .ch2 (fun _ => chunkAbort)).port = s.port :=
    port_ite rfl rfl
  exact keepsPort_guard (keepsPort_next hended)

theorem keepsPort_execDecBegin (ch : BitVec 2) : KeepsPort s (execDecBegin ch s) := by
  unfold execDecBegin
  split
  · exact keepsPort_raiseFault _ _
  · exact keepsPort_guard (keepsPort_next rfl)

theorem keepsPort_execDecFixed (w : Byte) : KeepsPort s (execDecFixed w s) := by
  unfold execDecFixed
  split
  · exact keepsPort_raiseFault _ _
  · refine keepsPort_guard ?_
    split
    · exact keepsPort_next rfl
    · exact keepsPort_next rfl

theorem keepsPort_execDecVarint : KeepsPort s (execDecVarint s) := by
  refine keepsPort_guard ?_
  split
  · exact keepsPort_next rfl
  · split
    · exact keepsPort_next rfl
    · exact keepsPort_next rfl

/-- Every command, in every state, answers a next state and leaves the parameters, the inputs still to come and the
count as they are (10_state.md R31, 70_reset_and_hazards.md R441). -/
theorem exec_keepsPort (i : Instr) (s : State) : KeepsPort s (exec i s) := by
  cases i with
  | chWriteStart c => exact keepsPort_guard (keepsPort_guard (keepsPort_next (State.port_onChan _ _)))
  | chWrite c b => exact keepsPort_guard (keepsPort_guard (keepsPort_next (State.port_onChan _ _)))
  | chWriteEnd c =>
    exact keepsPort_guard (keepsPort_guard (keepsPort_next ((State.port_setResult _).trans (State.port_onChan _ _))))
  | chWriteAbort c => exact keepsPort_guard (keepsPort_guard (keepsPort_next (State.port_onChan _ _)))
  | chHasContent c => exact keepsPort_next (State.port_setResult _)
  | chReadStart c =>
    exact keepsPort_guard (keepsPort_guard (keepsPort_next ((State.port_setResult _).trans (State.port_onChan _ _))))
  | chRead c =>
    exact keepsPort_guard (keepsPort_guard (keepsPort_next ((State.port_setResult _).trans (State.port_onChan _ _))))
  | chPeek c k => exact keepsPort_guard (keepsPort_guard (keepsPort_next (State.port_setResult _)))
  | chReadEnd c => exact keepsPort_guard (keepsPort_next ((port_closeDecode _).trans (State.port_onChan _ _)))
  | chAvail c => exact keepsPort_next (State.port_setResult _)
  | chIsWriting c => exact keepsPort_next (State.port_setResult _)
  | rxStart h => exact keepsPort_next (port_rxAbandon (s := s))
  | rxByte b => exact keepsPort_execRxByte b
  | rxIsWriting => exact keepsPort_next (State.port_setResult _)
  | pulse isHigh d => exact keepsPort_next (port_pdEvent isHigh d)
  | pdStatus => exact keepsPort_next (State.port_setResult _)
  | encBegin => exact keepsPort_guard (keepsPort_guard (keepsPort_next rfl))
  | encFixed w v => exact keepsPort_execEncFixed w v
  | encVarint v => exact keepsPort_guard (keepsPort_next (port_encPut _))
  | encTvarint tag v => exact keepsPort_guard (keepsPort_guard (keepsPort_next (port_encPut _)))
  | encTfixed32 tag v => exact keepsPort_guard (keepsPort_guard (keepsPort_next (port_encPut _)))
  | encEnd => exact keepsPort_execEncEnd
  | encStatus => exact keepsPort_next (State.port_setResult _)
  | decBegin ch => exact keepsPort_execDecBegin ch
  | decFixed w => exact keepsPort_execDecFixed w
  | decVarint => exact keepsPort_execDecVarint
  | decRemain => exact keepsPort_guard (keepsPort_next (State.port_setResult _))
  | decStatus => exact keepsPort_next (State.port_setResult _)
  | nop => exact keepsPort_next rfl
  | ctrlRead => exact keepsPort_next (State.port_setResult _)
  | ctrlWrite v => exact keepsPort_next rfl
  | faultRead => exact keepsPort_next (State.port_setResult _)

/-! ### A command word performed -/

theorem perform_ok {cmd : Half} {data : Word} {i : Instr} (h : decode cmd data = .ok i) (s : State) :
    perform cmd data s = exec i s := by
  simp only [perform, h]

theorem perform_error {cmd : Half} {data : Word} {why : DecodeReject} (h : decode cmd data = .error why) (s : State) :
    perform cmd data s = performIllegal cmd s := by
  simp only [perform, h]

/-- A command word, legal or illegal, answers a next state and leaves the port as it is. -/
theorem perform_keepsPort (cmd : Half) (data : Word) (s : State) : KeepsPort s (perform cmd data s) := by
  cases h : decode cmd data with
  | ok i => rw [perform_ok h]; exact exec_keepsPort i s
  | error why => rw [perform_error h]; exact keepsPort_performIllegal cmd

/-! ### One step -/

theorem step_of_not_wf (hwf : s.cfg.wf = false) : step s = .refused .illFormedConfig := by
  unfold step
  split <;> exact if_neg (by simp [hwf])

theorem step_nil (hwf : s.cfg.wf = true) (hin : s.inputs = []) : step s = .fault .runEnded := by
  simp only [step, hin, hwf, if_true]

theorem step_command {c : Command} {rest : List Input} (hwf : s.cfg.wf = true) (hin : s.inputs = .command c :: rest) :
    step s = perform c.cmd c.data (s.takeCommand rest) := by
  simp only [step, hin, hwf, if_true]

theorem step_reset {rest : List Input} (hwf : s.cfg.wf = true) (hin : s.inputs = .reset :: rest) :
    step s = .next (s.takeReset rest) := by
  simp only [step, hin, hwf, if_true]

/-- A step that answers a next state has taken exactly the first input (00_scope.md R21). -/
theorem step_takes_first_input (h : step s = .next t) : ∃ i, s.inputs = i :: t.inputs := by
  cases hwf : s.cfg.wf with
  | false => rw [step_of_not_wf hwf] at h; cases h
  | true =>
    cases hin : s.inputs with
    | nil => rw [step_nil hwf hin] at h; cases h
    | cons i rest =>
      cases i with
      | reset =>
        rw [step_reset hwf hin] at h
        cases h
        exact ⟨.reset, rfl⟩
      | command c =>
        obtain ⟨t', hnext, hport⟩ := perform_keepsPort c.cmd c.data (s.takeCommand rest)
        rw [step_command hwf hin, hnext] at h
        cases h
        obtain ⟨-, hinputs, -⟩ := State.port_eq_iff.1 hport
        exact ⟨.command c, by rw [hinputs, State.takeCommand_inputs]⟩

/-! ### The agents' streams -/

/-- What an input adds to an agent's stream: its command, if the agent issued it. -/
theorem agentStream_cons (a : Agent) (i : Input) (rest : List Input) :
    agentStream a (i :: rest) = agentStream a [i] ++ agentStream a rest :=
  List.filterMap_append (l := [i])

theorem agentStream_singleton_length (a : Agent) (i : Input) : (agentStream a [i]).length ≤ 1 :=
  List.length_filterMap_le _ [i]

/-- Neither decoding nor performing a command looks at its agent (60_exceptions.md R420). -/
theorem step_agent_irrelevant (s : State) (a : Agent) (c : Command) (rest : List Input) :
    step { s with inputs := .command c :: rest } = step { s with inputs := .command { c with agent := a } :: rest } := by
  cases hwf : s.cfg.wf with
  | false => rw [step_of_not_wf, step_of_not_wf] <;> exact hwf
  | true =>
    have hperform : ∀ c : Command,
        step { s with inputs := .command c :: rest } = perform c.cmd c.data (s.takeCommand rest) :=
      fun c => step_command (s := { s with inputs := .command c :: rest }) hwf rfl
    exact (hperform c).trans (hperform { c with agent := a }).symm

end Sys2Proof.Machine

namespace Sys2Proof.Proofs

open Sys2Proof.Machine

/-- Settles O6: with a command first on the port, a step performs its words, and words that decode are executed. -/
theorem stepPerformsDecodedCommand : Obligations.StepPerformsDecodedCommand := by
  intro s c rest i hwf hin hdecode
  calc
    step s = perform c.cmd c.data (s.takeCommand rest) := step_command hwf hin
    _ = exec i (s.takeCommand rest) := perform_ok hdecode _

/-- Settles O11: a step takes exactly one input, and an input adds at most one command to an agent's stream. -/
theorem agentOrderKeptAndAgentsUnchecked : Obligations.AgentOrderKeptAndAgentsUnchecked := by
  refine ⟨fun s t h a => ?_, step_agent_irrelevant⟩
  obtain ⟨i, hin⟩ := step_takes_first_input h
  exact ⟨agentStream a [i], by rw [hin, agentStream_cons], agentStream_singleton_length a i⟩

end Sys2Proof.Proofs
end

section
/-! PROOFS. The rules by which claims about a command's answer are proved, the units' operations case by case, and the
frame of each unit: the fields its operations own. One frame lemma per operation gives every field it leaves alone. -/

namespace Sys2Proof.Machine

variable {s t u : State} {P : State → Prop}

/-! ### What the answered state satisfies -/

/-- The outcome is a next state, and that state satisfies `P`. -/
def Answers (P : State → Prop) (o : Outcome) : Prop := ∃ t, o = .next t ∧ P t

theorem answers_next (h : P t) : Answers P (.next t) := ⟨t, rfl, h⟩

theorem Answers.of_next {o : Outcome} (h : Answers P o) (ho : o = .next t) : P t := by
  obtain ⟨t', ho', ht'⟩ := h
  cases ho.symm.trans ho'
  exact ht'

theorem answers_raiseFault {i : Instr} {cause : FaultCause} (h : ∀ unit op cause, P (recordFault unit op cause s)) :
    Answers P (raiseFault i cause s) := answers_next (h _ _ _)

/-- A check that raises a fault in front of a meaning: past it, the check is known to have passed. -/
theorem answers_guard {p : Prop} [Decidable p] {i : Instr} {cause : FaultCause} {o : Outcome}
    (hfault : ∀ unit op cause, P (recordFault unit op cause s)) (h : ¬p → Answers P o) :
    Answers P (if p then raiseFault i cause s else o) := by
  split
  · exact answers_raiseFault hfault
  · exact h ‹_›

/-- A choice between two states that satisfy `P`, each under the condition that selects it. -/
theorem satisfies_ite {p : Prop} [Decidable p] (ht : p → P t) (hu : ¬p → P u) : P (if p then t else u) := by
  split
  · exact ht ‹_›
  · exact hu ‹_›

/-! ### Closing a chunk -/

/-- The open chunk closed by its writer: ended, or discarded. -/
def chunkClose (keep : Bool) (n : Nat) (ch : Channel) : Channel := if keep then chunkEnd n ch else chunkAbort ch

theorem onChan_chunkClose {p : Prop} [Decidable p] (c : Chan) :
    (if p then s.onChan c chunkEnd else s.onChan c (fun _ => chunkAbort)) = s.onChan c (chunkClose (decide p)) := by
  split <;> simp [State.onChan, chunkClose, *]

/-! ### The CRC receiver, case by case -/

/-- `rxCrc` with the next byte folded in (41_crc_receiver.md R205). -/
def rxFolded (b : Byte) (s : State) : Half := crc16Upd s.cfg.crcPoly s.rxCrc b

theorem rxAbandon_idle (h : s.rxState = .idle) : rxAbandon s = s := by simp [rxAbandon, h]

theorem rxAbandon_busy (h : s.rxState ≠ .idle) : rxAbandon s = s.onChan .ch0 (fun _ => chunkAbort) := by
  simp [rxAbandon, h]

/-- A payload byte is stored (41_crc_receiver.md R205). -/
theorem rxDataByte_payload (b : Byte) (h : 2 < s.rxRem) :
    rxDataByte b s = { s.onChan .ch0 (fun n => chunkPut n b) with rxCrc := rxFolded b s, rxRem := s.rxRem - 1 } := by
  have h1 : s.rxRem ≠ 1 := by omega
  simp only [rxDataByte, if_neg h1, if_pos h]
  rfl

/-- The first CRC byte is folded in and not stored (41_crc_receiver.md R205, R207). -/
theorem rxDataByte_crc (b : Byte) (h : ¬2 < s.rxRem) (h1 : s.rxRem ≠ 1) :
    rxDataByte b s = { s with rxCrc := rxFolded b s, rxRem := s.rxRem - 1 } := by
  simp only [rxDataByte, if_neg h1, if_neg h]
  rfl

/-- The last CRC byte closes the frame's chunk (41_crc_receiver.md R203, R205). -/
theorem rxDataByte_last (b : Byte) (h : s.rxRem = 1) :
    rxDataByte b s
      = { s.onChan .ch0 (chunkClose (rxAccepts s (rxFolded b s))) with
          rxCrc := rxFolded b s, rxRem := 0, rxState := .idle } := by
  simp only [rxDataByte, h, onChan_chunkClose, Bool.decide_eq_true]
  rfl

/-! ### The pulse decoder, case by case -/

/-- The packet's length once the byte `v` is accepted: the fourth byte fixes it (42_pulse_decoder.md R250). -/
def pdExpectAfter (v : Byte) (s : State) : Nat :=
  if s.pdCount + 1 = 4 then (if hasExtOf s.cfg v then 6 else 5) else s.pdExpect

/-- The byte `v` stored and counted, before the packet's length is looked at (42_pulse_decoder.md R243). -/
def pdStored (v : Byte) (s : State) : State :=
  { s.onChan .ch1 (fun n => chunkPut n v) with
    pdBytes := s.pdBytes.setIfInBounds s.pdCount v, pdCount := s.pdCount + 1, pdExpect := pdExpectAfter v s }

/-- The byte `v` is the checksum of the bytes before it (42_pulse_decoder.md R255). -/
def pdChecks (v : Byte) (s : State) : Bool :=
  decide (v = packetCheck s.cfg ((pdStored v s).pdBytes.toList.take s.pdCount))

theorem pdAccept_more (v : Byte) (h : s.pdCount + 1 ≠ pdExpectAfter v s) : pdAccept v s = pdStored v s := if_neg h

/-- The packet's last byte closes its chunk (42_pulse_decoder.md R246, R255). -/
theorem pdAccept_last (v : Byte) (h : s.pdCount + 1 = pdExpectAfter v s) :
    pdAccept v s = pdClear ((pdStored v s).onChan .ch1 (chunkClose (pdChecks v s))) :=
  (if_pos h).trans (congrArg pdClear (onChan_chunkClose .ch1))

/-- The state with the bit `b` shifted in and counted (42_pulse_decoder.md R242). -/
def pdShifted (b : Bool) (s : State) : State :=
  { s with pdShift := (s.pdShift <<< 1) ||| (BitVec.ofBool b).setWidth 9, pdBits := s.pdBits + 1 }

theorem pdBitData_more (b : Bool) (h : s.pdBits + 1 ≠ 9) : pdBitData b s = pdShifted b s := if_neg h

theorem pdBitData_ninth (b : Bool) (h : s.pdBits + 1 = 9) : pdBitData b s = pdByte (pdShifted b s) := if_pos h

/-- The state with the ninth bit's byte taken out of the shift register (42_pulse_decoder.md R243). -/
def pdTaken (s : State) : State := { s with pdBits := 0, pdShift := 0 }

/-- The ninth bit's byte is accepted, or is a sync error (42_pulse_decoder.md R243, R245). -/
theorem pdByte_cases : pdByte s = pdResync (pdTaken s) ∨ ∃ v, pdByte s = pdAccept v (pdTaken s) :=
  satisfies_ite (P := fun t => t = pdResync (pdTaken s) ∨ ∃ v, t = pdAccept v (pdTaken s))
    (fun _ => .inl rfl) (fun _ => .inr ⟨_, rfl⟩)

/-! ### The frame of the CRC receiver -/

/-- `t` differs from `s` at most in the CRC receiver's fields and its channel (10_state.md R35, R42). -/
def ReceiverFrame (s t : State) : Prop :=
  { s with ch0 := t.ch0, rxState := t.rxState, rxCrc := t.rxCrc, rxRem := t.rxRem } = t

theorem ReceiverFrame.result_eq (h : ReceiverFrame s t) : t.result = s.result := by rw [← h]

theorem receiverFrame_rxAbandon : ReceiverFrame s (rxAbandon s) := satisfies_ite (fun _ => rfl) (fun _ => rfl)

theorem receiverFrame_rxDataByte (b : Byte) : ReceiverFrame s (rxDataByte b s) := by
  by_cases h1 : s.rxRem = 1
  · rw [rxDataByte_last b h1]; rfl
  · by_cases h2 : 2 < s.rxRem
    · rw [rxDataByte_payload b h2]; rfl
    · rw [rxDataByte_crc b h2 h1]; rfl

/-! ### The frame of the pulse decoder -/

/-- `s` with the pulse decoder's fields and its channel as `u` has them. -/
def State.withPulse (s u : State) : State :=
  { s with
    ch1 := u.ch1, pdPhase := u.pdPhase, pdZeros := u.pdZeros, pdPend := u.pdPend, pdBits := u.pdBits
    pdShift := u.pdShift, pdCount := u.pdCount, pdExpect := u.pdExpect, pdBytes := u.pdBytes }

/-- `t` differs from `s` at most in the pulse decoder's fields and its channel (10_state.md R35, R43). -/
def PulseFrame (s t : State) : Prop := s.withPulse t = t

theorem PulseFrame.result_eq (h : PulseFrame s t) : t.result = s.result := (congrArg State.result h :).symm

theorem pulseFrame_pdResync : PulseFrame s (pdResync s) := by
  cases hphase : s.pdPhase with
  | hunt => rw [pdResync_hunt s hphase]; rfl
  | data => rw [pdResync_data s hphase]; rfl

theorem pulseFrame_pdAccept (v : Byte) : PulseFrame s (pdAccept v s) := by
  by_cases h : s.pdCount + 1 = pdExpectAfter v s
  · rw [pdAccept_last v h]; rfl
  · rw [pdAccept_more v h]; rfl

theorem PulseFrame.trans (hst : PulseFrame s t) (htu : PulseFrame t u) : PulseFrame s u :=
  calc
    s.withPulse u = (s.withPulse t).withPulse u := rfl
    _ = t.withPulse u := congrArg (fun x : State => x.withPulse u) hst
    _ = u := htu

theorem pulseFrame_pdByte : PulseFrame s (pdByte s) := by
  have htaken : PulseFrame s (pdTaken s) := rfl
  rcases pdByte_cases (s := s) with h | ⟨v, h⟩ <;> rw [h]
  · exact htaken.trans pulseFrame_pdResync
  · exact htaken.trans (pulseFrame_pdAccept v)

theorem pulseFrame_pdBitHunt (b : Bool) : PulseFrame s (pdBitHunt b s) :=
  satisfies_ite (fun _ => rfl) (fun _ => satisfies_ite (fun _ => rfl) (fun _ => rfl))

theorem pulseFrame_pdBitData (b : Bool) : PulseFrame s (pdBitData b s) := by
  have hshifted : PulseFrame s (pdShifted b s) := rfl
  by_cases h : s.pdBits + 1 = 9
  · rw [pdBitData_ninth b h]; exact hshifted.trans pulseFrame_pdByte
  · rw [pdBitData_more b h]; exact hshifted

theorem pulseFrame_pdBit (b : Bool) : PulseFrame s (pdBit b s) := by
  unfold pdBit
  split
  · exact pulseFrame_pdBitHunt b
  · exact pulseFrame_pdBitData b

theorem pulseFrame_pdHigh (k : PulseClass) : PulseFrame s (pdHigh k s) := by
  have hsync : PulseFrame s (if s.pdPend ≠ none then pdResync s else s) :=
    satisfies_ite (fun _ => pulseFrame_pdResync) (fun _ => rfl)
  exact hsync.trans rfl

theorem pulseFrame_pdLow (k : PulseClass) : PulseFrame s (pdLow k s) := by
  unfold pdLow
  split
  · exact satisfies_ite (fun _ => pulseFrame_pdResync) (fun _ => rfl)
  · exact satisfies_ite (fun _ => pulseFrame_pdResync) (fun _ => PulseFrame.trans (by rfl) (pulseFrame_pdBit _))

theorem pulseFrame_pdEvent (isHigh : Bool) (d : Half) : PulseFrame s (pdEvent isHigh d s) := by
  refine satisfies_ite (fun _ => pulseFrame_pdResync) (fun _ => ?_)
  split
  · exact pulseFrame_pdResync
  · exact satisfies_ite (fun _ => pulseFrame_pdHigh _) (fun _ => pulseFrame_pdLow _)

/-! ### The frame of the wire encoder -/

/-- `t` differs from `s` at most in `RESULT`, the wire encoder's fields and its channel (10_state.md R30, R35, R45). -/
def EncoderFrame (s t : State) : Prop :=
  { s with ch2 := t.ch2, result := t.result, encOpen := t.encOpen, encValid := t.encValid } = t

/-! ### The frame of the wire decoder -/

/-- `t` differs from `s` at most in `RESULT` and the wire decoder's fields (10_state.md R30, R46). -/
def DecoderFrame (s t : State) : Prop :=
  { s with
    result := t.result, decOpen := t.decOpen, decCh := t.decCh, decPos := t.decPos, decOk := t.decOk } = t

theorem decoderFrame_closeDecode (c : Chan) : DecoderFrame s (closeDecode c s) :=
  satisfies_ite (fun _ => rfl) (fun _ => rfl)

end Sys2Proof.Machine
end

section
/-! PROOFS. `RESULT` under the commands that do not reply (10_state.md R30, 30_encoding.md R107), and the values after
reset (10_state.md R48). -/

namespace Sys2Proof.Machine

variable {s : State}

/-- `RESULT` of the answered state is that of `s`. -/
abbrev KeepsResult (s : State) : Outcome → Prop := Answers (fun t => t.result = s.result)

theorem keepsResult_raiseFault (i : Instr) (cause : FaultCause) : KeepsResult s (raiseFault i cause s) :=
  answers_raiseFault (fun _ _ _ => recordFault_result s _ _ _)

theorem keepsResult_guard {p : Prop} [Decidable p] {i : Instr} {cause : FaultCause} {o : Outcome}
    (h : KeepsResult s o) : KeepsResult s (if p then raiseFault i cause s else o) :=
  answers_guard (fun _ _ _ => recordFault_result s _ _ _) (fun _ => h)

theorem result_encPut (bs : List Byte) : (encPut bs s).result = s.result := rfl

theorem result_closeDecode (c : Chan) : (closeDecode c s).result = s.result :=
  satisfies_ite (P := fun t => t.result = s.result) (fun _ => rfl) (fun _ => rfl)

theorem keepsResult_execRxByte (b : Byte) : KeepsResult s (execRxByte b s) := by
  unfold execRxByte
  split
  · exact answers_next rfl
  · exact answers_next rfl
  · exact answers_next (receiverFrame_rxDataByte b).result_eq

theorem keepsResult_execEncFixed (w : Byte) (v : Word) : KeepsResult s (execEncFixed w v s) := by
  unfold execEncFixed
  split
  · exact keepsResult_raiseFault _ _
  · exact keepsResult_guard (answers_next (result_encPut _))

theorem keepsResult_execDecBegin (ch : BitVec 2) : KeepsResult s (execDecBegin ch s) := by
  unfold execDecBegin
  split
  · exact keepsResult_raiseFault _ _
  · exact keepsResult_guard (answers_next rfl)

/-- The commands whose row of 30_encoding.md R107 says that `RESULT` is unchanged. -/
def leavesResult : Instr → Bool
  | .chWriteStart _ | .chWrite _ _ | .chWriteAbort _ | .chReadEnd _ => true
  | .rxStart _ | .rxByte _ | .pulse _ _ => true
  | .encBegin | .encFixed _ _ | .encVarint _ | .encTvarint _ _ | .encTfixed32 _ _ => true
  | .decBegin _ | .nop | .ctrlWrite _ => true
  | _ => false

theorem exec_keepsResult (i : Instr) (s : State) (hi : leavesResult i = true) : KeepsResult s (exec i s) := by
  cases i with
  | chWriteStart c => exact keepsResult_guard (keepsResult_guard (answers_next (State.onChan_result _ _ _)))
  | chWrite c b => exact keepsResult_guard (keepsResult_guard (answers_next (State.onChan_result _ _ _)))
  | chWriteAbort c => exact keepsResult_guard (keepsResult_guard (answers_next (State.onChan_result _ _ _)))
  | chReadEnd c =>
    exact keepsResult_guard (answers_next ((result_closeDecode c).trans (State.onChan_result _ _ _)))
  | rxStart h => exact answers_next receiverFrame_rxAbandon.result_eq
  | rxByte b => exact keepsResult_execRxByte b
  | pulse isHigh d => exact answers_next (pulseFrame_pdEvent isHigh d).result_eq
  | encBegin => exact keepsResult_guard (keepsResult_guard (answers_next rfl))
  | encFixed w v => exact keepsResult_execEncFixed w v
  | encVarint v => exact keepsResult_guard (answers_next (result_encPut _))
  | encTvarint tag v => exact keepsResult_guard (keepsResult_guard (answers_next (result_encPut _)))
  | encTfixed32 tag v => exact keepsResult_guard (keepsResult_guard (answers_next (result_encPut _)))
  | decBegin ch => exact keepsResult_execDecBegin ch
  | nop => exact answers_next rfl
  | ctrlWrite v => exact answers_next rfl
  | _ => cases hi

end Sys2Proof.Machine

namespace Sys2Proof.Proofs

open Sys2Proof.Machine

/-- Settles O17: each listed command keeps `RESULT`, by the frames of the units. -/
theorem resultUnchangedWhereListed : Obligations.ResultUnchangedWhereListed := by
  intro s t c b w v h d ch i hi hexec
  have hkeeps : leavesResult i = true := List.all_eq_true.1 (by rfl) i hi
  exact (exec_keepsResult i s hkeeps).of_next hexec

/-- Settles O9: the reset state is a literal, and each of its channels is `Channel.reset`. -/
theorem resetLeavesListedValues : Obligations.ResetLeavesListedValues := by
  intro cfg
  have hchan : ∀ c, (State.resetWith cfg).chan c = Channel.reset := by
    intro c
    cases c <;> rfl
  simp only [State.hasContentOutput, hchan]
  simp [State.resetWith, Channel.reset]

end Sys2Proof.Proofs
end

section
/-! PROOFS. The invariant (10_state.md R33, R34, R39, R42 to R46). A unit's operation keeps it when the unit's own clauses
hold of the answer and the operation stays within the unit's frame; the clauses of the channels are those of
Laws/Channel. -/

namespace Sys2Proof.Machine

variable {s t : State} {n : Nat} {ch : Channel}

/-! ### What a writer leaves to the reader of its channel -/

/-- `b` is open for reading as `a` is, on a chunk of the same length (10_state.md R38). -/
structure SameReader (a b : Channel) : Prop where
  ropen : b.ropen = a.ropen
  rlen : b.rlen = a.rlen

theorem SameReader.refl (a : Channel) : SameReader a a := ⟨rfl, rfl⟩

theorem SameReader.trans {a b c : Channel} (hab : SameReader a b) (hbc : SameReader b c) : SameReader a c :=
  ⟨hbc.ropen.trans hab.ropen, hbc.rlen.trans hab.rlen⟩

theorem sameReader_chunkStart : SameReader ch (chunkStart n ch) := by
  by_cases h : ch.count < n
  · rw [chunkStart_room n ch h]; exact ⟨rfl, rfl⟩
  · rw [chunkStart_full n ch h]; exact ⟨rfl, rfl⟩

theorem sameReader_chunkPut (b : Byte) : SameReader ch (chunkPut n b ch) := by
  rcases chunkPut_cases n ch b with ⟨_, e⟩ | ⟨_, _, e⟩ | ⟨_, _, _, e⟩ <;> rw [e] <;> exact ⟨rfl, rfl⟩

theorem sameReader_chunkAbort : SameReader ch (chunkAbort ch) := ⟨rfl, rfl⟩

theorem sameReader_chunkEnd : SameReader ch (chunkEnd n ch) := by
  cases hl : ch.wlost with
  | true => rw [chunkEnd_lost n ch hl]; exact sameReader_chunkAbort
  | false => rw [chunkEnd_commits n ch hl]; exact ⟨rfl, rfl⟩

theorem sameReader_chunkClose (keep : Bool) : SameReader ch (chunkClose keep n ch) := by
  cases keep
  · exact sameReader_chunkAbort
  · exact sameReader_chunkEnd

theorem sameReader_chunkPutAll (bs : List Byte) : SameReader ch (chunkPutAll n bs ch) := by
  induction bs generalizing ch with
  | nil => exact SameReader.refl ch
  | cons b bs ih => exact (sameReader_chunkPut b).trans ih

/-! ### Whether a chunk is open for writing -/

theorem writing_chunkStart : (chunkStart n ch).writing = true := by
  by_cases h : ch.count < n
  · rw [chunkStart_room n ch h]
  · rw [chunkStart_full n ch h]

theorem writing_chunkPut (b : Byte) : (chunkPut n b ch).writing = ch.writing := by
  rcases chunkPut_cases n ch b with ⟨_, e⟩ | ⟨_, _, e⟩ | ⟨_, _, _, e⟩ <;> rw [e]

theorem writing_chunkEnd : (chunkEnd n ch).writing = false := by
  cases hl : ch.wlost with
  | true => rw [chunkEnd_lost n ch hl]; rfl
  | false => rw [chunkEnd_commits n ch hl]

theorem writing_chunkClose (keep : Bool) : (chunkClose keep n ch).writing = false := by
  cases keep
  · rfl
  · exact writing_chunkEnd

theorem writing_chunkPutAll (bs : List Byte) : (chunkPutAll n bs ch).writing = ch.writing := by
  induction bs generalizing ch with
  | nil => rfl
  | cons b bs ih => exact ih.trans (writing_chunkPut b)

/-! ### The channel invariant under the remaining channel operations -/

theorem inv_chunkClose (keep : Bool) (h : ch.Inv n) (hw : ch.writing = true) (hn : n ≤ 256) :
    (chunkClose keep n ch).Inv n := by
  cases keep
  · exact inv_chunkAbort h hw
  · exact inv_chunkEnd h hw hn

theorem inv_chunkPutAll (bs : List Byte) (h : ch.Inv n) (hw : ch.writing = true) : (chunkPutAll n bs ch).Inv n := by
  induction bs generalizing ch with
  | nil => exact h
  | cons b bs ih => exact ih (inv_chunkPut b h hw) ((writing_chunkPut b).trans hw)

/-- Moving the read cursor within the open chunk touches no other clause. -/
theorem inv_rpos {p : Nat} (h : ch.Inv n) (ho : ch.ropen = true) (hp : p ≤ ch.rlen) :
    ({ ch with rpos := p } : Channel).Inv n := by
  have hoff : chunkOffset n { ch with rpos := p } ch.nchunks = chunkOffset n ch ch.nchunks :=
    chunkOffset_congr (a := ch) (b := { ch with rpos := p }) (fun _ _ => rfl) _ (Nat.le_refl _)
  obtain ⟨hfirst, hlen, -⟩ := h.readOpen ho
  exact
    { h with
      countSum := hoff ▸ h.countSum
      wstartPlace := fun hw => hoff ▸ h.wstartPlace hw
      readOpen := fun _ => ⟨hfirst, hlen, hp⟩
      readClosed := fun hf => absurd (ho.symm.trans hf) (by decide) }

theorem inv_channelReset (hn : 0 < n) : Channel.reset.Inv n where
  bufCanonical := rfl
  bufBelow := rfl
  rdRange := hn
  wrRange := hn
  wstartRange := hn
  countRange := Nat.zero_le n
  countSum := rfl
  wrPlace := (Nat.zero_mod n).symm
  wstartPlace := fun h => absurd h (by decide)
  readOpen := fun h => absurd h (by decide)
  readClosed := fun _ => ⟨rfl, rfl⟩
  writeClosed := fun _ => ⟨rfl, rfl⟩
  writeOpen := fun h => absurd h (by decide)

/-- A chunk's length is one byte (10_state.md R38). -/
theorem Channel.Inv.rlen_le (h : ch.Inv n) : ch.rlen ≤ 255 := by
  cases ho : ch.ropen with
  | true =>
    obtain ⟨-, hlen, -⟩ := h.readOpen ho
    have hbyte := (rbPeek n 0 ch).isLt
    omega
  | false =>
    obtain ⟨hlen, -⟩ := h.readClosed ho
    omega

/-! ### Well-formed configurations -/

/-- A capacity is legal as 2 to 256 (00_scope.md R8). -/
theorem capacity_range (hwf : s.cfg.wf = true) (c : Chan) : 2 ≤ s.capacity c ∧ s.capacity c ≤ 256 := by
  simp only [Config.wf, Config.legal, Config.within, Bool.and_eq_true, decide_eq_true_eq] at hwf
  cases c <;> simp only [State.capacity] <;> omega

/-! ### Updates of the registers and of each unit -/

namespace State.Inv

/-- The inputs still to come and the count of commands are in no clause. -/
theorem withPort (h : s.Inv) (rest : List Input) (k : Nat) : { s with inputs := rest, position := k }.Inv :=
  { h with }

theorem setResult (h : s.Inv) (v : Word) : (s.setResult v).Inv := { h with }

theorem recordFault (h : s.Inv) (unit op : Nibble) (cause : FaultCause) : (recordFault unit op cause s).Inv := by
  cases hv : s.fault.getLsbD 16 with
  | true => rwa [recordFault_sticky s unit op cause hv]
  | false =>
    rw [recordFault_first s unit op cause hv]
    have hvalid := faultWord_valid unit op cause
    exact
      { h with
        faultReserved := faultWord_reserved unit op cause
        faultUnset := fun hunset => absurd (hvalid.symm.trans hunset) (by decide)
        faultSet := fun _ => ⟨unit, op, cause, rfl⟩ }

theorem ctrlWrite (h : s.Inv) (v : Byte) : { s with ctrl := v &&& 0x01 }.Inv :=
  { h with ctrlReserved := show v &&& 0x01 &&& 0xFE = 0 by rw [BitVec.and_assoc]; simp }

/-- The decoder's clause looks at a channel's reader only. -/
theorem source_of_sameReader (h : s.Inv) (hr : ∀ c, SameReader (s.chan c) (t.chan c)) (hopen : s.decOpen = true) :
    (t.chan s.decCh).ropen = true ∧ s.decPos ≤ (t.chan s.decCh).rlen := by
  rw [(hr s.decCh).ropen, (hr s.decCh).rlen]
  exact h.decSource hopen

theorem of_receiver (h : s.Inv) (hframe : ReceiverFrame s t) (hch : t.ch0.Inv s.cfg.n0) (hr : SameReader s.ch0 t.ch0)
    (hw : t.ch0.writing = true ↔ t.rxState ≠ .idle) (hrem : rxRemOk s.cfg.maxLen t.rxState t.rxRem) : t.Inv := by
  refine hframe.subst (motive := State.Inv) ?_
  exact
    { h with
      channels := fun c => by
        cases c
        · exact hch
        · exact h.channels .ch1
        · exact h.channels .ch2
      rxWriting := hw
      rxCounter := hrem
      decSource := h.source_of_sameReader fun c => by
        cases c
        · exact hr
        · exact SameReader.refl _
        · exact SameReader.refl _ }

theorem of_pulse (h : s.Inv) (hframe : PulseFrame s t) (hch : t.ch1.Inv s.cfg.n1) (hr : SameReader s.ch1 t.ch1)
    (hw : t.ch1.writing = true ↔ t.pdPhase = .data) (hcount : pdCountersOk t) : t.Inv := by
  refine hframe.subst (motive := State.Inv) ?_
  exact
    { h with
      channels := fun c => by
        cases c
        · exact h.channels .ch0
        · exact hch
        · exact h.channels .ch2
      pdWriting := hw
      pdCounters := hcount
      decSource := h.source_of_sameReader fun c => by
        cases c
        · exact SameReader.refl _
        · exact hr
        · exact SameReader.refl _ }

theorem of_encoder (h : s.Inv) (hframe : EncoderFrame s t) (hch : t.ch2.Inv s.cfg.n2) (hr : SameReader s.ch2 t.ch2)
    (hopen : t.encOpen = true → t.ch2.writing = true ∧ t.encValid = !t.ch2.wlost)
    (hclosed : t.encOpen = false → t.encValid = false) : t.Inv := by
  refine hframe.subst (motive := State.Inv) ?_
  exact
    { h with
      channels := fun c => by
        cases c
        · exact h.channels .ch0
        · exact h.channels .ch1
        · exact hch
      encWriting := hopen
      encClosed := hclosed
      decSource := h.source_of_sameReader fun c => by
        cases c
        · exact SameReader.refl _
        · exact SameReader.refl _
        · exact hr }

theorem of_decoder (h : s.Inv) (hframe : DecoderFrame s t)
    (hsource : t.decOpen = true → (s.chan t.decCh).ropen = true ∧ t.decPos ≤ (s.chan t.decCh).rlen)
    (hrange : t.decPos ≤ 255) : t.Inv :=
  hframe.subst (motive := State.Inv) { h with decSource := hsource, decRange := hrange }

/-- A reader's operation on a channel: its writer's part stays, and an open decode keeps its source. -/
theorem onReader {c : Chan} {f : Nat → Channel → Channel} (h : s.Inv)
    (hch : (f (s.capacity c) (s.chan c)).Inv (s.capacity c))
    (hwriting : (f (s.capacity c) (s.chan c)).writing = (s.chan c).writing)
    (hlost : (f (s.capacity c) (s.chan c)).wlost = (s.chan c).wlost)
    (hsource : s.decOpen = true → s.decCh = c →
      (f (s.capacity c) (s.chan c)).ropen = true ∧ s.decPos ≤ (f (s.capacity c) (s.chan c)).rlen) :
    (s.onChan c f).Inv := by
  have hchannels : ∀ d, ((s.onChan c f).chan d).Inv (s.capacity d) := fun d => by
    by_cases hd : d = c
    · subst hd; rwa [State.onChan_self]
    · rw [State.onChan_ne s c f d hd]; exact h.channels d
  have hsrc : s.decOpen = true →
      ((s.onChan c f).chan s.decCh).ropen = true ∧ s.decPos ≤ ((s.onChan c f).chan s.decCh).rlen := fun hopen => by
    by_cases hd : s.decCh = c
    · rw [hd, State.onChan_self]; exact hsource hopen hd
    · rw [State.onChan_ne s c f _ hd]; exact h.decSource hopen
  cases c with
  | ch0 => exact { h with channels := hchannels, decSource := hsrc, rxWriting := hwriting ▸ h.rxWriting }
  | ch1 => exact { h with channels := hchannels, decSource := hsrc, pdWriting := hwriting ▸ h.pdWriting }
  | ch2 =>
    exact
      { h with
        channels := hchannels
        decSource := hsrc
        encWriting := fun hopen => by
          obtain ⟨hw, hv⟩ := h.encWriting hopen
          exact ⟨hwriting.trans hw, hv.trans (congrArg (!·) hlost.symm)⟩ }

end State.Inv

end Sys2Proof.Machine
end

section
/-! PROOFS. Every command keeps the invariant (10_state.md R39, 41_crc_receiver.md R210): unit by unit, then over the
commands and the inputs of the port. -/

namespace Sys2Proof.Machine

variable {s t : State}

/-! ### Control unit and host's channel commands -/

/-- The answered state satisfies the invariant. -/
abbrev AnswersInv : Outcome → Prop := Answers State.Inv

theorem answersInv_guard {p : Prop} [Decidable p] {i : Instr} {cause : FaultCause} {o : Outcome} (h : s.Inv)
    (ho : ¬p → AnswersInv o) : AnswersInv (if p then raiseFault i cause s else o) :=
  answers_guard h.recordFault ho

/-- The host owns a channel only if it is CH2 with no message open (10_state.md R40). -/
theorem ch2_of_not_owned {c : Chan} (h : ¬owned s c = true) : c = .ch2 ∧ s.encOpen = false := by
  cases c with
  | ch0 => exact absurd rfl h
  | ch1 => exact absurd rfl h
  | ch2 => exact ⟨rfl, by simpa [owned] using h⟩

/-- A writer's operation of the host. -/
theorem State.Inv.onHostWriter {c : Chan} {f : Nat → Channel → Channel} (h : s.Inv) (hown : ¬owned s c = true)
    (hch : (f (s.capacity c) (s.chan c)).Inv (s.capacity c))
    (hr : SameReader (s.chan c) (f (s.capacity c) (s.chan c))) : (s.onChan c f).Inv := by
  obtain ⟨rfl, hclosed⟩ := ch2_of_not_owned hown
  exact h.of_encoder rfl hch hr (fun hopen => absurd (hclosed.symm.trans hopen) (by decide)) h.encClosed

theorem answersInv_execChWriteStart (h : s.Inv) (c : Chan) : AnswersInv (execChWriteStart c s) :=
  answersInv_guard h fun hown => answersInv_guard h fun hw =>
    answers_next (h.onHostWriter hown (inv_chunkStart (h.channels c) (by simpa using hw)) sameReader_chunkStart)

theorem answersInv_execChWrite (h : s.Inv) (c : Chan) (b : Byte) : AnswersInv (execChWrite c b s) :=
  answersInv_guard h fun hown => answersInv_guard h fun hw =>
    answers_next (h.onHostWriter hown (inv_chunkPut b (h.channels c) (by simpa using hw)) (sameReader_chunkPut b))

theorem answersInv_execChWriteEnd (h : s.Inv) (c : Chan) : AnswersInv (execChWriteEnd c s) :=
  answersInv_guard h fun hown => answersInv_guard h fun hw =>
    answers_next ((h.onHostWriter hown
      (inv_chunkEnd (h.channels c) (by simpa using hw) (capacity_range h.config c).2) sameReader_chunkEnd).setResult _)

theorem answersInv_execChWriteAbort (h : s.Inv) (c : Chan) : AnswersInv (execChWriteAbort c s) :=
  answersInv_guard h fun hown => answersInv_guard h fun hw =>
    answers_next (h.onHostWriter hown (inv_chunkAbort (h.channels c) (by simpa using hw)) sameReader_chunkAbort)

theorem answersInv_execChReadStart (h : s.Inv) (c : Chan) : AnswersInv (execChReadStart c s) :=
  answersInv_guard h fun hclosed => answersInv_guard h fun hn => by
    have hsource : s.decOpen = true → s.decCh ≠ c := fun hopen hc =>
      hclosed (hc ▸ (h.decSource hopen).1)
    exact answers_next ((h.onReader (inv_readStart (h.channels c) hn) rfl rfl
      (fun hopen hc => absurd hc (hsource hopen))).setResult _)

theorem answersInv_execChRead (h : s.Inv) (c : Chan) : AnswersInv (execChRead c s) :=
  answersInv_guard h fun hopen => answersInv_guard h fun hpos => by
    have ho : (s.chan c).ropen = true := by simpa using hopen
    obtain ⟨-, -, hle⟩ := (h.channels c).readOpen ho
    exact answers_next ((h.onReader (inv_rpos (h.channels c) ho (by omega)) rfl rfl
      (fun hdec hc => hc ▸ h.decSource hdec)).setResult _)

theorem answersInv_execChPeek (h : s.Inv) (c : Chan) (k : Byte) : AnswersInv (execChPeek c k s) :=
  answersInv_guard h fun _ => answersInv_guard h fun _ => answers_next (h.setResult _)

theorem closeDecode_onChan (c : Chan) (f : Nat → Channel → Channel) :
    closeDecode c (s.onChan c f) = (closeDecode c s).onChan c f := by
  unfold closeDecode
  rw [State.onChan_decOpen, State.onChan_decCh]
  split
  · cases c <;> rfl
  · rfl

theorem State.Inv.closeDecode (h : s.Inv) (c : Chan) : (closeDecode c s).Inv :=
  satisfies_ite (fun _ => h.of_decoder rfl (fun hopen => absurd hopen (by simp)) h.decRange) (fun _ => h)

theorem decCh_closeDecode {c : Chan} (hopen : (closeDecode c s).decOpen = true) : (closeDecode c s).decCh ≠ c := by
  unfold Machine.closeDecode at hopen ⊢
  split at hopen
  · cases hopen
  · rename_i hne
    rw [if_neg hne]
    simpa [hopen] using hne

/-- Closing the decode first, no source is lost by the release. -/
theorem answersInv_execChReadEnd (h : s.Inv) (c : Chan) : AnswersInv (execChReadEnd c s) :=
  answersInv_guard h fun hopen => by
    have hc := h.closeDecode c
    have ho : ((closeDecode c s).chan c).ropen = true := by
      rw [← decoderFrame_closeDecode (s := s) c]
      cases c <;> simpa using hopen
    rw [closeDecode_onChan]
    exact answers_next (hc.onReader (inv_readEnd (hc.channels c) ho) rfl rfl
      (fun hdec hd => absurd hd (decCh_closeDecode hdec)))

/-! ### The CRC receiver -/

theorem answersInv_execRxStart (h : s.Inv) (b : Byte) : AnswersInv (execRxStart b s) := by
  have hch := h.channels .ch0
  by_cases hidle : s.rxState = .idle
  · have hclosed : s.ch0.writing = false := by simpa [hidle] using h.rxWriting
    unfold execRxStart
    rw [rxAbandon_idle hidle]
    refine answers_next (h.of_receiver rfl ?_ ?_ ?_ rfl)
    · exact inv_chunkPut b (inv_chunkStart hch hclosed) writing_chunkStart
    · exact sameReader_chunkStart.trans (sameReader_chunkPut b)
    · exact iff_of_true ((writing_chunkPut b).trans writing_chunkStart) (by simp)
  · have hw : s.ch0.writing = true := h.rxWriting.2 hidle
    unfold execRxStart
    rw [rxAbandon_busy hidle]
    refine answers_next (h.of_receiver rfl ?_ ?_ ?_ rfl)
    · exact inv_chunkPut b (inv_chunkStart (inv_chunkAbort hch hw) rfl) writing_chunkStart
    · exact (sameReader_chunkAbort.trans sameReader_chunkStart).trans (sameReader_chunkPut b)
    · exact iff_of_true ((writing_chunkPut b).trans writing_chunkStart) (by simp)

theorem State.Inv.rxLengthByte (h : s.Inv) (b : Byte) (hst : s.rxState = .length) : (rxLengthByte b s).Inv := by
  have hw : s.ch0.writing = true := h.rxWriting.2 (by simp [hst])
  have hrem : rxRemOk s.cfg.maxLen .data (min b.toNat s.cfg.maxLen + 2) := by
    constructor <;> omega
  exact h.of_receiver rfl (h.channels .ch0) (SameReader.refl _) (iff_of_true hw (by simp [Machine.rxLengthByte])) hrem

theorem State.Inv.rxDataByte (h : s.Inv) (b : Byte) (hst : s.rxState = .data) : (rxDataByte b s).Inv := by
  have hch := h.channels .ch0
  have hw : s.ch0.writing = true := h.rxWriting.2 (by simp [hst])
  obtain ⟨hpos, hmax⟩ : 1 ≤ s.rxRem ∧ s.rxRem ≤ s.cfg.maxLen + 2 := by
    have := h.rxCounter
    rwa [hst] at this
  have hrem : s.rxRem ≠ 1 → rxRemOk s.cfg.maxLen s.rxState (s.rxRem - 1) := fun h1 => by
    rw [hst]
    constructor <;> omega
  have hbusy : s.rxState ≠ .idle := by simp [hst]
  by_cases h1 : s.rxRem = 1
  · rw [rxDataByte_last b h1]
    exact h.of_receiver rfl (inv_chunkClose _ hch hw (capacity_range h.config .ch0).2) (sameReader_chunkClose _)
      (iff_of_false (by simp [writing_chunkClose]) (by simp)) rfl
  · by_cases h2 : 2 < s.rxRem
    · rw [rxDataByte_payload b h2]
      exact h.of_receiver rfl (inv_chunkPut b hch hw) (sameReader_chunkPut b)
        (iff_of_true ((writing_chunkPut b).trans hw) hbusy) (hrem h1)
    · rw [rxDataByte_crc b h2 h1]
      exact h.of_receiver rfl hch (SameReader.refl _) h.rxWriting (hrem h1)

theorem answersInv_execRxByte (h : s.Inv) (b : Byte) : AnswersInv (execRxByte b s) := by
  unfold execRxByte
  split
  · exact answers_next h
  · exact answers_next (h.rxLengthByte b ‹_›)
  · exact answers_next (h.rxDataByte b ‹_›)

/-! ### The pulse decoder -/

theorem pdCountersOk_data (hphase : s.pdPhase = .data) :
    pdCountersOk s ↔ s.pdBits ≤ 8 ∧ s.pdCount < s.pdExpect ∧ (s.pdExpect = 5 ∨ s.pdExpect = 6)
      ∧ (s.pdCount < 4 → s.pdExpect = 5) := by
  simp only [pdCountersOk, hphase]

theorem State.Inv.pdResync (h : s.Inv) : (pdResync s).Inv := by
  cases hphase : s.pdPhase with
  | hunt =>
    have hw : ¬s.ch1.writing = true := by simp [h.pdWriting, hphase]
    rw [pdResync_hunt s hphase]
    exact h.of_pulse rfl (h.channels .ch1) (SameReader.refl _) (iff_of_false hw (by simp)) ⟨rfl, rfl, rfl, rfl⟩
  | data =>
    rw [pdResync_data s hphase]
    exact h.of_pulse rfl (inv_chunkAbort (h.channels .ch1) (h.pdWriting.2 hphase)) sameReader_chunkAbort
      (iff_of_false (by simp [chunkAbort]) (by simp)) ⟨rfl, rfl, rfl, rfl⟩

theorem State.Inv.pdTaken (h : s.Inv) (hphase : s.pdPhase = .data) : (pdTaken s).Inv := by
  obtain ⟨-, hcount⟩ := (pdCountersOk_data hphase).1 h.pdCounters
  exact { h with pdCounters := (pdCountersOk_data (s := Machine.pdTaken s) hphase).2 ⟨Nat.zero_le 8, hcount⟩ }

/-- The packet's length stays 5 or 6, and is fixed by the fourth byte (42_pulse_decoder.md R250). -/
theorem pdExpectAfter_range (v : Byte) (hlt : s.pdCount < s.pdExpect) (hex : s.pdExpect = 5 ∨ s.pdExpect = 6)
    (hfour : s.pdCount < 4 → s.pdExpect = 5) :
    s.pdCount + 1 ≤ pdExpectAfter v s ∧ (pdExpectAfter v s = 5 ∨ pdExpectAfter v s = 6)
      ∧ (s.pdCount + 1 < 4 → pdExpectAfter v s = 5) := by
  unfold pdExpectAfter
  split
  · split <;> omega
  · omega

theorem State.Inv.pdAccept (h : s.Inv) (v : Byte) (hphase : s.pdPhase = .data) : (pdAccept v s).Inv := by
  have hch := h.channels .ch1
  have hw := h.pdWriting.2 hphase
  obtain ⟨hbits, hlt, hex, hfour⟩ := (pdCountersOk_data hphase).1 h.pdCounters
  obtain ⟨hle, hex', hfour'⟩ := pdExpectAfter_range v hlt hex hfour
  have hput := inv_chunkPut v hch hw
  have hwput := (writing_chunkPut (n := s.cfg.n1) (ch := s.ch1) v).trans hw
  by_cases hlast : s.pdCount + 1 = pdExpectAfter v s
  · rw [pdAccept_last v hlast]
    exact h.of_pulse rfl (inv_chunkClose _ hput hwput (capacity_range h.config .ch1).2)
      ((sameReader_chunkPut v).trans (sameReader_chunkClose _))
      (iff_of_false (by simp [writing_chunkClose]) (by simp)) ⟨rfl, rfl, rfl, rfl⟩
  · rw [pdAccept_more v hlast]
    have hcount : pdCountersOk (pdStored v s) :=
      (pdCountersOk_data (s := pdStored v s) hphase).2 ⟨hbits, Nat.lt_of_le_of_ne hle hlast, hex', hfour'⟩
    exact h.of_pulse rfl hput (sameReader_chunkPut v) (iff_of_true hwput hphase) hcount

theorem inv_pdByte (h : (pdTaken s).Inv) (hphase : s.pdPhase = .data) : (pdByte s).Inv := by
  rcases pdByte_cases (s := s) with e | ⟨v, e⟩ <;> rw [e]
  · exact h.pdResync
  · exact h.pdAccept v hphase

theorem State.Inv.pdBitHunt (h : s.Inv) (b : Bool) (hphase : s.pdPhase = .hunt) : (pdBitHunt b s).Inv := by
  have hclosed : s.ch1.writing = false := by simpa [hphase] using h.pdWriting
  refine satisfies_ite (fun _ => { h with }) (fun _ => satisfies_ite (fun _ => ?_) (fun _ => { h with }))
  exact h.of_pulse rfl (inv_chunkStart (h.channels .ch1) hclosed) sameReader_chunkStart
    (iff_of_true writing_chunkStart rfl) ⟨Nat.zero_le 8, Nat.zero_lt_succ 4, .inl rfl, fun _ => rfl⟩

theorem State.Inv.pdBitData (h : s.Inv) (b : Bool) (hphase : s.pdPhase = .data) : (pdBitData b s).Inv := by
  by_cases hbit : s.pdBits + 1 = 9
  · rw [pdBitData_ninth b hbit]
    exact inv_pdByte (s := pdShifted b s) (h.pdTaken hphase) hphase
  · rw [pdBitData_more b hbit]
    obtain ⟨hbits, hcount⟩ := (pdCountersOk_data hphase).1 h.pdCounters
    have hshifted : pdCountersOk (pdShifted b s) :=
      (pdCountersOk_data (s := pdShifted b s) hphase).2 ⟨show s.pdBits + 1 ≤ 8 by omega, hcount⟩
    exact { h with pdCounters := hshifted }

theorem State.Inv.pdBit (h : s.Inv) (b : Bool) : (pdBit b s).Inv := by
  unfold Machine.pdBit
  split
  · exact h.pdBitHunt b ‹_›
  · exact h.pdBitData b ‹_›

theorem State.Inv.pdHigh (h : s.Inv) (k : PulseClass) : (pdHigh k s).Inv := by
  have hsync : (if s.pdPend ≠ none then Machine.pdResync s else s).Inv :=
    satisfies_ite (fun _ => h.pdResync) (fun _ => h)
  exact { hsync with }

theorem State.Inv.pdLow (h : s.Inv) (k : PulseClass) : (pdLow k s).Inv := by
  have hpend : { s with pdPend := none }.Inv := { h with }
  unfold Machine.pdLow
  split
  · exact satisfies_ite (fun _ => h.pdResync) (fun _ => h)
  · exact satisfies_ite (fun _ => h.pdResync) (fun _ => hpend.pdBit _)

theorem State.Inv.pdEvent (h : s.Inv) (isHigh : Bool) (d : Half) : (pdEvent isHigh d s).Inv := by
  refine satisfies_ite (fun _ => h.pdResync) (fun _ => ?_)
  split
  · exact h.pdResync
  · exact satisfies_ite (fun _ => h.pdHigh _) (fun _ => h.pdLow _)

/-! ### The wire encoder -/

theorem answersInv_execEncBegin (h : s.Inv) : AnswersInv (execEncBegin s) :=
  answersInv_guard h fun _ => answersInv_guard h fun hw =>
    answers_next (h.of_encoder rfl (inv_chunkStart (h.channels .ch2) (by simpa using hw)) sameReader_chunkStart
      (fun _ => ⟨writing_chunkStart, rfl⟩) (fun hclosed => absurd hclosed (by simp)))

theorem State.Inv.encPut (h : s.Inv) (bs : List Byte) (hopen : s.encOpen = true) : (encPut bs s).Inv := by
  obtain ⟨hw, -⟩ := h.encWriting hopen
  exact h.of_encoder rfl (inv_chunkPutAll bs (h.channels .ch2) hw) (sameReader_chunkPutAll bs)
    (fun _ => ⟨(writing_chunkPutAll bs).trans hw, rfl⟩) (fun hclosed => absurd (hopen.symm.trans hclosed) (by decide))

/-- A field command past its operand check. -/
theorem answersInv_encField (h : s.Inv) (i : Instr) (bs : List Byte) :
    AnswersInv (if !s.encOpen then raiseFault i .encNotOpen s else .next (encPut bs s)) :=
  answersInv_guard h fun hopen => answers_next (h.encPut bs (by simpa using hopen))

theorem answersInv_execEncFixed (h : s.Inv) (w : Byte) (v : Word) : AnswersInv (execEncFixed w v s) := by
  unfold execEncFixed
  split
  · exact answers_raiseFault h.recordFault
  · exact answersInv_encField h _ _

theorem answersInv_execEncEnd (h : s.Inv) : AnswersInv (execEncEnd s) :=
  answersInv_guard h fun hopen => by
    obtain ⟨hw, -⟩ := h.encWriting (by simpa using hopen)
    rw [onChan_chunkClose]
    exact answers_next (h.of_encoder rfl (inv_chunkClose _ (h.channels .ch2) hw (capacity_range h.config .ch2).2)
      (sameReader_chunkClose _) (fun hf => absurd hf (by simp)) (fun _ => rfl))

/-! ### The wire decoder -/

theorem unvarintLoop_taken {k m : Nat} {v x : Word} {bs : List Byte} (h : unvarintLoop k v bs = some (x, m)) :
    m ≤ k + bs.length := by
  induction bs generalizing k v with
  | nil => simp [unvarintLoop] at h
  | cons b bs ih =>
    simp only [unvarintLoop] at h
    split at h
    · cases h
    · split at h
      · have := ih h
        simp only [List.length_cons]
        omega
      · cases h
        simp

/-- A varint takes no more bytes than there are (30_encoding.md R121). -/
theorem unvarint_taken {m : Nat} {x : Word} {bs : List Byte} (h : unvarint bs = some (x, m)) : m ≤ bs.length := by
  have := unvarintLoop_taken h
  omega

/-- A fixed-width read that does not fail has its bytes before the chunk's end (44_wire_decoder.md R313). -/
theorem fits_of_not_fails {n : Nat} (h : ¬(!s.decOk || decide (s.decPos + n > s.decLen)) = true) :
    s.decPos + n ≤ s.decLen := by
  rw [Bool.or_eq_true, not_or, decide_eq_true_eq] at h
  exact Nat.le_of_not_lt h.2

theorem State.Inv.decFail (h : s.Inv) : (decFail s).Inv := { h with }

theorem State.Inv.decAdvance (h : s.Inv) {n : Nat} (v : Word) (hle : s.decPos + n ≤ s.decLen) :
    (decAdvance n v s).Inv :=
  h.of_decoder rfl (fun hopen => ⟨(h.decSource hopen).1, hle⟩) (Nat.le_trans hle (h.channels s.decCh).rlen_le)

theorem answersInv_execDecBegin (h : s.Inv) (ch : BitVec 2) : AnswersInv (execDecBegin ch s) := by
  unfold execDecBegin
  split
  · exact answers_raiseFault h.recordFault
  · exact answersInv_guard h fun hopen =>
      answers_next (h.of_decoder rfl (fun _ => ⟨by simpa using hopen, Nat.zero_le _⟩) (Nat.zero_le 255))

theorem answersInv_execDecFixed (h : s.Inv) (w : Byte) : AnswersInv (execDecFixed w s) := by
  unfold execDecFixed
  split
  · exact answers_raiseFault h.recordFault
  · refine answersInv_guard h fun _ => ?_
    split
    · exact answers_next h.decFail
    · exact answers_next (h.decAdvance _ (fits_of_not_fails ‹_›))

theorem answersInv_execDecVarint (h : s.Inv) : AnswersInv (execDecVarint s) := by
  refine answersInv_guard h fun hopen => ?_
  obtain ⟨-, hpos⟩ := h.decSource (by simpa using hopen)
  split
  · exact answers_next (h.setResult 0)
  · split
    · exact answers_next h.decFail
    · rename_i v n htaken
      have hlen := unvarint_taken htaken
      simp only [State.contentBytes, List.length_map, List.length_range] at hlen
      have hpos' : s.decPos ≤ s.decLen := hpos
      exact answers_next (h.decAdvance v (by omega))

/-! ### Every command -/

/-- Every command keeps the invariant, from every state that has it. -/
theorem exec_answersInv (i : Instr) (h : s.Inv) : AnswersInv (exec i s) := by
  cases i with
  | chWriteStart c => exact answersInv_execChWriteStart h c
  | chWrite c b => exact answersInv_execChWrite h c b
  | chWriteEnd c => exact answersInv_execChWriteEnd h c
  | chWriteAbort c => exact answersInv_execChWriteAbort h c
  | chHasContent c => exact answers_next (h.setResult _)
  | chReadStart c => exact answersInv_execChReadStart h c
  | chRead c => exact answersInv_execChRead h c
  | chPeek c k => exact answersInv_execChPeek h c k
  | chReadEnd c => exact answersInv_execChReadEnd h c
  | chAvail c => exact answers_next (h.setResult _)
  | chIsWriting c => exact answers_next (h.setResult _)
  | rxStart b => exact answersInv_execRxStart h b
  | rxByte b => exact answersInv_execRxByte h b
  | rxIsWriting => exact answers_next (h.setResult _)
  | pulse isHigh d => exact answers_next (h.pdEvent isHigh d)
  | pdStatus => exact answers_next (h.setResult _)
  | encBegin => exact answersInv_execEncBegin h
  | encFixed w v => exact answersInv_execEncFixed h w v
  | encVarint v => exact answersInv_encField h _ _
  | encTvarint tag v => exact answersInv_guard h fun _ => answersInv_encField h _ _
  | encTfixed32 tag v => exact answersInv_guard h fun _ => answersInv_encField h _ _
  | encEnd => exact answersInv_execEncEnd h
  | encStatus => exact answers_next (h.setResult _)
  | decBegin ch => exact answersInv_execDecBegin h ch
  | decFixed w => exact answersInv_execDecFixed h w
  | decVarint => exact answersInv_execDecVarint h
  | decRemain => exact answersInv_guard h fun _ => answers_next (h.setResult _)
  | decStatus => exact answers_next (h.setResult _)
  | nop => exact answers_next h
  | ctrlRead => exact answers_next (h.setResult _)
  | ctrlWrite v => exact answers_next (h.ctrlWrite v)
  | faultRead => exact answers_next (h.setResult _)

theorem perform_answersInv (cmd : Half) (data : Word) (h : s.Inv) : AnswersInv (perform cmd data s) := by
  cases hdecode : decode cmd data with
  | ok i => rw [perform_ok hdecode]; exact exec_answersInv i h
  | error why => rw [perform_error hdecode]; exact answers_next (h.recordFault _ _ _)

/-! ### Reset -/

theorem inv_resetWith {cfg : Config} (hwf : cfg.wf = true) : (State.resetWith cfg).Inv where
  config := hwf
  channels := fun c => by
    have hcap := capacity_range (s := State.resetWith cfg) hwf c
    have hch : (State.resetWith cfg).chan c = Channel.reset := by cases c <;> rfl
    rw [hch]
    exact inv_channelReset (by omega)
  ctrlReserved := by simp [State.resetWith]
  faultReserved := by simp [State.resetWith]
  faultUnset := fun _ => rfl
  faultSet := fun h => absurd h (by simp [State.resetWith])
  rxWriting := by simp [State.resetWith, Channel.reset]
  rxCounter := rfl
  pdWriting := by simp [State.resetWith, Channel.reset]
  pdCounters := ⟨rfl, rfl, rfl, rfl⟩
  encWriting := fun h => absurd h (by simp [State.resetWith])
  encClosed := fun _ => rfl
  decSource := fun h => absurd h (by simp [State.resetWith])
  decRange := Nat.zero_le 255

end Sys2Proof.Machine

namespace Sys2Proof.Proofs

open Sys2Proof.Machine

/-- Settles O12: every clause of the invariant holds of the reset values, given a legal capacity. -/
theorem resetSatisfiesInvariant : Obligations.ResetSatisfiesInvariant :=
  ⟨fun _ hwf => inv_resetWith hwf, inv_resetWith (cfg := Config.default) (by decide)⟩

/-- Settles O13: a step takes a reset or performs a command word, and both answer a state with the invariant. -/
theorem stepKeepsInvariant : Obligations.StepKeepsInvariant := by
  intro s t h hstep
  cases hin : s.inputs with
  | nil => rw [step_nil h.config hin] at hstep; cases hstep
  | cons i rest =>
    cases i with
    | reset =>
      rw [step_reset h.config hin] at hstep
      cases hstep
      exact (inv_resetWith h.config).withPort rest s.position
    | command c =>
      rw [step_command h.config hin] at hstep
      exact (perform_answersInv c.cmd c.data (h.withPort rest (s.position + 1))).of_next hstep

end Sys2Proof.Proofs
end

section
/-! PROOFS. Noninterference of unstored bytes (10_state.md R39, R48; 93_implementation_defined.md U9, U10). The channel
primitives keep the stored bytes of two channels equal, since each stores the same byte at the same index; so does every
command, since it looks at fields that agree and at bytes of an open read chunk, which are stored. -/

namespace Sys2Proof.Machine

variable {s t : State} {n : Nat} {a b : Channel}

/-! ### Channels with the same stored bytes -/

namespace sameStored

theorem writing_eq (h : sameStored n a b) : b.writing = a.writing := by rw [← h.1]
theorem count_eq (h : sameStored n a b) : b.count = a.count := by rw [← h.1]
theorem wlost_eq (h : sameStored n a b) : b.wlost = a.wlost := by rw [← h.1]
theorem nchunks_eq (h : sameStored n a b) : b.nchunks = a.nchunks := by rw [← h.1]
theorem ropen_eq (h : sameStored n a b) : b.ropen = a.ropen := by rw [← h.1]
theorem rlen_eq (h : sameStored n a b) : b.rlen = a.rlen := by rw [← h.1]
theorem rpos_eq (h : sameStored n a b) : b.rpos = a.rpos := by rw [← h.1]

/-- The second channel is the first with another storage that agrees on the stored bytes. -/
theorem storage (h : sameStored n a b) :
    ∃ m, b = { a with buf := m } ∧ ∀ k, k < a.count → a.buf.read ((a.rd + k) % n) = m.read ((a.rd + k) % n) := by
  obtain ⟨hfields, hbytes⟩ := h
  refine ⟨b.buf, hfields.symm, fun k hk => ?_⟩
  have := hbytes k hk
  rwa [← hfields] at this

end sameStored

/-- Writing one byte at one index of two storages makes them agree there, and elsewhere where they did. -/
theorem read_write_congr {m m' : Memory} {i x : Nat} (v : Byte) (h : x ≠ i → m.read x = m'.read x) :
    (m.write i v).read x = (m'.write i v).read x := by
  rw [Memory.read_write, Memory.read_write]
  split
  · rfl
  · exact h ‹_›

/-- A byte stored at the write cursor joins the stored bytes. -/
theorem read_append_congr {m : Memory} {k : Nat} (v : Byte) (hplace : a.wr = (a.rd + a.count) % n)
    (hbytes : ∀ k, k < a.count → a.buf.read ((a.rd + k) % n) = m.read ((a.rd + k) % n)) (hk : k < a.count + 1) :
    (a.buf.write (a.wr % n) v).read ((a.rd + k) % n) = (m.write (a.wr % n) v).read ((a.rd + k) % n) := by
  refine read_write_congr v fun hne => hbytes k ?_
  have hlast : k ≠ a.count := by
    rintro rfl
    exact hne (by rw [hplace, Nat.mod_mod])
  omega

namespace sameStored

theorem chunkStart (h : sameStored n a b) (hplace : a.wr = (a.rd + a.count) % n) :
    sameStored n (chunkStart n a) (chunkStart n b) := by
  obtain ⟨m, rfl, hbytes⟩ := h.storage
  by_cases hc : a.count < n
  · rw [chunkStart_room n a hc, chunkStart_room n { a with buf := m } hc]
    exact ⟨rfl, fun k hk => read_append_congr 0x00 hplace hbytes hk⟩
  · rw [chunkStart_full n a hc, chunkStart_full n { a with buf := m } hc]
    exact ⟨rfl, hbytes⟩

theorem chunkPut (h : sameStored n a b) (v : Byte) (hplace : a.wr = (a.rd + a.count) % n) :
    sameStored n (chunkPut n v a) (chunkPut n v b) := by
  obtain ⟨m, rfl, hbytes⟩ := h.storage
  rcases chunkPut_cases n a v with ⟨hl, e⟩ | ⟨hl, hfull, e⟩ | ⟨hl, hw, hc, e⟩
  · rw [e, chunkPut_lost n { a with buf := m } v hl]
    exact ⟨rfl, hbytes⟩
  · rw [e, chunkPut_overflow n { a with buf := m } v hl hfull]
    exact ⟨rfl, hbytes⟩
  · rw [e, chunkPut_fits n { a with buf := m } v hl hw hc]
    exact ⟨rfl, fun k hk => read_append_congr v hplace hbytes hk⟩

theorem chunkAbort (h : sameStored n a b) : sameStored n (chunkAbort a) (chunkAbort b) := by
  obtain ⟨m, rfl, hbytes⟩ := h.storage
  exact ⟨rfl, fun k hk => hbytes k (Nat.lt_of_lt_of_le hk (Nat.sub_le _ _))⟩

theorem chunkEnd (h : sameStored n a b) : sameStored n (chunkEnd n a) (chunkEnd n b) := by
  cases hl : a.wlost with
  | true =>
    rw [chunkEnd_lost n a hl, chunkEnd_lost n b (h.wlost_eq.trans hl)]
    exact h.chunkAbort
  | false =>
    obtain ⟨m, rfl, hbytes⟩ := h.storage
    rw [chunkEnd_commits n a hl, chunkEnd_commits n { a with buf := m } hl]
    exact ⟨rfl, fun k hk => read_write_congr _ fun _ => hbytes k hk⟩

theorem chunkClose (h : sameStored n a b) (keep : Bool) : sameStored n (chunkClose keep n a) (chunkClose keep n b) := by
  cases keep
  · exact h.chunkAbort
  · exact h.chunkEnd

theorem chunkPutAll (h : sameStored n a b) (bs : List Byte) (hi : a.Inv n) (hw : a.writing = true) :
    sameStored n (chunkPutAll n bs a) (chunkPutAll n bs b) := by
  induction bs generalizing a b with
  | nil => exact h
  | cons v bs ih => exact ih (h.chunkPut v hi.wrPlace) (inv_chunkPut v hi hw) ((writing_chunkPut v).trans hw)

/-- The length byte of the oldest chunk is stored. -/
theorem readStart (h : sameStored n a b) (hstored : 0 < a.count) : sameStored n (readStart n a) (readStart n b) := by
  have hlen := h.2 0 hstored
  obtain ⟨m, rfl, hbytes⟩ := h.storage
  refine ⟨?_, hbytes⟩
  unfold Machine.readStart
  rw [hlen]

theorem rposSucc (h : sameStored n a b) : sameStored n { a with rpos := a.rpos + 1 } { b with rpos := b.rpos + 1 } := by
  obtain ⟨m, rfl, hbytes⟩ := h.storage
  exact ⟨rfl, hbytes⟩

theorem readEnd (h : sameStored n a b) : sameStored n (readEnd n a) (readEnd n b) := by
  have hrlen := h.rlen_eq
  have hbytes := h.2
  obtain ⟨m, rfl, -⟩ := h.storage
  refine ⟨rfl, fun k hk => ?_⟩
  have hk' : k < a.count - (a.rlen + 1) := hk
  rw [rbPeek_readEnd, rbPeek_readEnd]
  exact hbytes _ (by omega)

end sameStored

/-- The chunk open for reading is stored whole, length byte included (10_state.md R39). -/
theorem Channel.Inv.read_chunk_stored {ch : Channel} (h : ch.Inv n) (ho : ch.ropen = true) : ch.rlen + 1 ≤ ch.count := by
  obtain ⟨hfirst, hlen, -⟩ := h.readOpen ho
  calc
    ch.rlen + 1 = chunkOffset n ch 1 := by rw [chunkOffset_succ, chunkOffset_zero, hlen, Nat.zero_add]
    _ ≤ chunkOffset n ch ch.nchunks := chunkOffset_mono hfirst
    _ ≤ ch.count := h.committed_le

/-! ### States with the same stored bytes -/

/-- `s` with its three channels replaced. -/
def State.withChans (s : State) (c0 c1 c2 : Channel) : State := { s with ch0 := c0, ch1 := c1, ch2 := c2 }

theorem sameVisible_of (hfields : s.withChans t.ch0 t.ch1 t.ch2 = t) (h0 : sameStored s.cfg.n0 s.ch0 t.ch0)
    (h1 : sameStored s.cfg.n1 s.ch1 t.ch1) (h2 : sameStored s.cfg.n2 s.ch2 t.ch2) : sameVisible s t := by
  refine ⟨hfields, fun c => ?_⟩
  cases c
  · exact h0
  · exact h1
  · exact h2

namespace sameVisible

theorem channels (h : sameVisible s t) :
    ∃ c0 c1 c2, t = s.withChans c0 c1 c2 ∧ sameStored s.cfg.n0 s.ch0 c0 ∧ sameStored s.cfg.n1 s.ch1 c1
      ∧ sameStored s.cfg.n2 s.ch2 c2 :=
  ⟨t.ch0, t.ch1, t.ch2, h.1.symm, h.2 .ch0, h.2 .ch1, h.2 .ch2⟩

theorem result_eq (h : sameVisible s t) : t.result = s.result := by rw [← h.1]

theorem capacity_eq (h : sameVisible s t) (c : Chan) : t.capacity c = s.capacity c := by
  rw [← h.1]
  cases c <;> rfl

theorem owned_eq (h : sameVisible s t) (c : Chan) : owned t c = owned s c := by
  rw [← h.1]
  cases c <;> rfl

theorem onChan (h : sameVisible s t) {c : Chan} {f : Nat → Channel → Channel}
    (hc : sameStored (s.capacity c) (f (s.capacity c) (s.chan c)) (f (s.capacity c) (t.chan c))) :
    sameVisible (s.onChan c f) (t.onChan c f) := by
  obtain ⟨c0, c1, c2, rfl, h0, h1, h2⟩ := h.channels
  cases c
  · exact sameVisible_of rfl hc h1 h2
  · exact sameVisible_of rfl h0 hc h2
  · exact sameVisible_of rfl h0 h1 hc

theorem setResult (h : sameVisible s t) {v w : Word} (hv : w = v) : sameVisible (s.setResult v) (t.setResult w) := by
  subst hv
  obtain ⟨c0, c1, c2, rfl, h0, h1, h2⟩ := h.channels
  exact sameVisible_of rfl h0 h1 h2

theorem recordFault (h : sameVisible s t) (unit op : Nibble) (cause : FaultCause) :
    sameVisible (recordFault unit op cause s) (recordFault unit op cause t) := by
  obtain ⟨c0, c1, c2, rfl, h0, h1, h2⟩ := h.channels
  cases hv : s.fault.getLsbD 16 with
  | true => rwa [recordFault_sticky s _ _ _ hv, recordFault_sticky (s.withChans c0 c1 c2) _ _ _ hv]
  | false =>
    rw [recordFault_first s _ _ _ hv, recordFault_first (s.withChans c0 c1 c2) _ _ _ hv]
    exact sameVisible_of rfl h0 h1 h2

/-- A content byte of the chunk open for reading is the same in both. -/
theorem contentByte_eq (h : sameVisible s t) (hi : s.Inv) {c : Chan} {k : Nat} (ho : (s.chan c).ropen = true)
    (hk : k < (s.chan c).rlen) : t.contentByte c k = s.contentByte c k := by
  have hstored := (hi.channels c).read_chunk_stored ho
  unfold State.contentByte
  rw [h.capacity_eq]
  exact ((h.2 c).2 (1 + k) (by omega)).symm

theorem contentBytes_eq (h : sameVisible s t) (hi : s.Inv) {c : Chan} {p m : Nat} (ho : (s.chan c).ropen = true)
    (hle : p + m ≤ (s.chan c).rlen) : t.contentBytes c p m = s.contentBytes c p m := by
  refine List.map_congr_left fun i hmem => h.contentByte_eq hi ho ?_
  have := List.mem_range.1 hmem
  omega

theorem decLen_eq (h : sameVisible s t) : t.decLen = s.decLen := by
  have hch : t.decCh = s.decCh := by rw [← h.1]
  unfold State.decLen
  rw [hch, (h.2 _).rlen_eq]

end sameVisible

/-! ### Answers that differ at most in unstored bytes -/

/-- Both outcomes are next states, and these differ at most in unstored bytes. -/
def SameAnswer (o o' : Outcome) : Prop := ∃ t t', o = .next t ∧ o' = .next t' ∧ sameVisible t t'

theorem sameAnswer_next (h : sameVisible s t) : SameAnswer (.next s) (.next t) := ⟨s, t, rfl, rfl, h⟩

theorem sameAnswer_raiseFault (h : sameVisible s t) (i : Instr) (cause : FaultCause) :
    SameAnswer (raiseFault i cause s) (raiseFault i cause t) := sameAnswer_next (h.recordFault _ _ _)

theorem sameAnswer_ite {p p' : Prop} [Decidable p] [Decidable p'] {o₁ o₂ o₁' o₂' : Outcome} (hp : p' ↔ p)
    (h₁ : p → SameAnswer o₁ o₁') (h₂ : ¬p → SameAnswer o₂ o₂') :
    SameAnswer (if p then o₁ else o₂) (if p' then o₁' else o₂') := by
  by_cases h : p
  · rw [if_pos h, if_pos (hp.2 h)]; exact h₁ h
  · rw [if_neg h, if_neg (fun h' => h (hp.1 h'))]; exact h₂ h

/-- A check that reads the same in both states, in front of a meaning. -/
theorem sameAnswer_guard {p p' : Prop} [Decidable p] [Decidable p'] {i : Instr} {cause : FaultCause} {o o' : Outcome}
    (h : sameVisible s t) (hp : p' ↔ p) (ho : ¬p → SameAnswer o o') :
    SameAnswer (if p then raiseFault i cause s else o) (if p' then raiseFault i cause t else o') :=
  sameAnswer_ite hp (fun _ => sameAnswer_raiseFault h i cause) ho

theorem sameVisible_ite {p : Prop} [Decidable p] {s₁ s₂ t₁ t₂ : State} (h₁ : p → sameVisible s₁ t₁)
    (h₂ : ¬p → sameVisible s₂ t₂) : sameVisible (if p then s₁ else s₂) (if p then t₁ else t₂) := by
  split
  · exact h₁ ‹_›
  · exact h₂ ‹_›

theorem sameVisible.closeDecode (h : sameVisible s t) (c : Chan) :
    sameVisible (closeDecode c s) (closeDecode c t) := by
  obtain ⟨c0, c1, c2, rfl, h0, h1, h2⟩ := h.channels
  exact sameVisible_ite (fun _ => sameVisible_of rfl h0 h1 h2) (fun _ => h)

end Sys2Proof.Machine
end

section
/-! PROOFS. Every command answers two states that differ at most in unstored bytes with two such states, unit by unit. -/

namespace Sys2Proof.Machine

variable {s t : State}

/-! ### Channel commands -/

theorem sameAnswer_execChWriteStart (h : sameVisible s t) (hi : s.Inv) (c : Chan) :
    SameAnswer (execChWriteStart c s) (execChWriteStart c t) :=
  sameAnswer_guard h (by rw [h.owned_eq]) fun _ => sameAnswer_guard h (by rw [(h.2 c).writing_eq]) fun _ =>
    sameAnswer_next (h.onChan ((h.2 c).chunkStart (hi.channels c).wrPlace))

theorem sameAnswer_execChWrite (h : sameVisible s t) (hi : s.Inv) (c : Chan) (b : Byte) :
    SameAnswer (execChWrite c b s) (execChWrite c b t) :=
  sameAnswer_guard h (by rw [h.owned_eq]) fun _ => sameAnswer_guard h (by rw [(h.2 c).writing_eq]) fun _ =>
    sameAnswer_next (h.onChan ((h.2 c).chunkPut b (hi.channels c).wrPlace))

theorem sameAnswer_execChWriteEnd (h : sameVisible s t) (c : Chan) :
    SameAnswer (execChWriteEnd c s) (execChWriteEnd c t) :=
  sameAnswer_guard h (by rw [h.owned_eq]) fun _ => sameAnswer_guard h (by rw [(h.2 c).writing_eq]) fun _ =>
    sameAnswer_next ((h.onChan (h.2 c).chunkEnd).setResult
      (by rw [chunkEndCommits, chunkEndCommits, (h.2 c).wlost_eq]))

theorem sameAnswer_execChWriteAbort (h : sameVisible s t) (c : Chan) :
    SameAnswer (execChWriteAbort c s) (execChWriteAbort c t) :=
  sameAnswer_guard h (by rw [h.owned_eq]) fun _ => sameAnswer_guard h (by rw [(h.2 c).writing_eq]) fun _ =>
    sameAnswer_next (h.onChan (h.2 c).chunkAbort)

/-- The reply is the oldest chunk's length byte, which is stored. -/
theorem sameAnswer_execChReadStart (h : sameVisible s t) (hi : s.Inv) (c : Chan) :
    SameAnswer (execChReadStart c s) (execChReadStart c t) :=
  sameAnswer_guard h (by rw [(h.2 c).ropen_eq]) fun _ => sameAnswer_guard h (by rw [(h.2 c).nchunks_eq]) fun hn => by
    have hstored := (hi.channels c).first_stored (Nat.one_le_iff_ne_zero.2 hn)
    exact sameAnswer_next ((h.onChan ((h.2 c).readStart hstored)).setResult
      (by rw [h.capacity_eq, (h.2 c).2 0 hstored]))

theorem sameAnswer_execChRead (h : sameVisible s t) (hi : s.Inv) (c : Chan) :
    SameAnswer (execChRead c s) (execChRead c t) :=
  sameAnswer_guard h (by rw [(h.2 c).ropen_eq]) fun hopen =>
    sameAnswer_guard h (by rw [(h.2 c).rpos_eq, (h.2 c).rlen_eq]) fun hpos => by
      have ho : (s.chan c).ropen = true := by simpa using hopen
      obtain ⟨-, -, hle⟩ := (hi.channels c).readOpen ho
      exact sameAnswer_next ((h.onChan (h.2 c).rposSucc).setResult
        (by rw [(h.2 c).rpos_eq, h.contentByte_eq hi ho (by omega)]))

theorem sameAnswer_execChPeek (h : sameVisible s t) (hi : s.Inv) (c : Chan) (k : Byte) :
    SameAnswer (execChPeek c k s) (execChPeek c k t) :=
  sameAnswer_guard h (by rw [(h.2 c).ropen_eq]) fun hopen => sameAnswer_guard h (by rw [(h.2 c).rlen_eq]) fun hk =>
    sameAnswer_next (h.setResult (by rw [h.contentByte_eq hi (by simpa using hopen) (by omega)]))

theorem sameAnswer_execChReadEnd (h : sameVisible s t) (c : Chan) :
    SameAnswer (execChReadEnd c s) (execChReadEnd c t) :=
  sameAnswer_guard h (by rw [(h.2 c).ropen_eq]) fun _ =>
    sameAnswer_next ((h.onChan (h.2 c).readEnd).closeDecode c)

/-! ### The CRC receiver -/

theorem sameAnswer_execRxStart (h : sameVisible s t) (hi : s.Inv) (b : Byte) :
    SameAnswer (execRxStart b s) (execRxStart b t) := by
  have hch := hi.channels .ch0
  obtain ⟨c0, c1, c2, rfl, h0, h1, h2⟩ := h.channels
  unfold execRxStart
  by_cases hidle : s.rxState = .idle
  · have hclosed : s.ch0.writing = false := by simpa [hidle] using hi.rxWriting
    have hstart := inv_chunkStart hch hclosed
    rw [rxAbandon_idle hidle, rxAbandon_idle (s := s.withChans c0 c1 c2) hidle]
    exact sameAnswer_next (sameVisible_of rfl ((h0.chunkStart hch.wrPlace).chunkPut b hstart.wrPlace) h1 h2)
  · have habort := inv_chunkAbort hch (hi.rxWriting.2 hidle)
    have hstart := inv_chunkStart habort rfl
    rw [rxAbandon_busy hidle, rxAbandon_busy (s := s.withChans c0 c1 c2) hidle]
    exact sameAnswer_next
      (sameVisible_of rfl ((h0.chunkAbort.chunkStart habort.wrPlace).chunkPut b hstart.wrPlace) h1 h2)

theorem sameVisible.rxDataByte (h : sameVisible s t) (hi : s.Inv) (b : Byte) :
    sameVisible (rxDataByte b s) (rxDataByte b t) := by
  obtain ⟨c0, c1, c2, rfl, h0, h1, h2⟩ := h.channels
  by_cases hlast : s.rxRem = 1
  · rw [rxDataByte_last b hlast, rxDataByte_last (s := s.withChans c0 c1 c2) b hlast]
    exact sameVisible_of rfl (h0.chunkClose _) h1 h2
  · by_cases hpay : 2 < s.rxRem
    · rw [rxDataByte_payload b hpay, rxDataByte_payload (s := s.withChans c0 c1 c2) b hpay]
      exact sameVisible_of rfl (h0.chunkPut b (hi.channels .ch0).wrPlace) h1 h2
    · rw [rxDataByte_crc b hpay hlast, rxDataByte_crc (s := s.withChans c0 c1 c2) b hpay hlast]
      exact sameVisible_of rfl h0 h1 h2

theorem sameAnswer_execRxByte (h : sameVisible s t) (hi : s.Inv) (b : Byte) :
    SameAnswer (execRxByte b s) (execRxByte b t) := by
  have hst : t.rxState = s.rxState := by rw [← h.1]
  unfold execRxByte
  rw [hst]
  cases s.rxState with
  | idle => exact sameAnswer_next h
  | length =>
    obtain ⟨c0, c1, c2, rfl, h0, h1, h2⟩ := h.channels
    exact sameAnswer_next (sameVisible_of rfl h0 h1 h2)
  | data => exact sameAnswer_next (h.rxDataByte hi b)

/-! ### The pulse decoder -/

namespace sameVisible

theorem withPend (h : sameVisible s t) (p : Option PulseClass) :
    sameVisible { s with pdPend := p } { t with pdPend := p } := by
  obtain ⟨c0, c1, c2, rfl, h0, h1, h2⟩ := h.channels
  exact sameVisible_of rfl h0 h1 h2

theorem pdResync (h : sameVisible s t) : sameVisible (pdResync s) (pdResync t) := by
  obtain ⟨c0, c1, c2, rfl, h0, h1, h2⟩ := h.channels
  cases hphase : s.pdPhase with
  | hunt =>
    rw [pdResync_hunt s hphase, pdResync_hunt (s.withChans c0 c1 c2) hphase]
    exact sameVisible_of rfl h0 h1 h2
  | data =>
    rw [pdResync_data s hphase, pdResync_data (s.withChans c0 c1 c2) hphase]
    exact sameVisible_of rfl h0 h1.chunkAbort h2

theorem pdAccept (h : sameVisible s t) (hch : s.ch1.Inv s.cfg.n1) (v : Byte) :
    sameVisible (pdAccept v s) (pdAccept v t) := by
  obtain ⟨c0, c1, c2, rfl, h0, h1, h2⟩ := h.channels
  have hput := h1.chunkPut v hch.wrPlace
  by_cases hlast : s.pdCount + 1 = pdExpectAfter v s
  · rw [pdAccept_last v hlast, pdAccept_last (s := s.withChans c0 c1 c2) v hlast]
    exact sameVisible_of rfl h0 (hput.chunkClose _) h2
  · rw [pdAccept_more v hlast, pdAccept_more (s := s.withChans c0 c1 c2) v hlast]
    exact sameVisible_of rfl h0 hput h2

theorem pdByte (h : sameVisible s t) (hch : s.ch1.Inv s.cfg.n1) : sameVisible (pdByte s) (pdByte t) := by
  obtain ⟨c0, c1, c2, rfl, h0, h1, h2⟩ := h.channels
  have htaken : sameVisible (pdTaken s) (pdTaken (s.withChans c0 c1 c2)) := sameVisible_of rfl h0 h1 h2
  exact sameVisible_ite (fun _ => htaken.pdResync) (fun _ => htaken.pdAccept hch _)

theorem pdBitHunt (h : sameVisible s t) (hch : s.ch1.Inv s.cfg.n1) (b : Bool) :
    sameVisible (pdBitHunt b s) (pdBitHunt b t) := by
  obtain ⟨c0, c1, c2, rfl, h0, h1, h2⟩ := h.channels
  refine sameVisible_ite (fun _ => sameVisible_of rfl h0 h1 h2) (fun _ => ?_)
  exact sameVisible_ite (fun _ => sameVisible_of rfl h0 (h1.chunkStart hch.wrPlace) h2)
    (fun _ => sameVisible_of rfl h0 h1 h2)

theorem pdBitData (h : sameVisible s t) (hch : s.ch1.Inv s.cfg.n1) (b : Bool) :
    sameVisible (pdBitData b s) (pdBitData b t) := by
  obtain ⟨c0, c1, c2, rfl, h0, h1, h2⟩ := h.channels
  have hshifted : sameVisible (pdShifted b s) (pdShifted b (s.withChans c0 c1 c2)) := sameVisible_of rfl h0 h1 h2
  exact sameVisible_ite (fun _ => hshifted.pdByte hch) (fun _ => hshifted)

theorem pdBit (h : sameVisible s t) (hch : s.ch1.Inv s.cfg.n1) (b : Bool) : sameVisible (pdBit b s) (pdBit b t) := by
  have hphase : t.pdPhase = s.pdPhase := by rw [← h.1]
  unfold Machine.pdBit
  rw [hphase]
  cases s.pdPhase with
  | hunt => exact h.pdBitHunt hch b
  | data => exact h.pdBitData hch b

theorem pdHigh (h : sameVisible s t) (k : PulseClass) : sameVisible (pdHigh k s) (pdHigh k t) := by
  have hpend : t.pdPend = s.pdPend := by rw [← h.1]
  unfold Machine.pdHigh
  rw [hpend]
  exact (sameVisible_ite (fun _ => h.pdResync) (fun _ => h)).withPend (some k)

theorem pdLow (h : sameVisible s t) (hch : s.ch1.Inv s.cfg.n1) (k : PulseClass) :
    sameVisible (pdLow k s) (pdLow k t) := by
  have hpend : t.pdPend = s.pdPend := by rw [← h.1]
  have hphase : t.pdPhase = s.pdPhase := by rw [← h.1]
  unfold Machine.pdLow
  rw [hpend]
  cases s.pdPend with
  | none => rw [hphase]; exact sameVisible_ite (fun _ => h.pdResync) (fun _ => h)
  | some held => exact sameVisible_ite (fun _ => h.pdResync) (fun _ => (h.withPend none).pdBit hch _)

theorem pdEvent (h : sameVisible s t) (hch : s.ch1.Inv s.cfg.n1) (isHigh : Bool) (d : Half) :
    sameVisible (pdEvent isHigh d s) (pdEvent isHigh d t) := by
  have hcfg : t.cfg = s.cfg := by rw [← h.1]
  unfold Machine.pdEvent
  rw [hcfg]
  refine sameVisible_ite (fun _ => h.pdResync) (fun _ => ?_)
  cases classify s.cfg d with
  | none => exact h.pdResync
  | some k => exact sameVisible_ite (fun _ => h.pdHigh k) (fun _ => h.pdLow hch k)

end sameVisible

/-! ### The wire encoder -/

namespace sameVisible

theorem withEncOpen (h : sameVisible s t) (e : Bool) :
    sameVisible { s with encOpen := e } { t with encOpen := e } := by
  obtain ⟨c0, c1, c2, rfl, h0, h1, h2⟩ := h.channels
  exact sameVisible_of rfl h0 h1 h2

/-- `encValid` is taken from a field of CH2 that agrees (43_wire_encoder.md R281). -/
theorem latchValid (h : sameVisible s t) :
    sameVisible { s with encValid := !s.ch2.wlost } { t with encValid := !t.ch2.wlost } := by
  have hlost : t.ch2.wlost = s.ch2.wlost := (h.2 .ch2).wlost_eq
  rw [hlost]
  obtain ⟨c0, c1, c2, rfl, h0, h1, h2⟩ := h.channels
  exact sameVisible_of rfl h0 h1 h2

theorem encPut (h : sameVisible s t) (hi : s.Inv) (hopen : s.encOpen = true) (bs : List Byte) :
    sameVisible (encPut bs s) (encPut bs t) := by
  obtain ⟨hw, -⟩ := hi.encWriting hopen
  have hput := h.onChan (c := .ch2) (f := fun n => chunkPutAll n bs) ((h.2 .ch2).chunkPutAll bs (hi.channels .ch2) hw)
  exact hput.latchValid

end sameVisible

theorem sameAnswer_execEncBegin (h : sameVisible s t) (hi : s.Inv) : SameAnswer (execEncBegin s) (execEncBegin t) := by
  have hwriting : t.ch2.writing = s.ch2.writing := (h.2 .ch2).writing_eq
  exact sameAnswer_guard h (by rw [← h.1]) fun _ => sameAnswer_guard h (by rw [hwriting]) fun _ => by
    have hopened := h.onChan (c := .ch2) (f := chunkStart) ((h.2 .ch2).chunkStart (hi.channels .ch2).wrPlace)
    exact sameAnswer_next (hopened.withEncOpen true).latchValid

/-- A field command past its operand check. -/
theorem sameAnswer_encField (h : sameVisible s t) (hi : s.Inv) (i : Instr) (bs : List Byte) :
    SameAnswer (if !s.encOpen then raiseFault i .encNotOpen s else .next (encPut bs s))
      (if !t.encOpen then raiseFault i .encNotOpen t else .next (encPut bs t)) :=
  sameAnswer_guard h (by rw [← h.1]) fun hopen => sameAnswer_next (h.encPut hi (by simpa using hopen) bs)

theorem sameAnswer_execEncFixed (h : sameVisible s t) (hi : s.Inv) (w : Byte) (v : Word) :
    SameAnswer (execEncFixed w v s) (execEncFixed w v t) := by
  unfold execEncFixed
  cases widthOperand w with
  | none => exact sameAnswer_raiseFault h _ _
  | some n => exact sameAnswer_encField h hi _ _

theorem sameAnswer_execEncEnd (h : sameVisible s t) : SameAnswer (execEncEnd s) (execEncEnd t) := by
  obtain ⟨c0, c1, c2, rfl, h0, h1, h2⟩ := h.channels
  refine sameAnswer_guard h Iff.rfl fun _ => ?_
  rw [onChan_chunkClose, onChan_chunkClose]
  exact sameAnswer_next (sameVisible_of rfl h0 h1 (h2.chunkClose _))

/-! ### The wire decoder -/

namespace sameVisible

theorem decFail (h : sameVisible s t) : sameVisible (decFail s) (decFail t) := by
  obtain ⟨c0, c1, c2, rfl, h0, h1, h2⟩ := h.channels
  exact sameVisible_of rfl h0 h1 h2

theorem decAdvance (h : sameVisible s t) (n : Nat) (v : Word) :
    sameVisible (decAdvance n v s) (decAdvance n v t) := by
  obtain ⟨c0, c1, c2, rfl, h0, h1, h2⟩ := h.channels
  exact sameVisible_of rfl h0 h1 h2

theorem decOpen_eq (h : sameVisible s t) : t.decOpen = s.decOpen := by rw [← h.1]
theorem decCh_eq (h : sameVisible s t) : t.decCh = s.decCh := by rw [← h.1]
theorem decPos_eq (h : sameVisible s t) : t.decPos = s.decPos := by rw [← h.1]
theorem decOk_eq (h : sameVisible s t) : t.decOk = s.decOk := by rw [← h.1]

end sameVisible

theorem sameAnswer_execDecBegin (h : sameVisible s t) (ch : BitVec 2) :
    SameAnswer (execDecBegin ch s) (execDecBegin ch t) := by
  unfold execDecBegin
  cases channelOperand ch with
  | none => exact sameAnswer_raiseFault h _ _
  | some c =>
    refine sameAnswer_guard h (by rw [(h.2 c).ropen_eq]) fun _ => ?_
    obtain ⟨c0, c1, c2, rfl, h0, h1, h2⟩ := h.channels
    exact sameAnswer_next (sameVisible_of rfl h0 h1 h2)

/-- The bytes of a field that fits lie in the chunk open for reading. -/
theorem sameAnswer_execDecFixed (h : sameVisible s t) (hi : s.Inv) (w : Byte) :
    SameAnswer (execDecFixed w s) (execDecFixed w t) := by
  unfold execDecFixed
  cases widthOperand w with
  | none => exact sameAnswer_raiseFault h _ _
  | some n =>
    refine sameAnswer_guard h (by rw [h.decOpen_eq]) fun hopen => ?_
    obtain ⟨ho, -⟩ := hi.decSource (by simpa using hopen)
    refine sameAnswer_ite (by rw [h.decOk_eq, h.decPos_eq, h.decLen_eq]) (fun _ => sameAnswer_next h.decFail)
      (fun hfits => ?_)
    rw [h.decCh_eq, h.decPos_eq, h.contentBytes_eq hi ho (fits_of_not_fails hfits)]
    exact sameAnswer_next (h.decAdvance n _)

/-- A varint is looked for among the bytes that remain of the chunk open for reading. -/
theorem sameAnswer_execDecVarint (h : sameVisible s t) (hi : s.Inv) :
    SameAnswer (execDecVarint s) (execDecVarint t) := by
  refine sameAnswer_guard h (by rw [h.decOpen_eq]) fun hopen => ?_
  obtain ⟨ho, hpos⟩ := hi.decSource (by simpa using hopen)
  refine sameAnswer_ite (by rw [h.decOk_eq]) (fun _ => sameAnswer_next (h.setResult rfl)) (fun _ => ?_)
  have hle : s.decPos + (s.decLen - s.decPos) ≤ s.decLen := by
    have hpos' : s.decPos ≤ s.decLen := hpos
    omega
  rw [h.decCh_eq, h.decPos_eq, h.decLen_eq, h.contentBytes_eq hi ho hle]
  cases unvarint (s.contentBytes s.decCh s.decPos (s.decLen - s.decPos)) with
  | none => exact sameAnswer_next h.decFail
  | some taken => exact sameAnswer_next (h.decAdvance _ _)

/-! ### Every command -/

/-- Every command looks at fields that agree and at stored bytes only. -/
theorem exec_sameAnswer (i : Instr) (h : sameVisible s t) (hi : s.Inv) : SameAnswer (exec i s) (exec i t) := by
  cases i with
  | chWriteStart c => exact sameAnswer_execChWriteStart h hi c
  | chWrite c b => exact sameAnswer_execChWrite h hi c b
  | chWriteEnd c => exact sameAnswer_execChWriteEnd h c
  | chWriteAbort c => exact sameAnswer_execChWriteAbort h c
  | chHasContent c => exact sameAnswer_next (h.setResult (by rw [(h.2 c).nchunks_eq]))
  | chReadStart c => exact sameAnswer_execChReadStart h hi c
  | chRead c => exact sameAnswer_execChRead h hi c
  | chPeek c k => exact sameAnswer_execChPeek h hi c k
  | chReadEnd c => exact sameAnswer_execChReadEnd h c
  | chAvail c => exact sameAnswer_next (h.setResult (by rw [h.capacity_eq, (h.2 c).count_eq]))
  | chIsWriting c => exact sameAnswer_next (h.setResult (by rw [(h.2 c).writing_eq]))
  | rxStart b => exact sameAnswer_execRxStart h hi b
  | rxByte b => exact sameAnswer_execRxByte h hi b
  | rxIsWriting => exact sameAnswer_next (h.setResult (by rw [← h.1]))
  | pulse isHigh d => exact sameAnswer_next (h.pdEvent (hi.channels .ch1) isHigh d)
  | pdStatus => exact sameAnswer_next (h.setResult (by rw [← h.1]; rfl))
  | encBegin => exact sameAnswer_execEncBegin h hi
  | encFixed w v => exact sameAnswer_execEncFixed h hi w v
  | encVarint v => exact sameAnswer_encField h hi _ _
  | encTvarint tag v =>
    exact sameAnswer_ite Iff.rfl (fun _ => sameAnswer_raiseFault h _ _) (fun _ => sameAnswer_encField h hi _ _)
  | encTfixed32 tag v =>
    exact sameAnswer_ite Iff.rfl (fun _ => sameAnswer_raiseFault h _ _) (fun _ => sameAnswer_encField h hi _ _)
  | encEnd => exact sameAnswer_execEncEnd h
  | encStatus => exact sameAnswer_next (h.setResult (by rw [← h.1]))
  | decBegin ch => exact sameAnswer_execDecBegin h ch
  | decFixed w => exact sameAnswer_execDecFixed h hi w
  | decVarint => exact sameAnswer_execDecVarint h hi
  | decRemain =>
    exact sameAnswer_guard h (by rw [h.decOpen_eq]) fun _ =>
      sameAnswer_next (h.setResult (by rw [h.decLen_eq, h.decPos_eq]))
  | decStatus => exact sameAnswer_next (h.setResult (by rw [h.decOpen_eq, h.decOk_eq]))
  | nop => exact sameAnswer_next h
  | ctrlRead => exact sameAnswer_next (h.setResult (by rw [← h.1]))
  | ctrlWrite v =>
    obtain ⟨c0, c1, c2, rfl, h0, h1, h2⟩ := h.channels
    exact sameAnswer_next (sameVisible_of rfl h0 h1 h2)
  | faultRead => exact sameAnswer_next (h.setResult (by rw [← h.1]))

end Sys2Proof.Machine

namespace Sys2Proof.Proofs

open Sys2Proof.Machine

/-- Settles O34: the two answers agree on every field but storage, `RESULT` among them, and on every stored byte. -/
theorem unstoredBytesAreNeverObserved : Obligations.UnstoredBytesAreNeverObserved := by
  intro i s s' hi _ hv
  obtain ⟨t, t', ht, ht', hsame⟩ := exec_sameAnswer i hv hi
  exact ⟨t, t', ht, ht', hsame.result_eq.symm, hsame⟩

end Sys2Proof.Proofs
end

section
/-! PROOFS. Reading. A query replies and moves nothing, or records a fault (20_memory.md R84, 60_exceptions.md R403); a
reader gets the oldest committed chunk, its bytes in the order written (20_memory.md R80, R89). -/

namespace Sys2Proof.Machine

variable {s : State} {c : Chan} {k : Byte}

/-! ### The reading commands, case by case -/

/-- `CH_READ_START` of a committed chunk replies its length byte (40_channel.md R163). -/
theorem exec_chReadStart_opens (hclosed : (s.chan c).ropen = false) (hn : (s.chan c).nchunks ≠ 0) :
    exec (.chReadStart c) s
      = .next ((s.onChan c readStart).setResult ((rbPeek (s.capacity c) 0 (s.chan c)).setWidth 32)) := by
  simp only [exec, execChReadStart, hclosed, if_neg hn, Bool.false_eq_true, if_false]

/-- `CH_READ` before the end replies the byte at the read position and advances it (40_channel.md R164). -/
theorem exec_chRead_byte (hopen : (s.chan c).ropen = true) (hpos : (s.chan c).rpos ≠ (s.chan c).rlen) :
    exec (.chRead c) s
      = .next ((s.onChan c (fun _ ch => { ch with rpos := ch.rpos + 1 })).setResult
          ((s.contentByte c (s.chan c).rpos).setWidth 32)) := by
  simp only [exec, execChRead, hopen, if_neg hpos, Bool.not_true, Bool.false_eq_true, if_false]

/-- `CH_PEEK` with no chunk open for reading (40_channel.md R165). -/
theorem exec_chPeek_closed (hclosed : (s.chan c).ropen = false) :
    exec (.chPeek c k) s = raiseFault (.chPeek c k) .readNotOpen s := by
  simp only [exec, execChPeek, hclosed, Bool.not_false, if_true]

/-- `CH_PEEK` past the chunk's end (40_channel.md R165). -/
theorem exec_chPeek_past (hopen : (s.chan c).ropen = true) (hk : k.toNat ≥ (s.chan c).rlen) :
    exec (.chPeek c k) s = raiseFault (.chPeek c k) .readPastEnd s := by
  simp only [exec, execChPeek, hopen, if_pos hk, Bool.not_true, Bool.false_eq_true, if_false]

/-- `CH_PEEK` within the chunk replies its byte `k` (40_channel.md R165). -/
theorem exec_chPeek_byte (hopen : (s.chan c).ropen = true) (hk : k.toNat < (s.chan c).rlen) :
    exec (.chPeek c k) s = .next (s.setResult ((s.contentByte c k.toNat).setWidth 32)) := by
  simp only [exec, execChPeek, hopen, if_neg (Nat.not_le_of_lt hk), Bool.not_true, Bool.false_eq_true, if_false]

/-- `DEC_REMAIN` with no decode open (44_wire_decoder.md R315). -/
theorem exec_decRemain_closed (hclosed : s.decOpen = false) :
    exec .decRemain s = raiseFault .decRemain .decNotOpen s := by
  simp only [exec, execDecRemain, hclosed, Bool.not_false, if_true]

/-- `DEC_REMAIN` of an open decode (44_wire_decoder.md R315). -/
theorem exec_decRemain_open (hopen : s.decOpen = true) :
    exec .decRemain s = .next (s.setResult (BitVec.ofNat 32 (s.decLen - s.decPos))) := by
  simp only [exec, execDecRemain, hopen, Bool.not_true, Bool.false_eq_true, if_false]

/-! ### What a reply or a fault leaves unchanged -/

@[simp] theorem State.setResult_setResult (v w : Word) : (s.setResult v).setResult w = s.setResult w := rfl

@[simp] theorem State.setResult_contentByte (v : Word) (j : Nat) :
    (s.setResult v).contentByte c j = s.contentByte c j := by
  simp only [State.contentByte, State.setResult_capacity, State.setResult_chan]

@[simp] theorem State.setResult_decLen (v : Word) : (s.setResult v).decLen = s.decLen := by
  simp only [State.decLen, State.setResult_decCh, State.setResult_chan]

/-- Recording a fault changes no field but `FAULT` (60_exceptions.md R403). -/
theorem recordFault_eq_with_fault (unit op : Nibble) (cause : FaultCause) :
    recordFault unit op cause s = { s with fault := (recordFault unit op cause s).fault } := by
  cases hv : s.fault.getLsbD 16 with
  | true => rw [recordFault_sticky s _ _ _ hv]
  | false => rw [recordFault_first s _ _ _ hv]

theorem recordFault_valid (unit op : Nibble) (cause : FaultCause) :
    (recordFault unit op cause s).fault.getLsbD 16 = true := by
  cases hv : s.fault.getLsbD 16 with
  | true => rwa [recordFault_sticky s _ _ _ hv]
  | false => rw [recordFault_first s _ _ _ hv]; exact faultWord_valid unit op cause

/-- A command that raises its fault again changes nothing more: `FAULT` is VALID already (60_exceptions.md R401). -/
theorem raiseFault_recordFault (i : Instr) (cause cause' : FaultCause) (unit op : Nibble) :
    raiseFault i cause (recordFault unit op cause' s) = .next (recordFault unit op cause' s) :=
  congrArg Host.Outcome.next (recordFault_sticky _ _ _ _ (recordFault_valid unit op cause'))

/-! ### Queries -/

/-- `t` answers the query `q` issued in `s`: `q` changes nothing more when it is issued again, and `t` differs from `s`
only in `RESULT`, or only in `FAULT` where `mayFault` holds (20_memory.md R84, 60_exceptions.md R403). -/
def QueryAnswer (mayFault : Prop) (q : Instr) (s t : State) : Prop :=
  exec q t = .next t ∧ (t = { s with result := t.result } ∨ (t = { s with fault := t.fault } ∧ mayFault))

variable {p : Prop} {q : Instr}

theorem answers_reply {v : Word} (hagain : exec q (s.setResult v) = .next (s.setResult v)) :
    Answers (QueryAnswer p q s) (.next (s.setResult v)) :=
  answers_next ⟨hagain, .inl rfl⟩

theorem answers_queryFault {cause : FaultCause} (hp : p)
    (hagain : ∀ unit op, exec q (recordFault unit op cause s) = raiseFault q cause (recordFault unit op cause s)) :
    Answers (QueryAnswer p q s) (raiseFault q cause s) :=
  answers_next ⟨(hagain _ _).trans (raiseFault_recordFault _ _ _ _ _), .inr ⟨recordFault_eq_with_fault _ _ _, hp⟩⟩

theorem queryAnswer_chPeek (hp : p) : Answers (QueryAnswer p (.chPeek c k) s) (exec (.chPeek c k) s) := by
  cases hopen : (s.chan c).ropen with
  | false =>
    rw [exec_chPeek_closed hopen]
    exact answers_queryFault hp fun _ _ => exec_chPeek_closed (by rwa [recordFault_chan])
  | true =>
    rcases Nat.lt_or_ge k.toNat (s.chan c).rlen with hk | hk
    · rw [exec_chPeek_byte hopen hk]
      refine answers_reply ((exec_chPeek_byte ?_ ?_).trans ?_)
      · rwa [State.setResult_chan]
      · rwa [State.setResult_chan]
      · rw [State.setResult_setResult, State.setResult_contentByte]
    · rw [exec_chPeek_past hopen hk]
      refine answers_queryFault hp fun _ _ => exec_chPeek_past ?_ ?_
      · rwa [recordFault_chan]
      · rwa [recordFault_chan]

theorem queryAnswer_decRemain (hp : p) : Answers (QueryAnswer p .decRemain s) (exec .decRemain s) := by
  cases hopen : s.decOpen with
  | false =>
    rw [exec_decRemain_closed hopen]
    exact answers_queryFault hp fun _ _ => exec_decRemain_closed (by rwa [recordFault_decOpen])
  | true =>
    rw [exec_decRemain_open hopen]
    refine answers_reply ((exec_decRemain_open ?_).trans ?_)
    · rwa [State.setResult_decOpen]
    · rw [State.setResult_setResult, State.setResult_decLen, State.setResult_decPos]

/-- The queries of 20_memory.md R84. All but two reply, in every state, a word computed from fields other than `RESULT`;
only `CH_PEEK` and `DEC_REMAIN` can fault. -/
theorem queryAnswer_of_mem (hq : q ∈ [.chHasContent c, .chPeek c k, .chAvail c, .chIsWriting c, .rxIsWriting, .pdStatus,
      .encStatus, .decRemain, .decStatus, .ctrlRead, .faultRead]) :
    Answers (QueryAnswer (q = .chPeek c k ∨ q = .decRemain) q s) (exec q s) := by
  simp only [List.mem_cons, List.not_mem_nil, or_false] at hq
  obtain rfl | rfl | rfl | rfl | rfl | rfl | rfl | rfl | rfl | rfl | rfl := hq
  · exact answers_reply (by simp only [exec, execChHasContent, State.setResult_chan, State.setResult_setResult])
  · exact queryAnswer_chPeek (.inl rfl)
  · exact answers_reply (by
      simp only [exec, execChAvail, State.setResult_capacity, State.setResult_chan, State.setResult_setResult])
  · exact answers_reply (by simp only [exec, execChIsWriting, State.setResult_chan, State.setResult_setResult])
  · exact answers_reply (q := .rxIsWriting) rfl
  · exact answers_reply (q := .pdStatus) rfl
  · exact answers_reply (q := .encStatus) rfl
  · exact queryAnswer_decRemain (.inr rfl)
  · exact answers_reply (q := .decStatus) rfl
  · exact answers_reply (q := .ctrlRead) rfl
  · exact answers_reply (q := .faultRead) rfl

/-! ### The oldest committed chunk -/

variable {n : Nat} {ch : Channel} {chunk : List Byte} {rest : List (List Byte)}

/-- The oldest chunk starts at the read cursor: its length byte, then its content (40_channel.md R152). -/
theorem oldest_chunk_stored (h : committed n ch = chunk :: rest) :
    ch.nchunks ≠ 0 ∧ chunk = storedBytes n ch 1 (rbPeek n 0 ch).toNat := by
  unfold committed at h
  cases hn : ch.nchunks with
  | zero => rw [hn] at h; cases h
  | succ m =>
    rw [hn, List.range_succ_eq_map, List.map_cons] at h
    obtain ⟨hfirst, -⟩ := List.cons.inj h
    exact ⟨m.succ_ne_zero, hfirst.symm⟩

theorem length_storedBytes (p len : Nat) : (storedBytes n ch p len).length = len :=
  (List.length_map _).trans List.length_range

theorem getElem?_storedBytes_eq_some {p len j : Nat} {b : Byte} :
    (storedBytes n ch p len)[j]? = some b ↔ j < len ∧ rbPeek n (p + j) ch = b := by
  by_cases hj : j < len
  · simp only [storedBytes, List.getElem?_map, List.getElem?_range hj, Option.map_some, Option.some.injEq, hj,
      true_and]
  · have hnone : (storedBytes n ch p len)[j]? = none :=
      List.getElem?_eq_none (by rw [length_storedBytes]; exact Nat.le_of_not_lt hj)
    simp only [hnone, reduceCtorEq, hj, false_and]

/-- Byte `j` of the oldest chunk is content byte `j` of the chunk open for reading, and lies before its end. -/
theorem oldest_chunk_byte (hi : s.Inv) (h : s.committed c = chunk :: rest) (hopen : (s.chan c).ropen = true) {j : Nat}
    {b : Byte} (hj : chunk[j]? = some b) : j < (s.chan c).rlen ∧ s.contentByte c j = b := by
  obtain ⟨-, hlen, -⟩ := (hi.channels c).readOpen hopen
  obtain ⟨-, hchunk⟩ := oldest_chunk_stored h
  rw [hchunk, ← hlen] at hj
  exact getElem?_storedBytes_eq_some.1 hj

end Sys2Proof.Machine

namespace Sys2Proof.Proofs

open Sys2Proof.Machine

/-- Settles O18: each query replies from fields that its reply leaves alone, or records a fault that is sticky. -/
theorem queriesChangeOnlyResult : Obligations.QueriesChangeOnlyResult := by
  intro s t c k q hq hexec
  exact (queryAnswer_of_mem hq).of_next hexec

/-- Settles O33: the oldest chunk lies at the read cursor, so the length byte and the content bytes that the reader's
commands reply are its own. -/
theorem readerGetsOldestChunkInOrder : Obligations.ReaderGetsOldestChunkInOrder := by
  intro s c chunk rest hi hcommitted
  refine ⟨fun hclosed => ?_, fun hopen => ⟨fun b hb => ?_, fun k b hb => ?_⟩⟩
  · obtain ⟨hn, hchunk⟩ := oldest_chunk_stored hcommitted
    refine ⟨_, exec_chReadStart_opens hclosed hn, ?_, by rw [State.setResult_chan, State.onChan_self]; rfl⟩
    rw [State.setResult_result, hchunk, length_storedBytes, BitVec.ofNat_toNat]
  · obtain ⟨hpos, hbyte⟩ := oldest_chunk_byte hi hcommitted hopen hb
    exact ⟨_, exec_chRead_byte hopen (Nat.ne_of_lt hpos), by rw [State.setResult_result, hbyte],
      by rw [State.setResult_chan, State.onChan_self]⟩
  · obtain ⟨hk, hbyte⟩ := oldest_chunk_byte hi hcommitted hopen hb
    exact ⟨_, exec_chPeek_byte hopen hk, by rw [State.setResult_result, hbyte]⟩

end Sys2Proof.Proofs
end

section
/-! PROOFS. Commands as words (30_encoding.md R102, R107, R108, R110, R111). `UNIT` and `OP` choose a row of the
operation map, and `Instr.withOperands` is the row's command with the operands a word holds: a word decodes to a command
exactly when it names the command's row and holds the command's operands in the used bits. -/

namespace Sys2Proof

variable {cmd : Half} {data : Word} {imm8 : Byte} {unit op : Nibble} {i : Instr}

/-! ### A row of the operation map, with the operands of a word -/

/-- The command of the same row, with its operands taken from `IMM8` and `DATA` (30_encoding.md R108). -/
def Instr.withOperands (i : Instr) (imm8 : Byte) (data : Word) : Instr :=
  match i with
  | .chWrite c _ => .chWrite c imm8
  | .chPeek c _ => .chPeek c imm8
  | .rxStart _ => .rxStart imm8
  | .rxByte _ => .rxByte imm8
  | .pulse _ _ => .pulse (imm8.getLsbD 0) (data.extractLsb' 0 16)
  | .encFixed _ _ => .encFixed imm8 data
  | .encVarint _ => .encVarint data
  | .encTvarint _ _ => .encTvarint imm8 data
  | .encTfixed32 _ _ => .encTfixed32 imm8 data
  | .decBegin _ => .decBegin (imm8.extractLsb' 0 2)
  | .decFixed _ => .decFixed imm8
  | .ctrlWrite _ => .ctrlWrite imm8
  | i => i

/-- A word of a command's `UNIT` and `OP` decodes to its row, with the word's operands (30_encoding.md R107). -/
theorem decode_row (i : Instr) (imm8 : Byte) (data : Word) :
    decode (unitOf i ++ opOf i ++ imm8) data = .ok (i.withOperands imm8 data) := by
  rw [decode_append]
  cases i with
  | chWriteStart c | chWrite c _ | chWriteEnd c | chWriteAbort c | chHasContent c | chReadStart c | chRead c
  | chPeek c _ | chReadEnd c | chAvail c | chIsWriting c => cases c <;> rfl
  | _ => rfl

/-! ### The used bits of the operand fields -/

theorem extractLsb'_zero_setWidth {w k : Nat} (hk : k ≤ w) (y : BitVec k) : (y.setWidth w).extractLsb' 0 k = y :=
  (BitVec.extractLsb'_setWidth_of_le (by omega)).trans BitVec.extractLsb'_eq_self

/-- The low `k` bits hold `y` exactly when clearing the others gives `y`. -/
theorem extractLsb'_zero_eq_iff {w k : Nat} (hk : k ≤ w) (x : BitVec w) (y : BitVec k) :
    x.extractLsb' 0 k = y ↔ x &&& (BitVec.allOnes k).setWidth w = y.setWidth w := by
  have hmask : x &&& (BitVec.allOnes k).setWidth w = (x.extractLsb' 0 k).setWidth w := by
    ext j hj
    simp [BitVec.getLsbD_eq_getElem hj, Bool.and_comm]
  rw [hmask]
  refine ⟨congrArg _, fun h => ?_⟩
  have := congrArg (·.extractLsb' 0 k) h
  rwa [extractLsb'_zero_setWidth hk, extractLsb'_zero_setWidth hk] at this

/-- `PULSE`'s polarity (30_encoding.md R108). -/
theorem polarity_eq_iff (imm8 : Byte) (isHigh : Bool) :
    imm8.getLsbD 0 = isHigh ↔ imm8 &&& 1 = if isHigh then 1 else 0 := by
  rw [show imm8 &&& 1 = (BitVec.ofBool (imm8.getLsbD 0)).setWidth 8 from
    BitVec.and_one_eq_setWidth_ofBool_getLsbD]
  cases imm8.getLsbD 0 <;> cases isHigh <;> decide

/-- The operands of a word are a command's own exactly when the used bits are those of its encoding. -/
theorem withOperands_eq_self_iff :
    i.withOperands imm8 data = i ↔ imm8 &&& usedImm8 i = imm8Of i ∧ data &&& usedData i = dataOf i := by
  have hbyte (x : Byte) : x &&& 0xFF#8 = x := BitVec.and_allOnes
  have hword (x : Word) : x &&& 0xFFFFFFFF#32 = x := BitVec.and_allOnes
  cases i with
  | pulse isHigh d =>
    have hd := extractLsb'_zero_eq_iff (by decide : 16 ≤ 32) data d
    simp only [Instr.withOperands, Instr.pulse.injEq, polarity_eq_iff, hd]
    rfl
  | decBegin ch =>
    have hch := extractLsb'_zero_eq_iff (by decide : 2 ≤ 8) imm8 ch
    simp only [Instr.withOperands, Instr.decBegin.injEq, hch]
    simp [usedImm8, imm8Of, usedData, dataOf]
  | _ => simp [Instr.withOperands, usedImm8, imm8Of, usedData, dataOf, hbyte, hword]

/-- A command's row with the operands of its own encoding is the command. -/
theorem withOperands_encoded (i : Instr) : i.withOperands (imm8Of i) (dataOf i) = i := by
  cases i with
  | pulse isHigh d =>
    have hd : (d.setWidth 32).extractLsb' 0 16 = d := extractLsb'_zero_setWidth (by decide) d
    have hhigh : (imm8Of (.pulse isHigh d)).getLsbD 0 = isHigh := by cases isHigh <;> simp [imm8Of]
    exact congr (congrArg Instr.pulse hhigh) hd
  | decBegin ch => exact congrArg Instr.decBegin (extractLsb'_zero_setWidth (by decide) ch)
  | _ => rfl

/-! ### The rows of each unit -/

/-- What a unit's decoder does with an `OP`: below the bound, a command of that `UNIT` and `OP`; from the bound on, a
rejection (30_encoding.md R107, R110). -/
def RowsBelow (bound : Nat) (unit op : Nibble) (r : Except DecodeReject Instr) : Prop :=
  (op.toNat < bound ∧ ∃ i, r = .ok i ∧ unitOf i = unit ∧ opOf i = op) ∨ (bound ≤ op.toNat ∧ ∃ why, r = .error why)

theorem RowsBelow.row {bound n : Nat} {i : Instr} (hn : op.toNat = n) (hb : n < bound) (hu : unitOf i = unit)
    (ho : (opOf i).toNat = n) : RowsBelow bound unit op (.ok i) :=
  .inl ⟨hn ▸ hb, i, rfl, hu, BitVec.eq_of_toNat_eq (ho.trans hn.symm)⟩

theorem RowsBelow.reserved {bound : Nat} {why : DecodeReject} (hb : bound ≤ op.toNat) :
    RowsBelow bound unit op (.error why) :=
  .inr ⟨hb, why, rfl⟩

theorem decodeChannel_rows (c : Chan) (op : Nibble) (imm8 : Byte) :
    RowsBelow 0xB (chanUnit c) op (decodeChannel c (chanUnit c) op imm8) := by
  unfold decodeChannel
  generalize h : op.toNat = n
  match n, h with
  | 0, h | 1, h | 2, h | 3, h | 4, h | 5, h | 6, h | 7, h | 8, h | 9, h | 10, h => exact .row h (by decide) rfl rfl
  | _ + 11, h => exact .reserved (h ▸ Nat.le_add_left ..)

theorem decodeReceiver_rows (op : Nibble) (imm8 : Byte) : RowsBelow 0x3 0x3 op (decodeReceiver 0x3 op imm8) := by
  unfold decodeReceiver
  generalize h : op.toNat = n
  match n, h with
  | 0, h | 1, h | 2, h => exact .row h (by decide) rfl rfl
  | _ + 3, h => exact .reserved (h ▸ Nat.le_add_left ..)

theorem decodePulse_rows (op : Nibble) (imm8 : Byte) (data : Word) :
    RowsBelow 0x2 0x4 op (decodePulse 0x4 op imm8 data) := by
  unfold decodePulse
  generalize h : op.toNat = n
  match n, h with
  | 0, h | 1, h => exact .row h (by decide) rfl rfl
  | _ + 2, h => exact .reserved (h ▸ Nat.le_add_left ..)

theorem decodeEncoder_rows (op : Nibble) (imm8 : Byte) (data : Word) :
    RowsBelow 0x7 0x5 op (decodeEncoder 0x5 op imm8 data) := by
  unfold decodeEncoder
  generalize h : op.toNat = n
  match n, h with
  | 0, h | 1, h | 2, h | 3, h | 4, h | 5, h | 6, h => exact .row h (by decide) rfl rfl
  | _ + 7, h => exact .reserved (h ▸ Nat.le_add_left ..)

theorem decodeDecoder_rows (op : Nibble) (imm8 : Byte) : RowsBelow 0x5 0x6 op (decodeDecoder 0x6 op imm8) := by
  unfold decodeDecoder
  generalize h : op.toNat = n
  match n, h with
  | 0, h | 1, h | 2, h | 3, h | 4, h => exact .row h (by decide) rfl rfl
  | _ + 5, h => exact .reserved (h ▸ Nat.le_add_left ..)

theorem decodeControl_rows (op : Nibble) (imm8 : Byte) : RowsBelow 0x4 0xF op (decodeControl 0xF op imm8) := by
  unfold decodeControl
  generalize h : op.toNat = n
  match n, h with
  | 0, h | 1, h | 2, h | 3, h => exact .row h (by decide) rfl rfl
  | _ + 4, h => exact .reserved (h ▸ Nat.le_add_left ..)

/-! ### Every word -/

/-- How many operations a unit has: `OP` is reserved from there on, and in a reserved unit always (30_encoding.md R107,
R110). -/
def opCount (unit : Nibble) : Nat :=
  if unit.toNat ≤ 2 then 0xB
  else if unit.toNat = 0x3 then 0x3
  else if unit.toNat = 0x4 then 0x2
  else if unit.toNat = 0x5 then 0x7
  else if unit.toNat = 0x6 then 0x5
  else if unit.toNat = 0xF then 0x4
  else 0

/-- A command word is its three fields (30_encoding.md R102). -/
theorem word_eq_fields (cmd : Half) : unitField cmd ++ opField cmd ++ imm8Field cmd = cmd := by
  unfold unitField opField imm8Field
  rw [BitVec.extractLsb'_append_extractLsb'_eq_extractLsb' (by decide),
    BitVec.extractLsb'_append_extractLsb'_eq_extractLsb' (by decide)]
  exact BitVec.extractLsb'_eq_self

/-- Decoding is total: a word decodes to a command of its own `UNIT` and `OP`, or its `OP` is reserved in its unit
(30_encoding.md R111). -/
theorem decode_rows (cmd : Half) (data : Word) :
    RowsBelow (opCount (unitField cmd)) (unitField cmd) (opField cmd) (decode cmd data) := by
  have hword : decode cmd data = decode (unitField cmd ++ opField cmd ++ imm8Field cmd) data := by rw [word_eq_fields]
  rw [hword, decode_append]
  generalize unitField cmd = unit
  have unit_eq {n : Nibble} (h : unit.toNat = n.toNat) : unit = n := BitVec.eq_of_toNat_eq h
  split
  case h_1 h => rw [unit_eq (n := 0x0) h]; exact decodeChannel_rows .ch0 _ _
  case h_2 h => rw [unit_eq (n := 0x1) h]; exact decodeChannel_rows .ch1 _ _
  case h_3 h => rw [unit_eq (n := 0x2) h]; exact decodeChannel_rows .ch2 _ _
  case h_4 h => rw [unit_eq (n := 0x3) h]; exact decodeReceiver_rows _ _
  case h_5 h => rw [unit_eq (n := 0x4) h]; exact decodePulse_rows _ _ _
  case h_6 h => rw [unit_eq (n := 0x5) h]; exact decodeEncoder_rows _ _ _
  case h_7 h => rw [unit_eq (n := 0x6) h]; exact decodeDecoder_rows _ _
  case h_8 h => rw [unit_eq (n := 0xF) h]; exact decodeControl_rows _ _
  case h_9 h0 h1 h2 h3 h4 h5 h6 hF =>
    simp only [imp_false] at h0 h1 h2 h3 h4 h5 h6 hF
    have hle : ¬unit.toNat ≤ 2 := by omega
    have hcount : opCount unit = 0 := by simp [opCount, hle, h3, h4, h5, h6, hF]
    exact .reserved (hcount ▸ Nat.zero_le _)

/-- A word that decodes has the `UNIT` and `OP` of its command. -/
theorem fields_of_decode_ok (h : decode cmd data = .ok i) : unitOf i = unitField cmd ∧ opOf i = opField cmd := by
  rcases decode_rows cmd data with ⟨-, j, hj, hfields⟩ | ⟨-, why, hwhy⟩
  · cases h.symm.trans hj
    exact hfields
  · cases h.symm.trans hwhy

/-- A word of a command's `UNIT` and `OP` decodes to the command's row. -/
theorem decode_of_fields (hu : unitField cmd = unitOf i) (ho : opField cmd = opOf i) :
    decode cmd data = .ok (i.withOperands (imm8Field cmd) data) := by
  rw [← decode_row, ← hu, ← ho, word_eq_fields]

theorem decode_error_iff : (∃ why, decode cmd data = .error why) ↔ opCount (unitField cmd) ≤ (opField cmd).toNat := by
  rcases decode_rows cmd data with ⟨hlt, j, hj, -⟩ | ⟨hle, why, hwhy⟩
  · simp [hj, hlt]
  · simp [hwhy, hle]

/-- A word with the ignored bits of its `IMM8` cleared. -/
theorem word_and_used (cmd : Half) (used : Byte) :
    cmd &&& (0xFF00#16 ||| used.setWidth 16) = unitField cmd ++ opField cmd ++ (imm8Field cmd &&& used) := by
  have hmask : 0xFF00#16 ||| used.setWidth 16 = 0xF#4 ++ 0xF#4 ++ used := by
    have hused : used.setWidth 16 = 0x0#8 ++ used := BitVec.setWidth_eq_append (by decide)
    calc
      0xFF00#16 ||| used.setWidth 16 = (0xFF#8 ++ 0x00#8) ||| (0x00#8 ++ used) := by rw [hused]; rfl
      _ = (0xFF#8 ||| 0x00#8) ++ (0x00#8 ||| used) := BitVec.or_append ..
      _ = 0xFF#8 ++ used := by simp
  calc
    cmd &&& (0xFF00#16 ||| used.setWidth 16)
      = (unitField cmd ++ opField cmd ++ imm8Field cmd) &&& (0xF#4 ++ 0xF#4 ++ used) := by rw [hmask, word_eq_fields]
    _ = ((unitField cmd ++ opField cmd) &&& (0xF#4 ++ 0xF#4)) ++ (imm8Field cmd &&& used) := BitVec.and_append
    _ = unitField cmd ++ opField cmd ++ (imm8Field cmd &&& used) := by
      rw [show (0xF#4 ++ 0xF#4 : Byte) = BitVec.allOnes 8 from rfl, BitVec.and_allOnes]

/-- A word decodes to a command exactly when clearing the ignored bits gives the command's encoding. -/
theorem decode_eq_ok_iff :
    decode cmd data = .ok i
      ↔ cmd &&& (0xFF00#16 ||| (usedImm8 i).setWidth 16) = (encode i).1 ∧ data &&& usedData i = (encode i).2 := by
  rw [word_and_used]
  constructor
  · intro h
    obtain ⟨hu, ho⟩ := fields_of_decode_ok h
    rw [decode_of_fields hu.symm ho.symm, Except.ok.injEq, withOperands_eq_self_iff] at h
    obtain ⟨himm, hdata⟩ := h
    exact ⟨by rw [himm, ← hu, ← ho]; rfl, hdata⟩
  · rintro ⟨hcmd, hdata⟩
    have hu := congrArg unitField hcmd
    have ho := congrArg opField hcmd
    have himm := congrArg imm8Field hcmd
    rw [encode] at hu ho himm
    simp only [unitField_append, opField_append, imm8Field_append] at hu ho himm
    rw [decode_of_fields hu ho, withOperands_eq_self_iff.2 ⟨himm, hdata⟩]

/-! ### An illegal command -/

namespace Machine

/-- An illegal command changes at most `FAULT`, and that only when no fault is recorded (30_encoding.md R110). -/
theorem performIllegal_eq (cmd : Half) (s : State) :
    performIllegal cmd s = .next { s with
      fault := if s.fault.getLsbD 16 then s.fault else faultWord (unitField cmd) (opField cmd) .illegalCommand } := by
  rw [performIllegal]
  cases h : s.fault.getLsbD 16 with
  | true => rw [recordFault_sticky (h := h)]; rfl
  | false => rw [recordFault_first (h := h)]; rfl

end Machine

end Sys2Proof

namespace Sys2Proof.Proofs

open Sys2Proof.Machine

/-- Settles O1: the encoding names the command's row, and the row with the encoding's operands is the command. -/
theorem decodeInvertsEncode : Obligations.DecodeInvertsEncode := by
  intro i
  calc
    decode (encode i).1 (encode i).2 = .ok (i.withOperands (imm8Of i) (dataOf i)) := decode_row i _ _
    _ = .ok i := by rw [withOperands_encoded]

/-- Settles O2: decoding to a command says no more than that the word's used bits are those of the encoding. -/
theorem decodedCommandReencodes : Obligations.DecodedCommandReencodes := by
  intro cmd data i h
  obtain ⟨hcmd, hdata⟩ := decode_eq_ok_iff.1 h
  exact ⟨⟨hcmd.symm, hdata.symm⟩, fun cmd' data' hcmd' hdata' => decode_eq_ok_iff.2 ⟨hcmd', hdata'⟩⟩

/-- Settles O3: each clause is one row of the map, for any command of the row. -/
theorem operationMapDecodes : Obligations.OperationMapDecodes := by
  intro imm data
  have row (i : Instr) := decode_row i imm data
  exact ⟨fun c => ⟨row (.chWriteStart c), row (.chWrite c 0), row (.chWriteEnd c), row (.chWriteAbort c),
      row (.chHasContent c), row (.chReadStart c), row (.chRead c), row (.chPeek c 0), row (.chReadEnd c),
      row (.chAvail c), row (.chIsWriting c)⟩,
    row (.rxStart 0), row (.rxByte 0), row .rxIsWriting, row (.pulse false 0), row .pdStatus, row .encBegin,
    row (.encFixed 0 0), row (.encVarint 0), row (.encTvarint 0 0), row (.encTfixed32 0 0), row .encEnd, row .encStatus,
    row (.decBegin 0), row (.decFixed 0), row .decVarint, row .decRemain, row .decStatus, row .nop, row .ctrlRead,
    row (.ctrlWrite 0), row .faultRead⟩

/-- Settles O4: a word is rejected exactly when its `OP` is not below the number of its unit's operations. -/
theorem illegalWordsAreTheReserved : Obligations.IllegalWordsAreTheReserved := by
  intro cmd data
  rw [decode_error_iff, opCount]
  have := (unitField cmd).isLt
  repeat' split
  all_goals omega

/-- Settles O5: each word is evaluated. -/
theorem wordsOfEveryUnitDecode : Obligations.WordsOfEveryUnitDecode :=
  ⟨rfl, rfl, rfl, rfl, rfl, rfl, rfl, rfl⟩

/-- Settles O7: a step performs the command's words, and rejected words only record the fault. -/
theorem stepRecordsIllegalCommand : Obligations.StepRecordsIllegalCommand := by
  intro s t rest why hwf hin hdecode
  calc
    step s = perform t.cmd t.data (s.takeCommand rest) := step_command hwf hin
    _ = performIllegal t.cmd (s.takeCommand rest) := perform_error hdecode _
    _ = _ := performIllegal_eq _ _

end Sys2Proof.Proofs
end

section
/-! PROOFS. The CRC (30_encoding.md R101, 41_crc_receiver.md R211). A shift that takes out a 0 does not look at the
polynomial, so folding a CRC's own bytes only shifts it out; the shifts are linear, and with bit 15 of the polynomial
set no shift takes a word other than 0 to 0. -/

namespace Sys2Proof.Machine

variable {poly x : Half}

/-! ### The shifts of `crc16_upd` -/

theorem crcShift_eq (poly x : Half) : crcShift poly x = x >>> 1 ^^^ (if x.getLsbD 0 then poly else 0) := by
  unfold crcShift
  split <;> simp

theorem crcShift_xor (poly x y : Half) : crcShift poly (x ^^^ y) = crcShift poly x ^^^ crcShift poly y := by
  have hterm : (if (x ^^^ y).getLsbD 0 then poly else 0)
      = (if x.getLsbD 0 then poly else 0) ^^^ (if y.getLsbD 0 then poly else 0) := by
    rw [BitVec.getLsbD_xor]
    cases x.getLsbD 0 <;> cases y.getLsbD 0 <;> simp
  simp only [crcShift_eq, hterm, BitVec.ushiftRight_xor_distrib]
  ac_rfl

theorem crcShifts_xor (poly : Half) (k : Nat) (x y : Half) :
    crcShifts poly k (x ^^^ y) = crcShifts poly k x ^^^ crcShifts poly k y := by
  induction k generalizing x y with
  | zero => rfl
  | succ k ih => rw [crcShifts, crcShift_xor, ih]; rfl

/-- Zeros at the low end are shifted out, whatever the polynomial. -/
theorem crcShifts_of_low_zero {k : Nat} (h : ∀ j < k, x.getLsbD j = false) : crcShifts poly k x = x >>> k := by
  induction k generalizing x with
  | zero => simp [crcShifts]
  | succ k ih =>
    have hshifted : ∀ j < k, (x >>> 1).getLsbD j = false := fun j hj => by
      rw [BitVec.getLsbD_ushiftRight]
      exact h _ (by omega)
    calc
      crcShifts poly (k + 1) x = crcShifts poly k (crcShift poly x) := rfl
      _ = crcShifts poly k (x >>> 1) := by rw [crcShift_eq, h 0 k.succ_pos]; simp
      _ = x >>> 1 >>> k := ih hshifted
      _ = x >>> (k + 1) := by rw [← BitVec.shiftRight_add, Nat.add_comm]

/-- With bit 15 of the polynomial set, a bit taken out comes back in at the top. -/
theorem crcShift_ne_zero (hpoly : poly.getLsbD 15 = true) (hx : x ≠ 0) : crcShift poly x ≠ 0 := by
  intro h
  rw [crcShift_eq] at h
  cases hbit : x.getLsbD 0 with
  | false =>
    have hshift : x >>> 1 = 0 := by
      rw [hbit] at h
      simpa using h
    refine hx (BitVec.eq_of_getLsbD_eq fun j _ => ?_)
    cases j with
    | zero => simpa using hbit
    | succ j =>
      have hj : (x >>> 1).getLsbD j = false := by simp [hshift]
      rw [BitVec.getLsbD_ushiftRight, Nat.add_comm] at hj
      simpa using hj
  | true =>
    have htop : (x >>> 1 ^^^ poly).getLsbD 15 = true := by simp [hpoly]
    rw [hbit, if_pos rfl] at h
    simp [h] at htop

theorem crcShifts_ne_zero (hpoly : poly.getLsbD 15 = true) (k : Nat) (hx : x ≠ 0) : crcShifts poly k x ≠ 0 := by
  induction k generalizing x with
  | zero => exact hx
  | succ k ih => exact ih (crcShift_ne_zero hpoly hx)

/-! ### Folding bytes -/

/-- Folding a CRC's low byte leaves its high byte. -/
theorem crc16Upd_crcLow (poly crc : Half) : crc16Upd poly crc (crcLow crc) = (crcHigh crc).setWidth 16 := by
  have hlow : ∀ j < 8, (crc ^^^ (crcLow crc).setWidth 16).getLsbD j = false := fun j hj => by
    simp [crcLow, hj, Nat.lt_trans hj]
  rw [crc16Upd, crcShifts_of_low_zero hlow]
  ext j hj
  have hwidth (h : crc.getLsbD (8 + j) = true) : j < 8 := by
    have := BitVec.lt_of_getLsbD h
    omega
  simpa [crcHigh, crcLow] using hwidth

/-- Folding a byte into the CRC equal to it gives 0. -/
theorem crc16Upd_self (poly : Half) (b : Byte) : crc16Upd poly (b.setWidth 16) b = 0 := by
  rw [crc16Upd, BitVec.xor_self, crcShifts_of_low_zero (by simp)]
  rfl

/-- Differences in the CRC and in the byte fold as a CRC and a byte of their own. -/
theorem crc16Upd_xor (poly crc d : Half) (b e : Byte) :
    crc16Upd poly (crc ^^^ d) (b ^^^ e) = crc16Upd poly crc b ^^^ crc16Upd poly d e := by
  have harg : crc ^^^ d ^^^ (b ^^^ e).setWidth 16 = crc ^^^ b.setWidth 16 ^^^ (d ^^^ e.setWidth 16) := by
    rw [BitVec.setWidth_xor]
    ac_rfl
  rw [crc16Upd, harg, crcShifts_xor]
  rfl

theorem crc16Upd_ne_zero (hpoly : poly.getLsbD 15 = true) {crc : Half} {b : Byte} (h : crc ≠ b.setWidth 16) :
    crc16Upd poly crc b ≠ 0 :=
  crcShifts_ne_zero hpoly 8 fun h0 => h (BitVec.xor_eq_zero_iff.1 h0)

theorem crcFold_own_bytes (poly crc : Half) : crcFold poly crc [crcLow crc, crcHigh crc] = 0 := by
  calc
    crcFold poly crc [crcLow crc, crcHigh crc]
      = crc16Upd poly (crc16Upd poly crc (crcLow crc)) (crcHigh crc) := rfl
    _ = 0 := by rw [crc16Upd_crcLow, crc16Upd_self]

/-- A flipped bit adds what its own byte and the one after it fold to. -/
theorem crcFold_own_bytes_flipped (poly crc : Half) (e : Byte) :
    crcFold poly crc [crcLow crc ^^^ e, crcHigh crc] = crc16Upd poly (crc16Upd poly 0 e) 0 := by
  calc
    crcFold poly crc [crcLow crc ^^^ e, crcHigh crc]
      = crc16Upd poly (crc16Upd poly (crc ^^^ 0) (crcLow crc ^^^ e)) (crcHigh crc ^^^ 0) := by
        simp [crcFold]
    _ = crcFold poly crc [crcLow crc, crcHigh crc] ^^^ crc16Upd poly (crc16Upd poly 0 e) 0 := by
        rw [crc16Upd_xor, crc16Upd_xor]; rfl
    _ = crc16Upd poly (crc16Upd poly 0 e) 0 := by simp [crcFold_own_bytes]

end Sys2Proof.Machine

namespace Sys2Proof.Proofs

open Sys2Proof.Machine

/-- Settles O35: the own bytes are shifted out; a flipped bit is folded by itself, and no shift loses it. -/
theorem appendedCrcFoldsToZero : Obligations.AppendedCrcFoldsToZero := by
  refine ⟨crcFold_own_bytes, fun poly crc hpoly => ?_⟩
  rw [crcFold_own_bytes_flipped]
  exact crc16Upd_ne_zero hpoly (crc16Upd_ne_zero hpoly (by decide))

end Sys2Proof.Proofs
end

section
/-! PROOFS. Wire-codec bytes (30_encoding.md R120 to R123). A varint is read as the value of its 7-bit groups,
`groupsValue`: encoding gives bytes of the value `v`, and decoding a run of continuation bytes and a last byte gives
their value, so decoding inverts encoding. -/

namespace Sys2Proof.Machine

variable {v : Word} {b last : Byte} {run bs rest : List Byte} {k : Nat}

/-- A word put above the bits of another one adds to it, as long as it fits. -/
theorem toNat_shiftLeft_or {w n : Nat} {x y : BitVec w} (hy : y.toNat < 2 ^ n) (hx : 2 ^ n * x.toNat < 2 ^ w) :
    (x <<< n ||| y).toNat = 2 ^ n * x.toNat + y.toNat := by
  rw [BitVec.toNat_or, BitVec.toNat_shiftLeft, Nat.shiftLeft_eq, Nat.mul_comm, Nat.mod_eq_of_lt hx,
    ← Nat.two_pow_add_eq_or_of_lt hy]

/-! ### Fixed-width fields -/

/-- The bytes of a fixed-width field lie at the multiples of 8 (30_encoding.md R123). -/
theorem fixedBytes_eq_map (n : Nat) (v : Word) :
    fixedBytes n v = (List.range n).map (fun i => v.extractLsb' (8 * i) 8) := by
  induction n generalizing v with
  | zero => rfl
  | succ n ih =>
    have hbyte (i : Nat) : (v >>> 8).extractLsb' (8 * i) 8 = v.extractLsb' (8 * (i + 1)) 8 := by
      rw [← BitVec.setWidth_ushiftRight_eq_extractLsb, ← BitVec.setWidth_ushiftRight_eq_extractLsb,
        ← BitVec.shiftRight_add, Nat.mul_succ, Nat.add_comm]
    rw [fixedBytes, ih, List.range_succ_eq_map]
    simp [hbyte]

/-- A byte below the bytes of a value, as long as these leave it room in 32 bits (30_encoding.md R123). -/
theorem fixedValue_cons_toNat_of_lt (b : Byte) (h : (fixedValue bs).toNat < 2 ^ 24) :
    (fixedValue (b :: bs)).toNat = 2 ^ 8 * (fixedValue bs).toNat + b.toNat := by
  have hb : (b.setWidth 32).toNat = b.toNat := BitVec.toNat_setWidth_of_le (by decide)
  rw [fixedValue, BitVec.or_comm, toNat_shiftLeft_or (by rw [hb]; exact b.isLt) (by omega), hb]

theorem fixedValue_lt (h : bs.length ≤ 4) : (fixedValue bs).toNat < 2 ^ (8 * bs.length) := by
  induction bs with
  | nil => decide
  | cons b bs ih =>
    rw [List.length_cons] at h ⊢
    have hbs := ih (by omega)
    have hroom : (fixedValue bs).toNat < 2 ^ 24 :=
      Nat.lt_of_lt_of_le hbs (Nat.pow_le_pow_right (by decide) (by omega))
    have hb := b.isLt
    rw [fixedValue_cons_toNat_of_lt b hroom, Nat.mul_succ, Nat.pow_add]
    omega

theorem fixedValue_cons_toNat (b : Byte) (h : bs.length ≤ 3) :
    (fixedValue (b :: bs)).toNat = 2 ^ 8 * (fixedValue bs).toNat + b.toNat :=
  fixedValue_cons_toNat_of_lt b
    (Nat.lt_of_lt_of_le (fixedValue_lt (Nat.le_succ_of_le h)) (Nat.pow_le_pow_right (by decide) (by omega)))

/-! ### Seven-bit groups -/

/-- The value of 7-bit groups, least significant first; bit 7 of a byte has no part in it (30_encoding.md R120). -/
def groupsValue (bs : List Byte) : Nat := bs.foldr (fun b acc => b.toNat % 0x80 + 0x80 * acc) 0

theorem groupsValue_cons (b : Byte) (bs : List Byte) :
    groupsValue (b :: bs) = b.toNat % 0x80 + 0x80 * groupsValue bs := rfl

theorem groupsValue_append (xs ys : List Byte) :
    groupsValue (xs ++ ys) = groupsValue xs + 2 ^ (7 * xs.length) * groupsValue ys := by
  induction xs with
  | nil => simp [groupsValue]
  | cons x xs ih =>
    rw [List.cons_append, groupsValue_cons, groupsValue_cons, ih, List.length_cons, Nat.mul_succ, Nat.pow_add]
    simp only [Nat.mul_add, Nat.mul_assoc, Nat.mul_left_comm, Nat.add_assoc, Nat.reducePow]

/-- The low 7-bit group of a value, as the last byte of a varint holds it. -/
def lowGroup (v : Word) : Byte := (v.extractLsb' 0 7).setWidth 8

theorem lowGroup_toNat (v : Word) : (lowGroup v).toNat = v.toNat % 0x80 := by
  rw [lowGroup, BitVec.toNat_setWidth_of_le (by decide), BitVec.extractLsb'_toNat, Nat.shiftRight_zero]

theorem continuation_iff : b.getLsbD 7 = true ↔ 0x80 ≤ b.toNat := by
  have h : b.getLsbD 7 = decide (2 ^ 7 ≤ b.toNat) := (BitVec.msb_eq_getLsbD_last b).symm.trans (BitVec.msb_eq_decide b)
  rw [h]
  exact decide_eq_true_iff

theorem last_iff : b.getLsbD 7 = false ↔ b.toNat < 0x80 := by
  rw [← Bool.not_eq_true, continuation_iff, Nat.not_le]

theorem continued_lowGroup_toNat (v : Word) : (0x80 ||| lowGroup v).toNat = 0x80 + v.toNat % 0x80 := by
  have h : v.toNat % 0x80 < 2 ^ 7 := Nat.mod_lt _ (by decide)
  rw [BitVec.toNat_or, lowGroup_toNat]
  exact (Nat.two_pow_add_eq_or_of_lt h 1).symm

theorem ushiftRight_seven_toNat (v : Word) : (v >>> 7).toNat = v.toNat / 0x80 := by
  rw [BitVec.toNat_ushiftRight, Nat.shiftRight_eq_div_pow]

/-! ### Encoding a varint -/

/-- A value of one group is one byte. -/
theorem varintGroups_last (h : v.toNat < 0x80) : varintGroups k v = [lowGroup v] := by
  cases k with
  | zero => rfl
  | succ k =>
    have hv : v >>> 7 = 0 := BitVec.eq_of_toNat_eq (by rw [ushiftRight_seven_toNat, Nat.div_eq_of_lt h]; rfl)
    exact if_neg fun h => h hv

/-- A greater value continues with the groups above the lowest. -/
theorem varintGroups_more (h : 0x80 ≤ v.toNat) :
    varintGroups (k + 1) v = (0x80 ||| lowGroup v) :: varintGroups k (v >>> 7) := by
  have hv : v >>> 7 ≠ 0 := fun h0 => by
    have hdiv := ushiftRight_seven_toNat v
    rw [h0] at hdiv
    exact Nat.ne_of_lt (Nat.div_pos h (by decide)) hdiv
  exact if_pos hv

theorem length_varintGroups_succ (k : Nat) (v : Word) :
    (varintGroups (k + 1) v).length = if v.toNat < 0x80 then 1 else (varintGroups k (v >>> 7)).length + 1 := by
  split
  case isTrue h => rw [varintGroups_last h]; rfl
  case isFalse h => rw [varintGroups_more (Nat.le_of_not_lt h)]; rfl

theorem length_varint (v : Word) :
    (varint v).length
      = if v.toNat < 0x80 then 1 else if v.toNat < 0x4000 then 2 else if v.toNat < 0x200000 then 3
        else if v.toNat < 0x10000000 then 4 else 5 := by
  have hzero (v : Word) : (varintGroups 0 v).length = 1 := rfl
  simp only [varint, length_varintGroups_succ, hzero, ushiftRight_seven_toNat]
  repeat' split
  all_goals omega

/-- The bytes are a run of continuation bytes and a last byte (30_encoding.md R120). -/
theorem varintGroups_eq_run (k : Nat) (v : Word) :
    ∃ run last, varintGroups k v = run ++ [last] ∧ run.length ≤ k ∧ (∀ b ∈ run, b.getLsbD 7 = true)
      ∧ last.getLsbD 7 = false := by
  have hlast (v : Word) : (lowGroup v).getLsbD 7 = false :=
    last_iff.2 (by rw [lowGroup_toNat]; exact Nat.mod_lt _ (by decide))
  induction k generalizing v with
  | zero => exact ⟨[], lowGroup v, rfl, Nat.le_refl _, by simp, hlast v⟩
  | succ k ih =>
    by_cases hv : v.toNat < 0x80
    · exact ⟨[], lowGroup v, varintGroups_last hv, Nat.zero_le _, by simp, hlast v⟩
    · obtain ⟨run, last, heq, hlen, hrun, hl⟩ := ih (v >>> 7)
      have hfirst : (0x80 ||| lowGroup v).getLsbD 7 = true :=
        continuation_iff.2 (by rw [continued_lowGroup_toNat]; exact Nat.le_add_right ..)
      exact ⟨(0x80 ||| lowGroup v) :: run, last, by rw [varintGroups_more (Nat.le_of_not_lt hv), heq]; rfl,
        Nat.succ_le_succ hlen, List.forall_mem_cons.2 ⟨hfirst, hrun⟩, hl⟩

/-- The groups make up the value, as far as there are bytes enough for it (30_encoding.md R120). -/
theorem groupsValue_varintGroups (h : v.toNat < 2 ^ (7 * (k + 1))) : groupsValue (varintGroups k v) = v.toNat := by
  induction k generalizing v with
  | zero =>
    rw [varintGroups_last h, groupsValue_cons, lowGroup_toNat, Nat.mod_mod]
    exact Nat.mod_eq_of_lt h
  | succ k ih =>
    by_cases hv : v.toNat < 0x80
    · rw [varintGroups_last hv, groupsValue_cons, lowGroup_toNat, Nat.mod_mod]
      exact Nat.mod_eq_of_lt hv
    · have hrest : (v >>> 7).toNat < 2 ^ (7 * (k + 1)) := by
        rw [ushiftRight_seven_toNat, Nat.div_lt_iff_lt_mul (by decide)]
        exact Nat.lt_of_lt_of_eq h (Nat.pow_add ..)
      rw [varintGroups_more (Nat.le_of_not_lt hv), groupsValue_cons, ih hrest, continued_lowGroup_toNat,
        ushiftRight_seven_toNat]
      omega

theorem groupsValue_varint (v : Word) : groupsValue (varint v) = v.toNat :=
  groupsValue_varintGroups (Nat.lt_trans v.isLt (by decide))

/-! ### Decoding a varint -/

/-- The value with the group of one more byte put in at place `k` (30_encoding.md R121). -/
def addGroup (k : Nat) (v : Word) (b : Byte) : Word := v ||| ((b.extractLsb' 0 7).setWidth 32 <<< (7 * k))

theorem addGroup_toNat (hv : v.toNat < 2 ^ (7 * k)) (hroom : 2 ^ (7 * k) * (b.toNat % 0x80) < 2 ^ 32) :
    (addGroup k v b).toNat = 2 ^ (7 * k) * (b.toNat % 0x80) + v.toNat := by
  have hb : ((b.extractLsb' 0 7).setWidth 32).toNat = b.toNat % 0x80 := by
    rw [BitVec.toNat_setWidth_of_le (by decide), BitVec.extractLsb'_toNat, Nat.shiftRight_zero]
  rw [addGroup, BitVec.or_comm, toNat_shiftLeft_or hv (by rwa [hb]), hb]

/-- Each of the first four groups fits 32 bits, and the fifth when its byte is at most 0x0F (30_encoding.md R121). -/
theorem group_fits (hk : k ≤ 4) (hb : k = 4 → b.toNat ≤ 0x0F) : 2 ^ (7 * k) * (b.toNat % 0x80) < 2 ^ 32 := by
  have hmod : b.toNat % 0x80 < 0x80 := Nat.mod_lt _ (by decide)
  rcases Nat.lt_or_eq_of_le hk with hlt | rfl
  · have hpow : 2 ^ (7 * k) ≤ 2 ^ 21 := Nat.pow_le_pow_right (by decide) (by omega)
    calc
      2 ^ (7 * k) * (b.toNat % 0x80) ≤ 2 ^ 21 * 0x80 := Nat.mul_le_mul hpow (Nat.le_of_lt hmod)
      _ < 2 ^ 32 := by decide
  · have := hb rfl
    omega

theorem unvarintLoop_more (hb : b.getLsbD 7 = true) (hk : k ≠ 4) :
    unvarintLoop k v (b :: bs) = unvarintLoop (k + 1) (addGroup k v b) bs := by
  rw [unvarintLoop, if_neg fun h => hk h.1, hb, if_pos rfl]; rfl

theorem unvarintLoop_last (hb : b.getLsbD 7 = false) (hk : k = 4 → b.toNat ≤ 0x0F) :
    unvarintLoop k v (b :: bs) = some (addGroup k v b, k + 1) := by
  rw [unvarintLoop, if_neg fun h => Nat.not_lt.2 (hk h.1) h.2, hb]; rfl

/-- A fifth byte above 0x0F fails. -/
theorem unvarintLoop_overflow (hb : 0x0F < b.toNat) : unvarintLoop 4 v (b :: bs) = none :=
  if_pos ⟨rfl, hb⟩

/-- A run of continuation bytes and a last byte, from place `k` on, give their value above the value so far. -/
theorem unvarintLoop_run (hlen : k + run.length ≤ 4) (hrun : ∀ b ∈ run, b.getLsbD 7 = true)
    (hlast : last.getLsbD 7 = false) (hfifth : k + run.length = 4 → last.toNat ≤ 0x0F) (hv : v.toNat < 2 ^ (7 * k)) :
    ∃ w, unvarintLoop k v (run ++ last :: rest) = some (w, k + run.length + 1)
      ∧ w.toNat = 2 ^ (7 * k) * groupsValue (run ++ [last]) + v.toNat := by
  induction run generalizing k v with
  | nil => exact ⟨_, unvarintLoop_last hlast hfifth, addGroup_toNat hv (group_fits hlen hfifth)⟩
  | cons b run ih =>
    obtain ⟨hb, hrun⟩ := List.forall_mem_cons.1 hrun
    rw [List.length_cons] at hlen hfifth ⊢
    have hadd := addGroup_toNat hv (b := b) (group_fits (by omega) (by omega))
    have hmod : b.toNat % 0x80 < 2 ^ 7 := Nat.mod_lt _ (by decide)
    have hbound : (addGroup k v b).toNat < 2 ^ (7 * (k + 1)) := by
      calc
        (addGroup k v b).toNat < 2 ^ (7 * k) * (b.toNat % 0x80 + 1) := by rw [hadd]; exact Nat.add_lt_add_left hv _
        _ ≤ 2 ^ (7 * k) * 2 ^ 7 := Nat.mul_le_mul_left _ hmod
        _ = 2 ^ (7 * (k + 1)) := (Nat.pow_add ..).symm
    obtain ⟨w, hw, hval⟩ := ih (by omega) hrun (by omega) hbound
    refine ⟨w, ?_, ?_⟩
    · rw [List.cons_append, unvarintLoop_more hb (by omega), hw, Nat.add_right_comm k 1]; rfl
    · rw [hval, hadd, List.cons_append, groupsValue_cons, Nat.mul_succ, Nat.pow_add]
      simp only [Nat.mul_add, Nat.mul_assoc, Nat.add_assoc, Nat.add_comm, Nat.reducePow]

/-- Bytes that all continue end too early or run past the fifth. -/
theorem unvarintLoop_continued (h : ∀ b ∈ bs, b.getLsbD 7 = true) : unvarintLoop k v bs = none := by
  induction bs generalizing k v with
  | nil => rfl
  | cons b bs ih =>
    obtain ⟨hb, hbs⟩ := List.forall_mem_cons.1 h
    by_cases hk : k = 4
    · subst hk
      exact unvarintLoop_overflow (Nat.lt_of_lt_of_le (by decide) (continuation_iff.1 hb))
    · rw [unvarintLoop_more hb hk, ih hbs]

theorem unvarint_run (hlen : run.length ≤ 4) (hrun : ∀ b ∈ run, b.getLsbD 7 = true) (hlast : last.getLsbD 7 = false)
    (hfifth : run.length = 4 → last.toNat ≤ 0x0F) (rest : List Byte) :
    ∃ w, unvarint (run ++ last :: rest) = some (w, run.length + 1) ∧ w.toNat = groupsValue (run ++ [last]) := by
  simpa [unvarint] using unvarintLoop_run (k := 0) (v := 0) (rest := rest) (by omega) hrun hlast (by omega) (by decide)

/-- Decoding inverts encoding: the fifth byte of a 32-bit value is at most 0x0F. -/
theorem unvarint_varint (v : Word) (rest : List Byte) :
    unvarint (varint v ++ rest) = some (v, (varint v).length) := by
  obtain ⟨run, last, heq, hlen, hrun, hlast⟩ := varintGroups_eq_run 4 v
  have hvalue : groupsValue (run ++ [last]) = v.toNat := heq ▸ groupsValue_varint v
  have hfifth : run.length = 4 → last.toNat ≤ 0x0F := fun h4 => by
    have hlast := last_iff.1 hlast
    have hv := v.isLt
    rw [groupsValue_append, h4, groupsValue_cons] at hvalue
    omega
  obtain ⟨w, hw, hwv⟩ := unvarint_run hlen hrun hlast hfifth rest
  cases BitVec.eq_of_toNat_eq (hwv.trans hvalue)
  rw [varint, heq, List.append_assoc, List.length_append]
  exact hw

/-! ### Keys -/

theorem fieldKey_eq (tag : Byte) (wt : BitVec 3) :
    fieldKey tag wt = varint (BitVec.ofNat 32 (8 * tag.toNat + wt.toNat)) := by
  have htag : (tag.setWidth 32).toNat = tag.toNat := BitVec.toNat_setWidth_of_le (by decide)
  have hwt : (wt.setWidth 32).toNat = wt.toNat := BitVec.toNat_setWidth_of_le (by decide)
  have hlt := tag.isLt
  have hsum : (tag.setWidth 32 <<< 3 ||| wt.setWidth 32).toNat = 2 ^ 3 * tag.toNat + wt.toNat := by
    rw [toNat_shiftLeft_or (by rw [hwt]; exact wt.isLt) (by rw [htag]; omega), htag, hwt]
  have hfits : 8 * tag.toNat + wt.toNat < 2 ^ 32 := by
    have := wt.isLt
    omega
  exact congrArg varint (BitVec.eq_of_toNat_eq (hsum.trans (Nat.mod_eq_of_lt hfits).symm))

end Sys2Proof.Machine

namespace Sys2Proof.Proofs

open Sys2Proof.Machine

/-- Settles O45: the bytes lie at the multiples of 8, and each byte more weighs those above it by 256. -/
theorem fixedFieldBytes : Obligations.FixedFieldBytes := by
  refine ⟨fun v => ⟨fixedBytes_eq_map 1 v, fixedBytes_eq_map 2 v, fixedBytes_eq_map 4 v⟩, fun b0 b1 b2 b3 => ?_⟩
  have hnil : (fixedValue []).toNat = 0 := rfl
  simp (disch := simp) only [fixedValue_cons_toNat, hnil]
  omega

/-- Settles O46: the shape and the value of the groups, by their recursion on the value shifted by 7. -/
theorem varintGroupsMakeTheValue : Obligations.VarintGroupsMakeTheValue := by
  intro v
  obtain ⟨run, last, heq, -, hrun, hlast⟩ := varintGroups_eq_run 4 v
  refine ⟨length_varint v, ?_, ?_, groupsValue_varint v⟩
  · rwa [varint, heq, List.dropLast_concat]
  · rw [varint, heq, List.getLast?_concat]
    rintro b ⟨⟩
    exact hlast

/-- Settles O47: a varint is a run of continuation bytes and a last byte of its value; a run decodes to its value. -/
theorem varintDecodesOrFails : Obligations.VarintDecodesOrFails := by
  refine ⟨unvarint_varint, fun bs h => unvarintLoop_continued h, ?_, ?_, fun rest => rfl⟩
  · intro b0 b1 b2 b3 b4 rest h0 h1 h2 h3 h4
    rw [unvarint, unvarintLoop_more h0 (by decide), unvarintLoop_more h1 (by decide), unvarintLoop_more h2 (by decide),
      unvarintLoop_more h3 (by decide), unvarintLoop_overflow h4]
  · exact fun run last rest hlen hrun hlast hfifth => unvarint_run hlen hrun hlast hfifth rest

/-- Settles O48: the key is a varint below 2^11, and below 2^7 exactly for tags to 15. -/
theorem keysOfTags : Obligations.KeysOfTags := by
  refine ⟨rfl, rfl, fun tag wt _ => ⟨fieldKey_eq tag wt, ?_⟩⟩
  have htag := tag.isLt
  have hwt := wt.isLt
  have hkey : (BitVec.ofNat 32 (8 * tag.toNat + wt.toNat)).toNat = 8 * tag.toNat + wt.toNat :=
    Nat.mod_eq_of_lt (by omega)
  rw [fieldKey_eq, length_varint, hkey]
  repeat' split
  all_goals omega

end Sys2Proof.Proofs
end

section
/-! PROOFS. The ring-buffer and chunk primitives (40_channel.md R150 to R157): what each stores and where, what a series
of appended bytes makes of the open chunk, and that ending it commits exactly these bytes or drops them whole. -/

namespace Sys2Proof.Machine

variable {n : Nat} {ch : Channel}

/-! ### Where each primitive stores its byte -/

theorem Memory.storedAt_write (m : Memory) (a : Nat) (v : Byte) : m.storedAt a v (m.write a v) :=
  fun _ => Memory.read_write ..

theorem Memory.storedAt_write_mod (m : Memory) {a : Nat} (ha : a < n) (v : Byte) :
    m.storedAt a v (m.write (a % n) v) := by
  rw [Nat.mod_eq_of_lt ha]
  exact m.storedAt_write a v

/-- `RB_put` keeps every byte stored before it (40_channel.md R150). -/
theorem rbPeek_rbPut {ch' : Channel} {b : Byte} {k : Nat} (hplace : ch.wr = (ch.rd + ch.count) % n)
    (hk : k < ch.count) (h : rbPut n b ch = some ch') : rbPeek n k ch' = rbPeek n k ch := by
  by_cases hc : ch.count < n
  · rw [rbPut_room n ch b hc, Option.some.injEq] at h
    subst h
    refine rbPeek_write_ne (i := ch.wr % n) ?_
    rw [hplace, Nat.mod_mod]
    exact mod_ne hk hc
  · rw [rbPut_full n ch b hc] at h
    cases h

theorem chunkStart_stores (hc : ch.count < n) (hwr : ch.wr < n) :
    ∃ buf, ch.buf.storedAt ch.wr 0x00 buf
      ∧ chunkStart n ch
        = { ch with
            buf := buf, wr := (ch.wr + 1) % n, count := ch.count + 1, writing := true, wstart := ch.wr, wbytes := 1
            wlost := false } :=
  ⟨_, ch.buf.storedAt_write_mod hwr _, chunkStart_room n ch hc⟩

/-- The length byte counts 255 content bytes at most (40_channel.md R155). -/
theorem chunkPut_loses (b : Byte) (hl : ch.wlost = false) (h : ch.wbytes = 256 ∨ ¬ch.count < n) :
    chunkPut n b ch = { ch with wlost := true } :=
  chunkPut_overflow n ch b hl (h.imp_left fun hw => by rw [hw])

theorem chunkPut_stores (b : Byte) (hl : ch.wlost = false) (hw : ch.wbytes ≠ 256) (hc : ch.count < n)
    (hwr : ch.wr < n) :
    ∃ buf, ch.buf.storedAt ch.wr b buf
      ∧ chunkPut n b ch
        = { ch with buf := buf, wr := (ch.wr + 1) % n, count := ch.count + 1, wbytes := ch.wbytes + 1 } :=
  ⟨_, ch.buf.storedAt_write_mod hwr _, chunkPut_fits n ch b hl (by omega) hc⟩

theorem chunkEnd_stores (hl : ch.wlost = false) (hws : ch.wstart < n) :
    ∃ buf, ch.buf.storedAt ch.wstart (BitVec.ofNat 8 (ch.wbytes - 1)) buf
      ∧ chunkEnd n ch = { ch with buf := buf, nchunks := ch.nchunks + 1, writing := false, wbytes := 0 } :=
  ⟨_, ch.buf.storedAt_write_mod hws _, chunkEnd_commits n ch hl⟩

/-! ### What an aborted chunk leaves -/

/-- Where the write cursor is, and how many bytes are stored, once the open chunk is discarded. -/
def afterAbort (ch : Channel) : Nat × Nat := ((chunkAbort ch).wr, (chunkAbort ch).count)

/-- Opening a chunk and discarding it moves nothing, with room or without (40_channel.md R157). -/
theorem afterAbort_chunkStart : afterAbort (chunkStart n ch) = (ch.wr, ch.count) := by
  by_cases hc : ch.count < n
  · rw [chunkStart_room n ch hc]; rfl
  · rw [chunkStart_full n ch hc]; rfl

/-- A byte appended is freed again with its chunk (40_channel.md R157). -/
theorem afterAbort_chunkPut (b : Byte) : afterAbort (chunkPut n b ch) = afterAbort ch := by
  rcases chunkPut_cases n ch b with ⟨-, e⟩ | ⟨-, -, e⟩ | ⟨-, -, -, e⟩
  · rw [e]
  · rw [e]; rfl
  · rw [e]
    exact congrArg (Prod.mk ch.wstart) (Nat.add_sub_add_right ..)

theorem afterAbort_chunkPutAll (bs : List Byte) : afterAbort (chunkPutAll n bs ch) = afterAbort ch := by
  induction bs generalizing ch with
  | nil => rfl
  | cons b bs ih => exact ih.trans (afterAbort_chunkPut b)

/-- A chunk opened, written and discarded gives back the write cursor and the count (40_channel.md R169). -/
theorem afterAbort_written (n : Nat) (ch : Channel) (bs : List Byte) :
    afterAbort (chunkPutAll n bs (chunkStart n ch)) = (ch.wr, ch.count) :=
  (afterAbort_chunkPutAll bs).trans afterAbort_chunkStart

/-! ### Bytes appended one after another -/

theorem committed_chunkPutAll (bs : List Byte) (h : ch.Inv n) (hw : ch.writing = true) :
    committed n (chunkPutAll n bs ch) = committed n ch := by
  induction bs generalizing ch with
  | nil => rfl
  | cons b bs ih =>
    exact (ih (inv_chunkPut b h hw) ((writing_chunkPut b).trans hw)).trans (committed_chunkPut b h)

/-- Writing a chunk shows the reader nothing until it ends (20_memory.md R88). -/
theorem committed_written (bs : List Byte) (h : ch.Inv n) (hclosed : ch.writing = false) :
    committed n (chunkPutAll n bs (chunkStart n ch)) = committed n ch :=
  (committed_chunkPutAll bs (inv_chunkStart h hclosed) writing_chunkStart).trans (committed_chunkStart h)

/-- A byte with room joins the open chunk's content: in at most 256 bytes of storage the channel is full before the
chunk has 256 content bytes. -/
theorem openContent_chunkPut (b : Byte) (hn : n ≤ 256) (h : ch.Inv n) (hw : ch.writing = true)
    (hl : ch.wlost = false) (hc : ch.count < n) :
    (chunkPut n b ch).wlost = false ∧ (chunkPut n b ch).count = ch.count + 1
      ∧ openContent n (chunkPut n b ch) = openContent n ch ++ [b] := by
  obtain ⟨hsum, hpos, -, -⟩ := h.open_chunk hw hl
  have hplace (i : Nat) :
      (ch.wstart + 1 + i) % n = (ch.rd + (chunkOffset n ch ch.nchunks + 1 + i)) % n := by
    rw [h.wstartPlace hw, Nat.add_assoc, Nat.mod_add_mod]
    congr 1
    omega
  have hwr : ch.wr % n = (ch.rd + ch.count) % n := by rw [h.wrPlace, Nat.mod_mod]
  rw [chunkPut_fits n ch b hl (by omega) hc]
  refine ⟨hl, rfl, ?_⟩
  have hlen : ch.wbytes + 1 - 1 = ch.wbytes - 1 + 1 := by omega
  simp only [openContent, hlen, List.range_succ, List.map_append, List.map_singleton]
  congr 1
  · refine List.map_congr_left fun i hi => ?_
    have hi := List.mem_range.1 hi
    have hne := mod_ne (n := n) (rd := ch.rd) (k := chunkOffset n ch ch.nchunks + 1 + i) (by omega) hc
    simp only [Channel.byteAt, Memory.read_write, hplace, hwr, if_neg hne]
  · have hlast : chunkOffset n ch ch.nchunks + 1 + (ch.wbytes - 1) = ch.count := by omega
    simp only [Channel.byteAt, Memory.read_write, hplace, hwr, hlast, if_pos]

/-- Bytes that all have room are the content that the open chunk gains, in their order (20_memory.md R80). -/
theorem openContent_chunkPutAll (bs : List Byte) (hn : n ≤ 256) (h : ch.Inv n) (hw : ch.writing = true)
    (hl : ch.wlost = false) (hfit : ch.count + bs.length ≤ n) :
    (chunkPutAll n bs ch).wlost = false ∧ openContent n (chunkPutAll n bs ch) = openContent n ch ++ bs := by
  induction bs generalizing ch with
  | nil => exact ⟨hl, (List.append_nil _).symm⟩
  | cons b bs ih =>
    rw [List.length_cons] at hfit
    obtain ⟨hl', hc', hcontent⟩ := openContent_chunkPut b hn h hw hl (by omega)
    obtain ⟨hlost, hall⟩ := ih (inv_chunkPut b h hw) ((writing_chunkPut b).trans hw) hl' (by omega)
    exact ⟨hlost, by rw [chunkPutAll_cons, hall, hcontent, List.append_assoc, List.singleton_append]⟩

/-- More bytes than there is room for lose the chunk (40_channel.md R153). -/
theorem wlost_chunkPutAll (bs : List Byte) (h : ch.Inv n) (hw : ch.writing = true)
    (hover : ch.wlost = true ∨ n < ch.count + bs.length) : (chunkPutAll n bs ch).wlost = true := by
  induction bs generalizing ch with
  | nil => exact hover.resolve_right (Nat.not_lt.2 h.countRange)
  | cons b bs ih =>
    rw [chunkPutAll_cons]
    refine ih (inv_chunkPut b h hw) ((writing_chunkPut b).trans hw) ?_
    rcases chunkPut_cases n ch b with ⟨hl, e⟩ | ⟨-, -, e⟩ | ⟨hl, -, -, e⟩
    · exact .inl (by rw [e, hl])
    · exact .inl (by rw [e])
    · have hlong := hover.resolve_left (by rw [hl]; decide)
      rw [List.length_cons] at hlong
      exact .inr (by rw [e]; show n < ch.count + 1 + bs.length; omega)

/-! ### A whole chunk, from its start to its end -/

/-- A chunk that fits, with its length byte, is not lost and holds the bytes written. -/
theorem written_fits (bs : List Byte) (hn : n ≤ 256) (h : ch.Inv n) (hclosed : ch.writing = false)
    (hfit : ch.count + bs.length + 1 ≤ n) :
    (chunkPutAll n bs (chunkStart n ch)).wlost = false
      ∧ openContent n (chunkPutAll n bs (chunkStart n ch)) = bs := by
  have hstart := chunkStart_room n ch (by omega : ch.count < n)
  have hlost : (chunkStart n ch).wlost = false := by rw [hstart]
  have hcount : (chunkStart n ch).count = ch.count + 1 := by rw [hstart]
  have hempty : openContent n (chunkStart n ch) = [] := by rw [hstart]; rfl
  obtain ⟨hl, hcontent⟩ :=
    openContent_chunkPutAll bs hn (inv_chunkStart h hclosed) writing_chunkStart hlost (by omega)
  exact ⟨hl, by rw [hcontent, hempty, List.nil_append]⟩

/-- A chunk that does not fit is lost, at its start or at a byte. -/
theorem written_lost (bs : List Byte) (h : ch.Inv n) (hclosed : ch.writing = false)
    (hover : n < ch.count + bs.length + 1) : (chunkPutAll n bs (chunkStart n ch)).wlost = true := by
  refine wlost_chunkPutAll bs (inv_chunkStart h hclosed) writing_chunkStart ?_
  by_cases hc : ch.count < n
  · exact .inr (by rw [chunkStart_room n ch hc]; show n < ch.count + 1 + bs.length; omega)
  · exact .inl (by rw [chunkStart_full n ch hc])

end Sys2Proof.Machine

namespace Sys2Proof.Proofs

open Sys2Proof.Machine

/-- Settles O31: by induction on the bytes, the open chunk holds what was written or is lost, and ending it commits the
content or discards it. -/
theorem chunkCommitsWholeOrNotAtAll : Obligations.ChunkCommitsWholeOrNotAtAll := by
  intro n ch bs hn h hclosed
  have hinv := inv_chunkPutAll bs (inv_chunkStart h hclosed) writing_chunkStart
  have hwriting := (writing_chunkPutAll (n := n) bs).trans (writing_chunkStart (n := n) (ch := ch))
  have hbefore := committed_written bs h hclosed
  refine ⟨fun hfit => ?_, fun hover => ?_⟩
  · obtain ⟨hl, hcontent⟩ := written_fits bs hn h hclosed hfit
    exact ⟨by rw [chunkEndCommits, hl]; rfl, by rw [committed_chunkEnd hinv hwriting hl hn, hbefore, hcontent]⟩
  · have hl := written_lost bs h hclosed hover
    refine ⟨by rw [chunkEndCommits, hl]; rfl, by rw [committed_chunkEnd_lost hl, hbefore], ?_⟩
    rw [chunkEnd_lost n _ hl]
    exact congrArg Prod.snd (afterAbort_written n ch bs)

/-- Settles O19: each primitive case by case; the byte put lies past the stored ones. -/
theorem ringBufferPrimitives : Obligations.RingBufferPrimitives := by
  intro n ch b k
  refine ⟨fun hc hwr => ⟨_, ch.buf.storedAt_write_mod hwr b, rbPut_room n ch b hc⟩, rbPut_full n ch b, ?_, rfl, rfl⟩
  exact fun ch' hplace hk hput => rbPeek_rbPut hplace hk hput

/-- Settles O30: what discarding frees is what opening and appending took, and the reader sees none of it. -/
theorem abortedChunkLeavesNoTrace : Obligations.AbortedChunkLeavesNoTrace := by
  intro n ch bs h hclosed
  have hafter := afterAbort_written n ch bs
  exact ⟨congrArg Prod.snd hafter, congrArg Prod.fst hafter, committed_chunkAbort.trans (committed_written bs h hclosed)⟩

/-- Settles O20: each primitive's cases, by room, by the chunk's length and by whether it is lost. -/
theorem chunkPrimitives : Obligations.ChunkPrimitives := by
  intro n ch b
  exact ⟨chunkStart_stores, chunkStart_full n ch, chunkPut_lost n ch b, chunkPut_loses b, chunkPut_stores b,
    fun hl => ⟨chunkEnd_lost n ch hl, by rw [chunkEndCommits, hl]; rfl⟩,
    fun hl hws => ⟨by rw [chunkEndCommits, hl]; rfl, chunkEnd_stores hl hws⟩, rfl⟩

end Sys2Proof.Proofs
end

section
/-! PROOFS. Each channel as its reader sees it: a queue of whole chunks (40_channel.md R170, 20_memory.md R88, R89). A
unit's frame keeps the other channels' queues; on its own channel only ending a chunk appends one. -/

namespace Sys2Proof.Machine

variable {s t : State} {n : Nat} {a b ch : Channel} {i : Instr} {c : Chan}

/-! ### Queues that stay -/

/-- Every channel shows its reader in `t` what it shows in `s`. -/
def SameQueues (s t : State) : Prop := ∀ c, t.committed c = s.committed c

/-- Every channel but `c` shows its reader in `t` what it shows in `s`. -/
def SameQueuesBut (c : Chan) (s t : State) : Prop := ∀ d, d ≠ c → t.committed d = s.committed d

theorem sameQueues_of_but (hother : SameQueuesBut c s t) (h : t.committed c = s.committed c) : SameQueues s t := by
  intro d
  by_cases hd : d = c
  · rw [hd, h]
  · exact hother d hd

theorem sameQueues_setResult (v : Word) : SameQueues s (s.setResult v) := fun c => by
  rw [State.committed, State.setResult_capacity, State.setResult_chan, State.committed]

theorem sameQueues_recordFault (unit op : Nibble) (cause : FaultCause) : SameQueues s (recordFault unit op cause s) :=
  fun c => by rw [State.committed, recordFault_capacity, recordFault_chan, State.committed]

theorem sameQueues_ctrl (v : Byte) : SameQueues s { s with ctrl := v } := fun c => by cases c <;> rfl

theorem committed_onChan_self (f : Nat → Channel → Channel) :
    (s.onChan c f).committed c = committed (s.capacity c) (f (s.capacity c) (s.chan c)) := by
  rw [State.committed, State.onChan_capacity, State.onChan_self]

theorem sameQueuesBut_onChan (f : Nat → Channel → Channel) : SameQueuesBut c s (s.onChan c f) := fun d hd => by
  rw [State.committed, State.onChan_capacity, State.onChan_ne s c f d hd, State.committed]

/-- An operation on one channel that its reader does not see. -/
theorem sameQueues_onChan {f : Nat → Channel → Channel}
    (h : committed (s.capacity c) (f (s.capacity c) (s.chan c)) = committed (s.capacity c) (s.chan c)) :
    SameQueues s (s.onChan c f) :=
  sameQueues_of_but (sameQueuesBut_onChan f) ((committed_onChan_self f).trans h)

/-! ### The queues that a unit's frame keeps -/

theorem ReceiverFrame.sameQueuesBut (h : ReceiverFrame s t) : SameQueuesBut .ch0 s t := by
  intro d hd
  rw [← h]
  cases d with
  | ch0 => exact absurd rfl hd
  | ch1 => rfl
  | ch2 => rfl

theorem PulseFrame.sameQueuesBut (h : PulseFrame s t) : SameQueuesBut .ch1 s t := by
  intro d hd
  rw [← h]
  cases d with
  | ch0 => rfl
  | ch1 => exact absurd rfl hd
  | ch2 => rfl

theorem EncoderFrame.sameQueuesBut (h : EncoderFrame s t) : SameQueuesBut .ch2 s t := by
  intro d hd
  rw [← h]
  cases d with
  | ch0 => rfl
  | ch1 => rfl
  | ch2 => exact absurd rfl hd

theorem ReceiverFrame.sameQueues (h : ReceiverFrame s t) (hown : t.committed .ch0 = s.committed .ch0) : SameQueues s t :=
  sameQueues_of_but h.sameQueuesBut hown

theorem EncoderFrame.sameQueues (h : EncoderFrame s t) (hown : t.committed .ch2 = s.committed .ch2) : SameQueues s t :=
  sameQueues_of_but h.sameQueuesBut hown

theorem DecoderFrame.sameQueues (h : DecoderFrame s t) : SameQueues s t := by
  intro d
  rw [← h]
  cases d <;> rfl

/-! ### What the writer's operations do to the queue -/

/-- `b` shows its reader the chunks of `a`, or these and one more. -/
def AppendsAtMostOne (n : Nat) (a b : Channel) : Prop :=
  committed n b = committed n a ∨ ∃ chunk, committed n b = committed n a ++ [chunk]

/-- Closing a chunk appends its content, or nothing when it is lost or discarded (40_channel.md R156, R157). -/
theorem appendsAtMostOne_chunkClose (keep : Bool) (hsame : committed n ch = committed n a) (h : ch.Inv n)
    (hw : ch.writing = true) (hn : n ≤ 256) : AppendsAtMostOne n a (chunkClose keep n ch) := by
  rw [AppendsAtMostOne, ← hsame]
  cases keep with
  | false => exact .inl committed_chunkAbort
  | true =>
    cases hl : ch.wlost with
    | true => exact .inl (committed_chunkEnd_lost hl)
    | false => exact .inr ⟨_, committed_chunkEnd h hw hl hn⟩

/-! ### What a command may do to the queues -/

/-- The commands that can commit a chunk on a channel are its own writer's (10_state.md R40). -/
def MayCommit (i : Instr) (c : Chan) : Prop :=
  (c = .ch0 ∧ ∃ b, i = .rxByte b) ∨ (c = .ch1 ∧ ∃ h d, i = .pulse h d)
    ∨ (c = .ch2 ∧ (i = .chWriteEnd .ch2 ∨ i = .encEnd))

/-- Each channel's queue stays, loses its oldest chunk to `CH_READ_END`, or gains one chunk from its writer. -/
def QueueStep (i : Instr) (s t : State) : Prop :=
  ∀ c, t.committed c = s.committed c
    ∨ (t.committed c = (s.committed c).tail ∧ i = .chReadEnd c)
    ∨ (∃ chunk, t.committed c = s.committed c ++ [chunk] ∧ MayCommit i c)

theorem SameQueues.queueStep (h : SameQueues s t) : QueueStep i s t := fun c => .inl (h c)

theorem queueStep_removes (hother : SameQueuesBut c s t) (h : t.committed c = (s.committed c).tail) :
    QueueStep (.chReadEnd c) s t := by
  intro d
  by_cases hd : d = c
  · rw [hd]
    exact .inr (.inl ⟨h, rfl⟩)
  · exact .inl (hother d hd)

theorem queueStep_appends (hmay : MayCommit i c) (hother : SameQueuesBut c s t)
    (h : t.committed c = s.committed c ∨ ∃ chunk, t.committed c = s.committed c ++ [chunk]) : QueueStep i s t := by
  intro d
  by_cases hd : d = c
  · rw [hd]
    exact h.imp_right fun ⟨chunk, e⟩ => .inr ⟨chunk, e, hmay⟩
  · exact .inl (hother d hd)

/-- The answered state's queues are those of `s` after the command `i`. -/
abbrev AnswersQueue (i : Instr) (s : State) : Outcome → Prop := Answers (QueueStep i s)

theorem answersQueue_raiseFault (j : Instr) (cause : FaultCause) : AnswersQueue i s (raiseFault j cause s) :=
  answers_next (sameQueues_recordFault _ _ _).queueStep

theorem answersQueue_guard {p : Prop} [Decidable p] {j : Instr} {cause : FaultCause} {o : Outcome}
    (h : ¬p → AnswersQueue i s o) : AnswersQueue i s (if p then raiseFault j cause s else o) :=
  answers_guard (fun _ _ _ => (sameQueues_recordFault _ _ _).queueStep) h

theorem answersQueue_reply (v : Word) : AnswersQueue i s (.next (s.setResult v)) :=
  answers_next (sameQueues_setResult v).queueStep

/-- An operation on one channel that its reader does not see, with a reply or without. -/
theorem answersQueue_onChan {f : Nat → Channel → Channel}
    (h : committed (s.capacity c) (f (s.capacity c) (s.chan c)) = committed (s.capacity c) (s.chan c)) :
    AnswersQueue i s (.next (s.onChan c f)) :=
  answers_next (sameQueues_onChan h).queueStep

theorem answersQueue_onChan_reply {f : Nat → Channel → Channel} (v : Word)
    (h : committed (s.capacity c) (f (s.capacity c) (s.chan c)) = committed (s.capacity c) (s.chan c)) :
    AnswersQueue i s (.next ((s.onChan c f).setResult v)) :=
  answers_next (SameQueues.queueStep fun d => (sameQueues_setResult v d).trans (sameQueues_onChan h d))

/-! ### Channel commands -/

theorem answersQueue_execChWriteStart (h : s.Inv) : AnswersQueue i s (execChWriteStart c s) :=
  answersQueue_guard fun _ => answersQueue_guard fun _ => answersQueue_onChan (committed_chunkStart (h.channels c))

theorem answersQueue_execChWrite (h : s.Inv) (b : Byte) : AnswersQueue i s (execChWrite c b s) :=
  answersQueue_guard fun _ => answersQueue_guard fun _ => answersQueue_onChan (committed_chunkPut b (h.channels c))

theorem answersQueue_execChWriteEnd (h : s.Inv) : AnswersQueue (.chWriteEnd c) s (execChWriteEnd c s) :=
  answersQueue_guard fun hown => answersQueue_guard fun hw => by
    obtain ⟨rfl, -⟩ := ch2_of_not_owned hown
    exact answers_next (queueStep_appends (.inr (.inr ⟨rfl, .inl rfl⟩)) (EncoderFrame.sameQueuesBut rfl)
      (appendsAtMostOne_chunkClose true rfl (h.channels .ch2) (by simpa using hw) (capacity_range h.config .ch2).2))

theorem answersQueue_execChWriteAbort : AnswersQueue i s (execChWriteAbort c s) :=
  answersQueue_guard fun _ => answersQueue_guard fun _ => answersQueue_onChan committed_chunkAbort

theorem answersQueue_execChReadStart : AnswersQueue i s (execChReadStart c s) :=
  answersQueue_guard fun _ => answersQueue_guard fun _ => answersQueue_onChan_reply _ committed_readStart

theorem answersQueue_execChRead : AnswersQueue i s (execChRead c s) :=
  answersQueue_guard fun _ => answersQueue_guard fun _ =>
    answersQueue_onChan_reply _ (committed_congr rfl fun _ _ => rfl)

theorem answersQueue_execChPeek (k : Byte) : AnswersQueue i s (execChPeek c k s) :=
  answersQueue_guard fun _ => answersQueue_guard fun _ => answersQueue_reply _

/-- The chunk open for reading is the oldest (20_memory.md R89). -/
theorem answersQueue_execChReadEnd (h : s.Inv) : AnswersQueue (.chReadEnd c) s (execChReadEnd c s) :=
  answersQueue_guard fun hopen => by
    have hclose := (decoderFrame_closeDecode (s := s.onChan c readEnd) c).sameQueues
    refine answers_next (queueStep_removes (fun d hd => (hclose d).trans (sameQueuesBut_onChan _ d hd)) ?_)
    rw [hclose, committed_onChan_self]
    exact committed_readEnd (h.channels c) (by simpa using hopen)

/-! ### The CRC receiver -/

/-- A new frame discards an unterminated one and shows the reader nothing (41_crc_receiver.md R204). -/
theorem answersQueue_execRxStart (h : s.Inv) (b : Byte) : AnswersQueue i s (execRxStart b s) := by
  have hch := h.channels .ch0
  have hopened {ch : Channel} (hinv : ch.Inv s.cfg.n0) (hclosed : ch.writing = false) :
      committed s.cfg.n0 (chunkPut s.cfg.n0 b (chunkStart s.cfg.n0 ch)) = committed s.cfg.n0 ch :=
    committed_written [b] hinv hclosed
  unfold execRxStart
  by_cases hidle : s.rxState = .idle
  · have hclosed : s.ch0.writing = false := by simpa [hidle] using h.rxWriting
    rw [rxAbandon_idle hidle]
    exact answers_next (SameQueues.queueStep (ReceiverFrame.sameQueues rfl (hopened hch hclosed)))
  · have habort := inv_chunkAbort hch (h.rxWriting.2 hidle)
    rw [rxAbandon_busy hidle]
    exact answers_next (SameQueues.queueStep (ReceiverFrame.sameQueues rfl
      ((hopened habort rfl).trans committed_chunkAbort)))

/-- Only the frame's last byte can commit its chunk (41_crc_receiver.md R203, R205). -/
theorem appendsAtMostOne_rxDataByte (h : s.Inv) (b : Byte) (hst : s.rxState = .data) :
    AppendsAtMostOne s.cfg.n0 s.ch0 (rxDataByte b s).ch0 := by
  have hch := h.channels .ch0
  by_cases h1 : s.rxRem = 1
  · rw [rxDataByte_last b h1]
    exact appendsAtMostOne_chunkClose _ rfl hch (h.rxWriting.2 (by simp [hst])) (capacity_range h.config .ch0).2
  · by_cases h2 : 2 < s.rxRem
    · rw [rxDataByte_payload b h2]
      exact .inl (committed_chunkPut b hch)
    · rw [rxDataByte_crc b h2 h1]
      exact .inl rfl

theorem answersQueue_execRxByte (h : s.Inv) (b : Byte) : AnswersQueue (.rxByte b) s (execRxByte b s) := by
  unfold execRxByte
  split
  case h_1 => exact answers_next (SameQueues.queueStep fun _ => rfl)
  case h_2 => exact answers_next (SameQueues.queueStep (ReceiverFrame.sameQueues rfl rfl))
  case h_3 hst =>
    have hframe := receiverFrame_rxDataByte (s := s) b
    have hcfg : (rxDataByte b s).cfg = s.cfg := by rw [← hframe]
    refine answers_next (queueStep_appends (.inl ⟨rfl, b, rfl⟩) hframe.sameQueuesBut ?_)
    simp only [State.committed, State.capacity, State.chan_ch0, hcfg]
    exact appendsAtMostOne_rxDataByte h b hst

/-! ### The pulse decoder -/

/-- Everything one pulse does to the decoder's channel, by the phase before it (42_pulse_decoder.md R236, R241 to
R246). -/
inductive PulseStep (n : Nat) (ch : Channel) : PdPhase → Channel → Prop
  | keep (phase : PdPhase) : PulseStep n ch phase ch
  | start : PulseStep n ch .hunt (chunkStart n ch)
  | abort : PulseStep n ch .data (chunkAbort ch)
  | put (v : Byte) : PulseStep n ch .data (chunkPut n v ch)
  | close (v : Byte) (keep : Bool) : PulseStep n ch .data (chunkClose keep n (chunkPut n v ch))

/-- From `s` to `t` the decoder's channel takes a `PulseStep`. -/
def StepsPulse (s t : State) : Prop := PulseStep s.cfg.n1 s.ch1 s.pdPhase t.ch1

theorem stepsPulse_keep (h : t.ch1 = s.ch1) : StepsPulse s t := by
  rw [StepsPulse, h]
  exact .keep _

theorem stepsPulse_pdResync : StepsPulse s (pdResync s) := by
  cases hphase : s.pdPhase with
  | hunt => rw [pdResync_hunt s hphase]; exact stepsPulse_keep rfl
  | data =>
    rw [pdResync_data s hphase, StepsPulse, hphase]
    exact .abort

theorem stepsPulse_pdAccept (v : Byte) (hphase : s.pdPhase = .data) : StepsPulse s (pdAccept v s) := by
  by_cases hlast : s.pdCount + 1 = pdExpectAfter v s
  · rw [pdAccept_last v hlast, StepsPulse, hphase]
    exact .close v (pdChecks v s)
  · rw [pdAccept_more v hlast, StepsPulse, hphase]
    exact .put v

theorem stepsPulse_pdByte (hphase : s.pdPhase = .data) : StepsPulse s (pdByte s) := by
  rcases pdByte_cases (s := s) with e | ⟨v, e⟩ <;> rw [e]
  · exact stepsPulse_pdResync (s := pdTaken s)
  · exact stepsPulse_pdAccept (s := pdTaken s) v hphase

theorem stepsPulse_pdBitHunt (b : Bool) (hphase : s.pdPhase = .hunt) : StepsPulse s (pdBitHunt b s) := by
  refine satisfies_ite (fun _ => stepsPulse_keep rfl) (fun _ => ?_)
  refine satisfies_ite (fun _ => ?_) (fun _ => stepsPulse_keep rfl)
  rw [StepsPulse, hphase]
  exact .start

theorem stepsPulse_pdBitData (b : Bool) (hphase : s.pdPhase = .data) : StepsPulse s (pdBitData b s) := by
  by_cases hninth : s.pdBits + 1 = 9
  · rw [pdBitData_ninth b hninth]
    exact stepsPulse_pdByte (s := pdShifted b s) hphase
  · rw [pdBitData_more b hninth]
    exact stepsPulse_keep rfl

theorem stepsPulse_pdBit (b : Bool) : StepsPulse s (pdBit b s) := by
  unfold pdBit
  split
  · exact stepsPulse_pdBitHunt b ‹_›
  · exact stepsPulse_pdBitData b ‹_›

theorem stepsPulse_pdHigh (k : PulseClass) : StepsPulse s (pdHigh k s) := by
  have hsync : StepsPulse s (if s.pdPend ≠ none then pdResync s else s) :=
    satisfies_ite (fun _ => stepsPulse_pdResync) (fun _ => stepsPulse_keep rfl)
  exact hsync

theorem stepsPulse_pdLow (k : PulseClass) : StepsPulse s (pdLow k s) := by
  unfold pdLow
  split
  · exact satisfies_ite (fun _ => stepsPulse_pdResync) (fun _ => stepsPulse_keep rfl)
  · exact satisfies_ite (fun _ => stepsPulse_pdResync)
      (fun _ => stepsPulse_pdBit (s := { s with pdPend := none }) _)

theorem stepsPulse_pdEvent (isHigh : Bool) (d : Half) : StepsPulse s (pdEvent isHigh d s) := by
  refine satisfies_ite (fun _ => stepsPulse_pdResync) (fun _ => ?_)
  split
  · exact stepsPulse_pdResync
  · exact satisfies_ite (fun _ => stepsPulse_pdHigh _) (fun _ => stepsPulse_pdLow _)

/-- Only a packet's last byte can commit its chunk (42_pulse_decoder.md R246, R255). -/
theorem PulseStep.appendsAtMostOne {phase : PdPhase} (hstep : PulseStep n a phase b) (h : a.Inv n) (hn : n ≤ 256)
    (hw : phase = .data → a.writing = true) : AppendsAtMostOne n a b := by
  cases hstep with
  | keep => exact .inl rfl
  | start => exact .inl (committed_chunkStart h)
  | abort => exact .inl committed_chunkAbort
  | put v => exact .inl (committed_chunkPut v h)
  | close v keep =>
    exact appendsAtMostOne_chunkClose keep (committed_chunkPut v h) (inv_chunkPut v h (hw rfl))
      ((writing_chunkPut v).trans (hw rfl)) hn

theorem answersQueue_execPulse (h : s.Inv) (isHigh : Bool) (d : Half) :
    AnswersQueue (.pulse isHigh d) s (execPulse isHigh d s) := by
  have hframe := pulseFrame_pdEvent (s := s) isHigh d
  have hcfg : (pdEvent isHigh d s).cfg = s.cfg := by rw [← hframe]; rfl
  refine answers_next (queueStep_appends (.inr (.inl ⟨rfl, isHigh, d, rfl⟩)) hframe.sameQueuesBut ?_)
  simp only [State.committed, State.capacity, State.chan_ch1, hcfg]
  exact (stepsPulse_pdEvent isHigh d).appendsAtMostOne (h.channels .ch1) (capacity_range h.config .ch1).2
    h.pdWriting.2

/-! ### The wire encoder -/

theorem answersQueue_execEncBegin (h : s.Inv) : AnswersQueue i s (execEncBegin s) :=
  answersQueue_guard fun _ => answersQueue_guard fun _ =>
    answers_next (SameQueues.queueStep (EncoderFrame.sameQueues rfl (committed_chunkStart (h.channels .ch2))))

/-- A field command past its operand check. -/
theorem answersQueue_encField (h : s.Inv) (j : Instr) (bs : List Byte) :
    AnswersQueue i s (if !s.encOpen then raiseFault j .encNotOpen s else .next (encPut bs s)) :=
  answersQueue_guard fun hopen => by
    obtain ⟨hw, -⟩ := h.encWriting (by simpa using hopen)
    exact answers_next (SameQueues.queueStep
      (EncoderFrame.sameQueues rfl (committed_chunkPutAll bs (h.channels .ch2) hw)))

theorem answersQueue_execEncFixed (h : s.Inv) (w : Byte) (v : Word) : AnswersQueue i s (execEncFixed w v s) := by
  unfold execEncFixed
  split
  · exact answersQueue_raiseFault _ _
  · exact answersQueue_encField h _ _

theorem answersQueue_execEncEnd (h : s.Inv) : AnswersQueue .encEnd s (execEncEnd s) :=
  answersQueue_guard fun hopen => by
    obtain ⟨hw, -⟩ := h.encWriting (by simpa using hopen)
    rw [onChan_chunkClose]
    exact answers_next (queueStep_appends (.inr (.inr ⟨rfl, .inr rfl⟩)) (EncoderFrame.sameQueuesBut rfl)
      (appendsAtMostOne_chunkClose _ rfl (h.channels .ch2) hw (capacity_range h.config .ch2).2))

/-! ### The wire decoder -/

/-- The decoder never changes a channel (44_wire_decoder.md R310). -/
theorem answersQueue_decoder (h : DecoderFrame s t) : AnswersQueue i s (.next t) := answers_next h.sameQueues.queueStep

theorem answersQueue_execDecBegin (ch : BitVec 2) : AnswersQueue i s (execDecBegin ch s) := by
  unfold execDecBegin
  split
  · exact answersQueue_raiseFault _ _
  · exact answersQueue_guard fun _ => answersQueue_decoder rfl

theorem answersQueue_execDecFixed (w : Byte) : AnswersQueue i s (execDecFixed w s) := by
  unfold execDecFixed
  split
  · exact answersQueue_raiseFault _ _
  · refine answersQueue_guard fun _ => ?_
    split
    · exact answersQueue_decoder rfl
    · exact answersQueue_decoder rfl

theorem answersQueue_execDecVarint : AnswersQueue i s (execDecVarint s) := by
  refine answersQueue_guard fun _ => ?_
  split
  · exact answersQueue_decoder rfl
  · split
    · exact answersQueue_decoder rfl
    · exact answersQueue_decoder rfl

/-! ### Every command -/

/-- Every command, from every state with the invariant, treats each channel as a queue of whole chunks. -/
theorem exec_answersQueue (i : Instr) (h : s.Inv) : AnswersQueue i s (exec i s) := by
  cases i with
  | chWriteStart c => exact answersQueue_execChWriteStart h
  | chWrite c b => exact answersQueue_execChWrite h b
  | chWriteEnd c => exact answersQueue_execChWriteEnd h
  | chWriteAbort c => exact answersQueue_execChWriteAbort
  | chHasContent c => exact answersQueue_reply _
  | chReadStart c => exact answersQueue_execChReadStart
  | chRead c => exact answersQueue_execChRead
  | chPeek c k => exact answersQueue_execChPeek k
  | chReadEnd c => exact answersQueue_execChReadEnd h
  | chAvail c => exact answersQueue_reply _
  | chIsWriting c => exact answersQueue_reply _
  | rxStart b => exact answersQueue_execRxStart h b
  | rxByte b => exact answersQueue_execRxByte h b
  | rxIsWriting => exact answersQueue_reply _
  | pulse isHigh d => exact answersQueue_execPulse h isHigh d
  | pdStatus => exact answersQueue_reply _
  | encBegin => exact answersQueue_execEncBegin h
  | encFixed w v => exact answersQueue_execEncFixed h w v
  | encVarint v => exact answersQueue_encField h _ _
  | encTvarint tag v => exact answersQueue_guard fun _ => answersQueue_encField h _ _
  | encTfixed32 tag v => exact answersQueue_guard fun _ => answersQueue_encField h _ _
  | encEnd => exact answersQueue_execEncEnd h
  | encStatus => exact answersQueue_reply _
  | decBegin ch => exact answersQueue_execDecBegin ch
  | decFixed w => exact answersQueue_execDecFixed w
  | decVarint => exact answersQueue_execDecVarint
  | decRemain => exact answersQueue_guard fun _ => answersQueue_reply _
  | decStatus => exact answersQueue_reply _
  | nop => exact answersQueue_decoder rfl
  | ctrlRead => exact answersQueue_reply _
  | ctrlWrite v => exact answers_next (sameQueues_ctrl _).queueStep
  | faultRead => exact answersQueue_reply _

end Sys2Proof.Machine

namespace Sys2Proof.Proofs

open Sys2Proof.Machine

/-- Settles O32: unit by unit, a command keeps the queues of the channels outside its frame, and on its own channel only
releasing and committing a chunk are seen by the reader. -/
theorem channelsAreQueuesOfChunks : Obligations.ChannelsAreQueuesOfChunks := by
  intro i s t c h hexec
  exact (exec_answersQueue i h).of_next hexec c

end Sys2Proof.Proofs
end

section
/-! PROOFS. The channel commands case by case (40_channel.md R158 to R168): one equation per check and per outcome, in the
order of each rule's checks. What an operation stores is said by the chunk primitives' own lemmas. -/

namespace Sys2Proof.Machine

variable {s : State} {c : Chan} {b : Byte}

/-! ### The host's writer (40_channel.md R158 to R161) -/

theorem owned_of_unit (s : State) (h : c = .ch0 ∨ c = .ch1) : owned s c = true := by
  rcases h with rfl | rfl <;> rfl

/-- The host writes CH2 while no message is open (10_state.md R40). -/
theorem not_owned_ch2 (h : s.encOpen = false) : ¬owned s .ch2 = true := by rw [owned, h]; decide

theorem exec_chWriteStart_owned (h : owned s c = true) :
    exec (.chWriteStart c) s = .next (recordFault (chanUnit c) 0x0 .channelOwned s) := if_pos h

theorem exec_chWriteStart_nested (hown : ¬owned s c = true) (hw : (s.chan c).writing = true) :
    exec (.chWriteStart c) s = .next (recordFault (chanUnit c) 0x0 .nestedWriteStart s) :=
  (if_neg hown).trans (if_pos hw)

theorem exec_chWriteStart_opens (hown : ¬owned s c = true) (hw : (s.chan c).writing = false) :
    exec (.chWriteStart c) s = .next (s.onChan c chunkStart) :=
  (if_neg hown).trans (if_neg (by rw [hw]; decide))

theorem exec_chWrite_owned (h : owned s c = true) :
    exec (.chWrite c b) s = .next (recordFault (chanUnit c) 0x1 .channelOwned s) := if_pos h

theorem exec_chWrite_closed (hown : ¬owned s c = true) (hw : (s.chan c).writing = false) :
    exec (.chWrite c b) s = .next (recordFault (chanUnit c) 0x1 .noOpenChunk s) :=
  (if_neg hown).trans (if_pos (by rw [hw]; rfl))

theorem exec_chWrite_open (hown : ¬owned s c = true) (hw : (s.chan c).writing = true) :
    exec (.chWrite c b) s = .next (s.onChan c (fun n => chunkPut n b)) :=
  (if_neg hown).trans (if_neg (by rw [hw]; decide))

theorem exec_chWriteEnd_owned (h : owned s c = true) :
    exec (.chWriteEnd c) s = .next (recordFault (chanUnit c) 0x2 .channelOwned s) := if_pos h

theorem exec_chWriteEnd_closed (hown : ¬owned s c = true) (hw : (s.chan c).writing = false) :
    exec (.chWriteEnd c) s = .next (recordFault (chanUnit c) 0x2 .noOpenChunk s) :=
  (if_neg hown).trans (if_pos (by rw [hw]; rfl))

theorem exec_chWriteEnd_open (hown : ¬owned s c = true) (hw : (s.chan c).writing = true) :
    exec (.chWriteEnd c) s = .next ((s.onChan c chunkEnd).setResult (boolWord (chunkEndCommits (s.chan c)))) :=
  (if_neg hown).trans (if_neg (by rw [hw]; decide))

theorem exec_chWriteAbort_owned (h : owned s c = true) :
    exec (.chWriteAbort c) s = .next (recordFault (chanUnit c) 0x3 .channelOwned s) := if_pos h

theorem exec_chWriteAbort_closed (hown : ¬owned s c = true) (hw : (s.chan c).writing = false) :
    exec (.chWriteAbort c) s = .next (recordFault (chanUnit c) 0x3 .noOpenChunk s) :=
  (if_neg hown).trans (if_pos (by rw [hw]; rfl))

theorem exec_chWriteAbort_open (hown : ¬owned s c = true) (hw : (s.chan c).writing = true) :
    exec (.chWriteAbort c) s = .next (s.onChan c (fun _ => chunkAbort)) :=
  (if_neg hown).trans (if_neg (by rw [hw]; decide))

/-- An operation on CH2 by what it makes of the channel. -/
theorem onChan_ch2_eq {f : Nat → Channel → Channel} {ch : Channel} (h : f s.cfg.n2 s.ch2 = ch) :
    s.onChan .ch2 f = { s with ch2 := ch } := congrArg (fun ch => { s with ch2 := ch }) h

/-! ### The reader (40_channel.md R163 to R166) -/

theorem exec_chReadStart_open (h : (s.chan c).ropen = true) :
    exec (.chReadStart c) s = .next (recordFault (chanUnit c) 0x5 .readAlreadyOpen s) := if_pos h

theorem exec_chReadStart_empty (hclosed : (s.chan c).ropen = false) (hn : (s.chan c).nchunks = 0) :
    exec (.chReadStart c) s = .next (recordFault (chanUnit c) 0x5 .readEmpty s) :=
  (if_neg (by rw [hclosed]; decide)).trans (if_pos hn)

theorem exec_chRead_closed (hclosed : (s.chan c).ropen = false) :
    exec (.chRead c) s = .next (recordFault (chanUnit c) 0x6 .readNotOpen s) := if_pos (by rw [hclosed]; rfl)

theorem exec_chRead_past (hopen : (s.chan c).ropen = true) (hpos : (s.chan c).rpos = (s.chan c).rlen) :
    exec (.chRead c) s = .next (recordFault (chanUnit c) 0x6 .readPastEnd s) :=
  (if_neg (by rw [hopen]; decide)).trans (if_pos hpos)

theorem exec_chReadEnd_closed (hclosed : (s.chan c).ropen = false) :
    exec (.chReadEnd c) s = .next (recordFault (chanUnit c) 0x8 .readNotOpen s) := if_pos (by rw [hclosed]; rfl)

theorem exec_chReadEnd_open (hopen : (s.chan c).ropen = true) :
    exec (.chReadEnd c) s = .next (closeDecode c (s.onChan c readEnd)) := if_neg (by rw [hopen]; decide)

/-- A decode is open after a release only on another channel (40_channel.md R166). -/
theorem closeDecode_eq (c : Chan) (s : State) :
    closeDecode c s = { s with decOpen := if s.decCh = c then false else s.decOpen } := by
  cases hopen : s.decOpen with
  | false =>
    rw [ite_self, ← hopen]
    exact if_neg (by simp [hopen])
  | true =>
    by_cases hc : s.decCh = c
    · rw [if_pos hc]
      exact if_pos (by simp [hopen, hc])
    · rw [if_neg hc, ← hopen]
      exact if_neg (by simp [hc])

end Sys2Proof.Machine

namespace Sys2Proof.Proofs

open Sys2Proof.Machine

/-- Settles O21: by owner, by open chunk, then by the room for the length byte. -/
theorem chWriteStartOpensChunk : Obligations.ChWriteStartOpensChunk := by
  intro s
  refine ⟨fun c imm data => decode_row (.chWriteStart c) imm data,
    fun c hc => exec_chWriteStart_owned (owned_of_unit s hc), fun hopen => exec_chWriteStart_owned (c := .ch2) hopen,
    fun hown hw => exec_chWriteStart_nested (not_owned_ch2 hown) hw, fun hown hw hc hwr => ?_, fun hown hw hc => ?_⟩
  · obtain ⟨buf, hbuf, e⟩ := chunkStart_stores hc hwr
    exact ⟨buf, hbuf, by rw [exec_chWriteStart_opens (not_owned_ch2 hown) hw, onChan_ch2_eq e]⟩
  · rw [exec_chWriteStart_opens (not_owned_ch2 hown) hw, onChan_ch2_eq (chunkStart_full _ _ hc)]

/-- Settles O22: by owner, by open chunk, then by what `ChunkPut` makes of the byte. -/
theorem chWriteAppendsByte : Obligations.ChWriteAppendsByte := by
  intro s b
  refine ⟨fun c data => decode_row (.chWrite c 0) b data, fun c hc => exec_chWrite_owned (owned_of_unit s hc),
    fun hopen => exec_chWrite_owned (c := .ch2) hopen, fun hown hw => exec_chWrite_closed (not_owned_ch2 hown) hw,
    fun hown hw hl => ?_, fun hown hw hl hfull => ?_, fun hown hw hl hlen hc hwr => ?_⟩
  · rw [exec_chWrite_open (not_owned_ch2 hown) hw, onChan_ch2_eq (chunkPut_lost _ _ b hl)]
  · rw [exec_chWrite_open (not_owned_ch2 hown) hw, onChan_ch2_eq (chunkPut_loses b hl hfull)]
  · obtain ⟨buf, hbuf, e⟩ := chunkPut_stores b hl hlen hc hwr
    exact ⟨buf, hbuf, by rw [exec_chWrite_open (not_owned_ch2 hown) hw, onChan_ch2_eq e]⟩

/-- Settles O23: by owner, by open chunk, then by whether the chunk is lost, which `RESULT` tells. -/
theorem chWriteEndCommits : Obligations.ChWriteEndCommits := by
  intro s
  refine ⟨fun c imm data => decode_row (.chWriteEnd c) imm data, fun c hc => exec_chWriteEnd_owned (owned_of_unit s hc),
    fun hopen => exec_chWriteEnd_owned (c := .ch2) hopen, fun hown hw => exec_chWriteEnd_closed (not_owned_ch2 hown) hw,
    fun hown hw hl => ?_, fun hown hw hl hws => ?_⟩
  · have hreply : boolWord (chunkEndCommits (s.chan .ch2)) = 0 := by rw [chunkEndCommits, State.chan_ch2, hl]; rfl
    rw [exec_chWriteEnd_open (not_owned_ch2 hown) hw, hreply, onChan_ch2_eq (chunkEnd_lost _ _ hl)]
    rfl
  · have hreply : boolWord (chunkEndCommits (s.chan .ch2)) = 1 := by rw [chunkEndCommits, State.chan_ch2, hl]; rfl
    obtain ⟨buf, hbuf, e⟩ := chunkEnd_stores hl hws
    exact ⟨buf, hbuf, by rw [exec_chWriteEnd_open (not_owned_ch2 hown) hw, hreply, onChan_ch2_eq e]; rfl⟩

/-- Settles O24: by owner, then by open chunk; discarding does not ask whether the chunk is lost. -/
theorem chWriteAbortDiscards : Obligations.ChWriteAbortDiscards := by
  intro s
  exact ⟨fun c imm data => decode_row (.chWriteAbort c) imm data,
    fun c hc => exec_chWriteAbort_owned (owned_of_unit s hc), fun hopen => exec_chWriteAbort_owned (c := .ch2) hopen,
    fun hown hw => exec_chWriteAbort_closed (not_owned_ch2 hown) hw,
    fun hown hw => exec_chWriteAbort_open (not_owned_ch2 hown) hw⟩

/-- Settles O25: the three replies are computed from the channel's counters, in every state. -/
theorem channelQueriesAnswer : Obligations.ChannelQueriesAnswer := by
  intro s c
  have hcontent : boolWord (decide ((s.chan c).nchunks > 0)) = if 0 < (s.chan c).nchunks then 1 else 0 := by
    simp only [boolWord, decide_eq_true_eq]
  exact ⟨fun imm data => ⟨decode_row (.chHasContent c) imm data, decode_row (.chAvail c) imm data,
    decode_row (.chIsWriting c) imm data⟩, congrArg (fun v => Host.Outcome.next (s.setResult v)) hcontent, rfl, rfl⟩

/-- Settles O26: by open read chunk, then by whether a committed chunk is held. -/
theorem chReadStartOpensOldest : Obligations.ChReadStartOpensOldest := by
  intro s c
  exact ⟨fun imm data => decode_row (.chReadStart c) imm data, exec_chReadStart_open, exec_chReadStart_empty,
    exec_chReadStart_opens⟩

/-- Settles O27: by open read chunk, then by whether its end is reached. -/
theorem chReadReturnsNextByte : Obligations.ChReadReturnsNextByte := by
  intro s c
  exact ⟨fun imm data => decode_row (.chRead c) imm data, exec_chRead_closed, exec_chRead_past, exec_chRead_byte⟩

/-- Settles O28: by open read chunk, then by whether the offset lies in the chunk. -/
theorem chPeekReturnsContentByte : Obligations.ChPeekReturnsContentByte := by
  intro s c k
  exact ⟨fun data => decode_row (.chPeek c 0) k data, exec_chPeek_closed, exec_chPeek_past, exec_chPeek_byte⟩

/-- Settles O29: by open read chunk; the release is `readEnd`, and a decode on the channel is closed. -/
theorem chReadEndReleases : Obligations.ChReadEndReleases := by
  intro s c
  refine ⟨fun imm data => decode_row (.chReadEnd c) imm data, exec_chReadEnd_closed, fun hopen => ?_⟩
  rw [exec_chReadEnd_open hopen, closeDecode_eq]
  cases c <;> rfl

end Sys2Proof.Proofs
end

section
/-! PROOFS. Runs of several commands, and a whole frame through the CRC receiver (41_crc_receiver.md R200 to R211). One
equation per case of `RX_START` and `RX_BYTE`; a frame's commands then amount to one chunk of CH0, written whole and
closed by the commit condition. -/

namespace Sys2Proof.Machine

/-! ### Runs (00_scope.md R21) -/

section

variable {s t : State} {i : Instr}

theorem execAll_cons (h : exec i s = .next t) (is : List Instr) : execAll (i :: is) s = execAll is t := by
  simp only [execAll, h]

theorem execAll_append {is : List Instr} (h : execAll is s = .next t) (js : List Instr) :
    execAll (is ++ js) s = execAll js t := by
  induction is generalizing s with
  | nil => cases h; rfl
  | cons i is ih =>
    obtain ⟨u, hu, -⟩ := exec_keepsPort i s
    rw [execAll_cons hu] at h
    rw [List.cons_append, execAll_cons hu, ih h]

end

variable {s : State}

/-! ### `RX_START` (41_crc_receiver.md R204) -/

/-- CH0 without the chunk of an unterminated frame (41_crc_receiver.md R204). -/
def rxFreed (s : State) : Channel := if s.rxState = .idle then s.ch0 else chunkAbort s.ch0

theorem rxAbandon_eq (s : State) : rxAbandon s = { s with ch0 := rxFreed s } := by
  by_cases hidle : s.rxState = .idle
  · rw [rxAbandon_idle hidle, rxFreed, if_pos hidle]
  · rw [rxAbandon_busy hidle, rxFreed, if_neg hidle]
    rfl

theorem exec_rxStart (h : Byte) (s : State) :
    exec (.rxStart h) s
      = .next { s with
          ch0 := chunkPutAll s.cfg.n0 [h] (chunkStart s.cfg.n0 (rxFreed s))
          rxCrc := crcFold s.cfg.crcPoly s.cfg.crcInit [s.cfg.groupId, h]
          rxRem := 0
          rxState := .length } := by
  show execRxStart h s = _
  rw [execRxStart, rxAbandon_eq]
  rfl

/-- A chunk is open on CH0 exactly while a frame is in progress (41_crc_receiver.md R210), so none is left open. -/
theorem State.Inv.writing_rxFreed (hs : s.Inv) : (rxFreed s).writing = false := by
  by_cases hidle : s.rxState = .idle
  · rw [rxFreed, if_pos hidle]
    simpa [hidle] using hs.rxWriting
  · rw [rxFreed, if_neg hidle]
    rfl

theorem State.Inv.inv_rxFreed (hs : s.Inv) : (rxFreed s).Inv s.cfg.n0 := by
  unfold rxFreed
  split
  · exact hs.channels .ch0
  · exact inv_chunkAbort (hs.channels .ch0) (hs.rxWriting.2 ‹_›)

theorem committed_rxFreed (s : State) : committed s.cfg.n0 (rxFreed s) = s.committed .ch0 := by
  unfold rxFreed
  split
  · rfl
  · exact committed_chunkAbort

/-! ### `RX_BYTE` in each state of the receiver (41_crc_receiver.md R205) -/

theorem exec_rxByte_idle (b : Byte) (hst : s.rxState = .idle) : exec (.rxByte b) s = .next s := by
  simp only [exec, execRxByte, hst]

theorem exec_rxByte_length (b : Byte) (hst : s.rxState = .length) : exec (.rxByte b) s = .next (rxLengthByte b s) := by
  simp only [exec, execRxByte, hst]

theorem exec_rxByte_data (b : Byte) (hst : s.rxState = .data) : exec (.rxByte b) s = .next (rxDataByte b s) := by
  simp only [exec, execRxByte, hst]

theorem exec_rxByte_payload (b : Byte) (hst : s.rxState = .data) (hrem : 2 < s.rxRem) :
    exec (.rxByte b) s
      = .next { s with ch0 := chunkPut s.cfg.n0 b s.ch0, rxCrc := rxFolded b s, rxRem := s.rxRem - 1 } := by
  rw [exec_rxByte_data b hst, rxDataByte_payload b hrem]
  rfl

theorem exec_rxByte_crcLow (b : Byte) (hst : s.rxState = .data) (hrem : s.rxRem = 2) :
    exec (.rxByte b) s = .next { s with rxCrc := rxFolded b s, rxRem := 1 } := by
  rw [exec_rxByte_data b hst, rxDataByte_crc b (by omega) (by omega), hrem]

theorem exec_rxByte_last (b : Byte) (hst : s.rxState = .data) (hrem : s.rxRem = 1) :
    exec (.rxByte b) s
      = .next { s with
          ch0 := chunkClose (rxAccepts s (rxFolded b s)) s.cfg.n0 s.ch0
          rxCrc := rxFolded b s
          rxRem := 0
          rxState := .idle } := by
  rw [exec_rxByte_data b hst, rxDataByte_last b hrem]
  rfl

/-- The commit condition (41_crc_receiver.md R203). -/
theorem rxAccepts_iff (s : State) (crc : Half) :
    rxAccepts s crc = true ↔ s.ctrl.getLsbD 0 = false ∨ crc = s.cfg.crcResidue := by
  simp [rxAccepts, State.crcEnabled]

theorem rxAccepts_eq_false {crc : Half} (hen : s.ctrl.getLsbD 0 = true) (hne : crc ≠ s.cfg.crcResidue) :
    rxAccepts s crc = false := by
  rw [Bool.eq_false_iff, Ne, rxAccepts_iff, hen]
  simpa using hne

/-! ### A whole frame (30_encoding.md R100, R113) -/

/-- A payload's length is legal as 0 to 254, so it fits the length byte (00_scope.md R8). -/
theorem maxLen_le (hwf : s.cfg.wf = true) : s.cfg.maxLen ≤ 254 := by
  simp only [Config.wf, Config.legal, Config.within, Bool.and_eq_true, decide_eq_true_eq] at hwf
  omega

/-- The first byte opens the chunk, and the length byte says how many bytes are still expected: the payload and the CRC
(41_crc_receiver.md R202, R204, R205). -/
theorem execAll_rxHeader (h : Byte) (p : List Byte) (hwf : s.cfg.wf = true) (hlen : p.length ≤ s.cfg.maxLen) :
    execAll [.rxStart h, .rxByte (BitVec.ofNat 8 p.length)] s
      = .next { s with
          ch0 := chunkPutAll s.cfg.n0 [h] (chunkStart s.cfg.n0 (rxFreed s))
          rxCrc := crcFold s.cfg.crcPoly s.cfg.crcInit [s.cfg.groupId, h, BitVec.ofNat 8 p.length]
          rxRem := p.length + 2
          rxState := .data } := by
  have hmax := maxLen_le hwf
  have hkept : min (BitVec.ofNat 8 p.length).toNat s.cfg.maxLen + 2 = p.length + 2 := by
    rw [BitVec.toNat_ofNat, Nat.mod_eq_of_lt (by omega), Nat.min_eq_left hlen]
  rw [execAll_cons (exec_rxStart h s), execAll_cons (exec_rxByte_length _ rfl), rxLengthByte, hkept]
  rfl

/-- Payload bytes are appended and folded in their order; the two CRC bytes stay expected (41_crc_receiver.md
R205). -/
theorem execAll_rxPayload (p : List Byte) (hst : s.rxState = .data) (hrem : p.length + 2 ≤ s.rxRem) :
    execAll (p.map .rxByte) s
      = .next { s with
          ch0 := chunkPutAll s.cfg.n0 p s.ch0
          rxCrc := crcFold s.cfg.crcPoly s.rxCrc p
          rxRem := s.rxRem - p.length } := by
  induction p generalizing s with
  | nil => rfl
  | cons b p ih =>
    rw [List.length_cons, Nat.add_right_comm] at hrem
    have hleft : s.rxRem - 1 - p.length = s.rxRem - (p.length + 1) := by omega
    rw [List.map_cons, execAll_cons (exec_rxByte_payload b hst (by omega)), ih]
    · simp only [hleft]
      rfl
    · exact hst
    · exact Nat.le_sub_of_add_le hrem

/-- The CRC bytes are folded and not stored, and the last one closes the chunk (41_crc_receiver.md R203, R207). -/
theorem execAll_rxTrailer (lo hi : Byte) (hst : s.rxState = .data) (hrem : s.rxRem = 2) :
    execAll [.rxByte lo, .rxByte hi] s
      = .next { s with
          ch0 := chunkClose (rxAccepts s (crcFold s.cfg.crcPoly s.rxCrc [lo, hi])) s.cfg.n0 s.ch0
          rxCrc := crcFold s.cfg.crcPoly s.rxCrc [lo, hi]
          rxRem := 0
          rxState := .idle } := by
  rw [execAll_cons (exec_rxByte_crcLow lo hst hrem), execAll_cons (exec_rxByte_last hi ?_ rfl)]
  · rfl
  · exact hst

/-- A frame is one chunk of CH0, the first byte and the payload, closed by the commit condition on the sender's CRC with
the two received bytes folded in (41_crc_receiver.md R203 to R205). -/
theorem execAll_rxFrame (h : Byte) (p : List Byte) (lo hi : Byte) (hwf : s.cfg.wf = true)
    (hlen : p.length ≤ s.cfg.maxLen) :
    execAll (rxFrame h p lo hi) s
      = .next { s with
          ch0 :=
            chunkClose (rxAccepts s (crcFold s.cfg.crcPoly (frameCrc s.cfg h p) [lo, hi])) s.cfg.n0
              (chunkPutAll s.cfg.n0 (h :: p) (chunkStart s.cfg.n0 (rxFreed s)))
          rxCrc := crcFold s.cfg.crcPoly (frameCrc s.cfg h p) [lo, hi]
          rxRem := 0
          rxState := .idle } := by
  rw [rxFrame, List.append_assoc, execAll_append (execAll_rxHeader h p hwf hlen),
    execAll_append (execAll_rxPayload p rfl (Nat.le_refl _)),
    execAll_rxTrailer lo hi rfl (Nat.add_sub_cancel_left ..)]
  rfl

end Sys2Proof.Machine

namespace Sys2Proof.Proofs

open Sys2Proof.Machine

/-- Settles O38: the frame's commands are one chunk's start, bytes and close; the sender's CRC folds to 0 with its own
bytes, so the chunk is ended, and to another value with one bit flipped, so it is aborted. -/
theorem correctFrameCommitsOneChunk : Obligations.CorrectFrameCommitsOneChunk := by
  intro s h p hs hen hres hlen hfit
  have hn := (capacity_range hs.config .ch0).2
  have hrun (lo hi : Byte) := execAll_rxFrame (s := s) h p lo hi hs.config hlen
  refine ⟨⟨_, hrun _ _, ?_, rfl⟩, fun hpoly => ⟨_, hrun _ _, ?_⟩⟩
  · have hfold := (crcFold_own_bytes s.cfg.crcPoly (frameCrc s.cfg h p)).trans hres.symm
    obtain ⟨-, hcommits⟩ :=
      (chunkCommitsWholeOrNotAtAll _ _ (h :: p) hn hs.inv_rxFreed hs.writing_rxFreed).1 hfit
    rw [(rxAccepts_iff s _).2 (.inr hfold)]
    exact hcommits.trans (congrArg (· ++ [h :: p]) (committed_rxFreed s))
  · have hflipped := appendedCrcFoldsToZero.2 s.cfg.crcPoly (frameCrc s.cfg h p) hpoly
    obtain ⟨hcount, -, hsame⟩ := abortedChunkLeavesNoTrace _ _ (h :: p) hs.inv_rxFreed hs.writing_rxFreed
    rw [rxAccepts_eq_false hen (hres ▸ hflipped)]
    exact ⟨hsame.trans (committed_rxFreed s), rfl, hcount⟩

/-- Settles O36: the abandoned chunk, the new chunk and the seed of the CRC are those of `RX_START`'s equation. -/
theorem rxStartBeginsFrame : Obligations.RxStartBeginsFrame := by
  intro s h
  refine ⟨decode_row (.rxStart h) h, decode_row .rxIsWriting, exec_rxStart h s, ?_⟩
  have hreply : boolWord (s.rxState != .idle) = if s.rxState = .idle then 0 else 1 := by
    cases s.rxState <;> rfl
  exact congrArg (fun v => Host.Outcome.next (s.setResult v)) hreply

/-- Settles O37: one equation per state of the receiver and per number of bytes still expected; the last byte closes the
chunk by the commit condition. -/
theorem rxByteAdvancesFrame : Obligations.RxByteAdvancesFrame := by
  intro s b
  refine ⟨decode_row (.rxByte b) b, exec_rxByte_idle b, exec_rxByte_length b, exec_rxByte_payload b,
    exec_rxByte_crcLow b, fun hst hrem hcommit => ?_, fun hst hrem hen hne => ?_⟩
  · rw [exec_rxByte_last b hst hrem, (rxAccepts_iff s (rxFolded b s)).2 hcommit]
    rfl
  · rw [exec_rxByte_last b hst hrem, rxAccepts_eq_false (crc := rxFolded b s) hen hne]
    rfl

end Sys2Proof.Proofs
end

section
/-! PROOFS. The pulse decoder (42_pulse_decoder.md R231 to R260). One equation per case of a pulse and per case of a
completed bit, each for the whole state; the word of `PD_STATUS` field by field. -/

namespace Sys2Proof.Machine

variable {s : State} {d : Half} {k : PulseClass}

/-! ### The two windows (42_pulse_decoder.md R232) -/

/-- A window holds no empty event, and the two windows share no duration (00_scope.md R8). -/
theorem windows_of_wf {cfg : Config} (hwf : cfg.wf = true) :
    1 ≤ cfg.shortMin ∧ 1 ≤ cfg.longMin ∧ (cfg.shortMax < cfg.longMin ∨ cfg.longMax < cfg.shortMin) := by
  simp only [Config.wf, Config.legal, Config.within, Config.windowsDisjoint, Bool.and_eq_true, Bool.or_eq_true,
    decide_eq_true_eq] at hwf
  omega

/-- As many zero bits as the start condition asks for can be counted (00_scope.md R8). -/
theorem syncMinZeros_le {cfg : Config} (hwf : cfg.wf = true) : cfg.syncMinZeros ≤ 255 := by
  simp only [Config.wf, Config.legal, Config.within, Bool.and_eq_true, decide_eq_true_eq] at hwf
  omega

theorem inWindow_ne_zero {cfg : Config} (hwf : cfg.wf = true) (h : inWindow cfg d k) : d ≠ 0 := by
  obtain ⟨hshort, hlong, -⟩ := windows_of_wf hwf
  rintro rfl
  cases k with
  | short => exact absurd (Nat.le_trans hshort h.1) (by decide)
  | long => exact absurd (Nat.le_trans hlong h.1) (by decide)

theorem classify_of_inWindow {cfg : Config} (hwf : cfg.wf = true) (h : inWindow cfg d k) : classify cfg d = some k := by
  cases k with
  | short => exact if_pos h
  | long =>
    obtain ⟨-, -, hdisjoint⟩ := windows_of_wf hwf
    have hshort : ¬(cfg.shortMin ≤ d.toNat ∧ d.toNat ≤ cfg.shortMax) := by
      obtain ⟨hmin, hmax⟩ := h
      omega
    exact (if_neg hshort).trans (if_pos h)

theorem classify_of_not_inWindow {cfg : Config} (hshort : ¬inWindow cfg d .short) (hlong : ¬inWindow cfg d .long) :
    classify cfg d = none :=
  (if_neg hshort).trans (if_neg hlong)

/-! ### Sync errors (42_pulse_decoder.md R231, R236) -/

/-- A sync error sets every field of the decoder but the packet's bytes, whatever they were. -/
theorem pdResync_eq (s : State) :
    pdResync s
      = { s with
          ch1 := if s.pdPhase = .data then chunkAbort s.ch1 else s.ch1
          pdPhase := .hunt, pdZeros := 0, pdPend := none, pdBits := 0, pdShift := 0, pdCount := 0, pdExpect := 5 } := by
  cases hphase : s.pdPhase with
  | hunt => rw [pdResync_hunt s hphase]; rfl
  | data => rw [pdResync_data s hphase]; rfl

@[simp] theorem pdPhase_pdResync : (pdResync s).pdPhase = .hunt := by rw [pdResync_eq]
@[simp] theorem pdPend_pdResync : (pdResync s).pdPend = none := by rw [pdResync_eq]
@[simp] theorem cfg_pdResync : (pdResync s).cfg = s.cfg := by rw [pdResync_eq]

/-- Between two packets a sync error leaves CH1 as it is. -/
theorem ch1_pdResync_hunt (h : s.pdPhase = .hunt) : (pdResync s).ch1 = s.ch1 := by rw [pdResync_hunt s h, pdClear_ch1]

/-- The empty event (42_pulse_decoder.md R231). -/
theorem exec_pulse_empty (isHigh : Bool) : exec (.pulse isHigh 0) s = .next (pdResync s) :=
  congrArg Host.Outcome.next (if_pos rfl)

theorem exec_pulse_invalid (isHigh : Bool) (hshort : ¬inWindow s.cfg d .short) (hlong : ¬inWindow s.cfg d .long) :
    exec (.pulse isHigh d) s = .next (pdResync s) := by
  simp only [exec, execPulse, pdEvent, classify_of_not_inWindow hshort hlong, ite_self]

/-! ### Pulses of a class (42_pulse_decoder.md R234, R235, R240) -/

theorem exec_pulse_valid (isHigh : Bool) (hwf : s.cfg.wf = true) (hd : inWindow s.cfg d k) :
    exec (.pulse isHigh d) s = .next (if isHigh then pdHigh k s else pdLow k s) := by
  simp only [exec, execPulse, pdEvent, classify_of_inWindow hwf hd, if_neg (inWindow_ne_zero hwf hd)]

/-- The decoder with no high pulse held: one that was held has lost its partner, a sync error (42_pulse_decoder.md
R235). -/
def pdFreed (s : State) : State := if s.pdPend ≠ none then pdResync s else s

theorem pdFreed_of_none (h : s.pdPend = none) : pdFreed s = s := if_neg fun hheld => hheld h

theorem pdFreed_of_held (h : s.pdPend ≠ none) : pdFreed s = pdResync s := if_pos h

theorem pdPend_pdFreed : (pdFreed s).pdPend = none := by
  by_cases h : s.pdPend = none
  · rw [pdFreed_of_none h, h]
  · rw [pdFreed_of_held h, pdPend_pdResync]

theorem exec_pulse_high (hwf : s.cfg.wf = true) (hd : inWindow s.cfg d k) :
    exec (.pulse true d) s = .next { pdFreed s with pdPend := some k } :=
  exec_pulse_valid true hwf hd

theorem exec_pulse_low (hwf : s.cfg.wf = true) (hd : inWindow s.cfg d k) :
    exec (.pulse false d) s = .next (pdLow k s) :=
  exec_pulse_valid false hwf hd

theorem pdLow_alone (k : PulseClass) (hpend : s.pdPend = none) :
    pdLow k s = if s.pdPhase = .data then pdResync s else s := by
  simp only [pdLow, hpend]

theorem pdLow_mismatch {held : PulseClass} (hpend : s.pdPend = some held) (hne : held ≠ k) :
    pdLow k s = pdResync s := by
  simp only [pdLow, hpend, if_pos hne]

/-- The state in which the held pulse has met its partner (42_pulse_decoder.md R234). -/
def pdPaired (s : State) : State := { s with pdPend := none }

theorem pdPaired_of_none (h : s.pdPend = none) : pdPaired s = s := by rw [pdPaired, ← h]

theorem pdResync_pdPaired : pdResync (pdPaired s) = pdResync s := by rw [pdResync_eq, pdResync_eq s]; rfl

theorem pdLow_pair (hpend : s.pdPend = some k) : pdLow k s = pdBit (k == .long) (pdPaired s) := by
  simp only [pdLow, hpend, ne_eq, not_true_eq_false, if_false]
  rfl

/-- A low pulse of the held pulse's class completes a bit (42_pulse_decoder.md R234). -/
theorem exec_pulse_pair (hwf : s.cfg.wf = true) (hd : inWindow s.cfg d k) (hpend : s.pdPend = some k) :
    exec (.pulse false d) s = .next (pdBit (k == .long) (pdPaired s)) := by
  rw [exec_pulse_low hwf hd, pdLow_pair hpend]

/-! ### A bit in `HUNT` (42_pulse_decoder.md R237, R241) -/

theorem pdBit_hunt (b : Bool) (hphase : s.pdPhase = .hunt) : pdBit b s = pdBitHunt b s := by simp only [pdBit, hphase]

theorem pdBit_data (b : Bool) (hphase : s.pdPhase = .data) : pdBit b s = pdBitData b s := by simp only [pdBit, hphase]

/-- A count of zero bits, which stops at 255 (42_pulse_decoder.md R241). -/
def zeroCount (n : Nat) : Byte := BitVec.ofNat 8 (min n 255)

theorem toNat_zeroCount (n : Nat) : (zeroCount n).toNat = min n 255 := by
  rw [zeroCount, BitVec.toNat_ofNat, Nat.mod_eq_of_lt (by omega)]

theorem zeroCount_toNat (z : Byte) : zeroCount z.toNat = z :=
  BitVec.eq_of_toNat_eq (by rw [toNat_zeroCount]; have := z.isLt; omega)

theorem pdBit_zero (hphase : s.pdPhase = .hunt) :
    pdBit false s = { s with pdZeros := zeroCount (s.pdZeros.toNat + 1) } := by
  have hcount : (if s.pdZeros = 255 then 255 else s.pdZeros + 1) = zeroCount (s.pdZeros.toNat + 1) := by
    refine BitVec.eq_of_toNat_eq ?_
    rw [toNat_zeroCount]
    split <;> bv_omega
  rw [pdBit_hunt false hphase, ← hcount]
  rfl

/-- The start condition (42_pulse_decoder.md R237). -/
theorem pdBit_start (hphase : s.pdPhase = .hunt) (hzeros : s.cfg.syncMinZeros ≤ s.pdZeros.toNat) :
    pdBit true s
      = { s with
          ch1 := chunkStart s.cfg.n1 s.ch1
          pdPhase := .data, pdBits := 0, pdShift := 0, pdCount := 0, pdExpect := 5 } := by
  rw [pdBit_hunt true hphase]
  exact if_pos hzeros

theorem pdBit_early (hphase : s.pdPhase = .hunt) (hzeros : s.pdZeros.toNat < s.cfg.syncMinZeros) :
    pdBit true s = { s with pdZeros := 0 } := by
  rw [pdBit_hunt true hphase]
  exact if_neg (Nat.not_le.2 hzeros)

/-! ### A bit in `DATA` (42_pulse_decoder.md R242, R243, R245) -/

theorem pdBit_more (b : Bool) (hphase : s.pdPhase = .data) (hbits : s.pdBits ≠ 8) : pdBit b s = pdShifted b s := by
  rw [pdBit_data b hphase, pdBitData_more b (by omega)]

/-- The eight data bits, when only the parity bit is to come (42_pulse_decoder.md R243). -/
def pdDataByte (s : State) : Byte := s.pdShift.extractLsb' 0 8

@[simp] theorem pdDataByte_pdPaired : pdDataByte (pdPaired s) = pdDataByte s := rfl

/-- The parity bit is shifted in below the data bits. -/
theorem extract_shifted (x : BitVec 9) (b : Bool) :
    ((x <<< 1) ||| (BitVec.ofBool b).setWidth 9).extractLsb' 1 8 = x.extractLsb' 0 8
      ∧ ((x <<< 1) ||| (BitVec.ofBool b).setWidth 9).getLsbD 0 = b := by
  constructor
  · ext i hi
    simpa [Nat.add_comm 1 i] using fun _ => Nat.add_lt_add_right hi 1
  · simp

/-- The ninth bit decides by parity over itself and the eight before it (42_pulse_decoder.md R243, R245). -/
theorem pdBit_ninth (b : Bool) (hphase : s.pdPhase = .data) (hbits : s.pdBits = 8) :
    pdBit b s = if parityBad (pdDataByte s) b then pdResync s else pdAccept (pdDataByte s) (pdTaken s) := by
  have hresync : pdResync (pdTaken s) = pdResync s := by rw [pdResync_eq, pdResync_eq s]; rfl
  obtain ⟨hbyte, hparity⟩ := extract_shifted s.pdShift b
  have htaken : pdByte (pdShifted b s)
      = if parityBad ((pdShifted b s).pdShift.extractLsb' 1 8) ((pdShifted b s).pdShift.getLsbD 0) then
          pdResync (pdTaken s)
        else pdAccept ((pdShifted b s).pdShift.extractLsb' 1 8) (pdTaken s) := rfl
  rw [pdBit_data b hphase, pdBitData_ninth b (by omega), htaken, hresync, pdShifted, hbyte, hparity, pdDataByte]

theorem parityBad_iff (v : Byte) (p : Bool) : parityBad v p = true ↔ (popcount v + (if p then 1 else 0)) % 2 = 1 := by
  cases p <;> simp [parityBad]

/-! ### A byte with right parity (42_pulse_decoder.md R246, R250, R255 to R257) -/

/-- The packet's bytes accepted so far (10_state.md R43). -/
def pdReceived (s : State) : List Byte := s.pdBytes.toList.take s.pdCount

/-- The byte being accepted is not among those that its check covers (42_pulse_decoder.md R255). -/
theorem pdChecks_eq (v : Byte) : pdChecks v s = decide (v = packetCheck s.cfg (pdReceived s)) := by
  rw [pdChecks, pdReceived]
  congr 3
  exact (congrArg (List.take _) (Vector.toList_setIfInBounds ..)).trans (List.take_set_of_le (Nat.le_refl _))

/-- The last byte closes the packet's chunk by the checksum (42_pulse_decoder.md R255 to R257). -/
theorem pdAccept_closes (v : Byte) (h : s.pdCount + 1 = pdExpectAfter v s) :
    pdAccept v s
      = { s with
          ch1 := chunkClose (decide (v = packetCheck s.cfg (pdReceived s))) s.cfg.n1 (chunkPut s.cfg.n1 v s.ch1)
          pdPhase := .hunt, pdZeros := 0, pdPend := none, pdBits := 0, pdShift := 0, pdCount := 0, pdExpect := 5
          pdBytes := s.pdBytes.setIfInBounds s.pdCount v } := by
  rw [pdAccept_last v h, pdChecks_eq]
  rfl

theorem foldl_add_toNat_eq_countP {α : Type} (p : α → Bool) (l : List α) (n : Nat) :
    l.foldl (fun acc i => acc + (p i).toNat) n = n + l.countP p := by
  induction l generalizing n with
  | nil => rfl
  | cons i l ih =>
    rw [List.foldl_cons, ih, List.countP_cons]
    cases p i <;> simp [Nat.add_assoc, Nat.add_comm 1]

theorem popcount_eq_countP (v : Byte) : popcount v = (List.range 8).countP (fun i => v.getLsbD i) :=
  (foldl_add_toNat_eq_countP ..).trans (Nat.zero_add _)

theorem toNat_foldl_add (bs : List Byte) (b : Byte) :
    (bs.foldl (· + ·) b).toNat = (b.toNat + (bs.map BitVec.toNat).sum) % 256 := by
  induction bs generalizing b with
  | nil => simpa using (Nat.mod_eq_of_lt b.isLt).symm
  | cons c bs ih =>
    rw [List.foldl_cons, ih, BitVec.toNat_add, Nat.mod_add_mod, List.map_cons, List.sum_cons, Nat.add_assoc]

/-! ### The word of `PD_STATUS` (42_pulse_decoder.md R260) -/

theorem pdStatusWord_fields (s : State) :
    (pdStatusWord s).getLsbD 0 = (s.pdPhase == .data)
      ∧ (pdStatusWord s).extractLsb' 1 2 = pendCode s.pdPend
      ∧ (pdStatusWord s).getLsbD 3 = false
      ∧ (pdStatusWord s).extractLsb' 4 4 = BitVec.ofNat 4 s.pdBits
      ∧ (pdStatusWord s).extractLsb' 8 8 = BitVec.ofNat 8 s.pdCount
      ∧ (pdStatusWord s).extractLsb' 16 8 = s.pdZeros
      ∧ (pdStatusWord s).extractLsb' 24 8 = 0 := by
  unfold pdStatusWord
  refine ⟨?phase, ?pend, ?gap, ?bits, ?count, ?zeros, ?top⟩
  case phase | gap =>
    simp only [BitVec.getLsbD_setWidth, BitVec.getLsbD_append]
    simp
  case pend | bits | count | zeros =>
    simp (disch := decide) only [BitVec.extractLsb'_setWidth_of_le, BitVec.extractLsb'_append_eq_of_le, Nat.reduceSub,
      BitVec.extractLsb'_append_eq_right, BitVec.extractLsb'_eq_self]
  case top =>
    ext i hi
    simp

end Sys2Proof.Machine

namespace Sys2Proof.Proofs

open Sys2Proof.Machine

/-- Settles O39: by the pulse's window, then by what is held and by the phase. -/
theorem pulsesThatCompleteNoBit : Obligations.PulsesThatCompleteNoBit := by
  intro s h d hwf
  refine ⟨pdResync_eq s, ?_, fun k hd hpend => ?_, fun k hd hpend => ?_, fun k hd hpend hphase => ?_,
    fun k hd hpend hphase => ?_, fun k k' hd hpend hne => ?_⟩
  · rintro (rfl | ⟨hshort, hlong⟩)
    · exact exec_pulse_empty h
    · exact exec_pulse_invalid h hshort hlong
  · rw [exec_pulse_high hwf hd, pdFreed_of_none hpend]
  · rw [exec_pulse_high hwf hd, pdFreed_of_held hpend]
  · rw [exec_pulse_low hwf hd, pdLow_alone k hpend, hphase, if_neg (by decide)]
  · rw [exec_pulse_low hwf hd, pdLow_alone k hpend, if_pos hphase]
  · rw [exec_pulse_low hwf hd, pdLow_mismatch hpend hne]

/-- Settles O40: the pair completes a bit, and each case of a bit is one equation. -/
theorem bitsFindTheStartAndFillTheByte : Obligations.BitsFindTheStartAndFillTheByte := by
  intro s d k hwf hd hpend
  rw [exec_pulse_pair hwf hd hpend]
  refine ⟨?_, ?_, ?_, fun hphase hbits => ?_⟩
  · rintro hphase rfl
    exact congrArg Host.Outcome.next (pdBit_zero (s := pdPaired s) hphase)
  · rintro hphase rfl hzeros
    exact congrArg Host.Outcome.next (pdBit_start (s := pdPaired s) hphase hzeros)
  · rintro hphase rfl hzeros
    exact congrArg Host.Outcome.next (pdBit_early (s := pdPaired s) hphase hzeros)
  · have hbit : (BitVec.ofBool (k == .long)).setWidth 9 = if k = .long then 1 else 0 := by cases k <;> rfl
    rw [pdBit_more (s := pdPaired s) (k == .long) hphase hbits, pdShifted, hbit]
    rfl

/-- Settles O41: the ninth bit is a sync error or accepts the byte, by parity; an accepted byte is stored, or is the
last and closes the chunk by the checksum. -/
theorem ninthBitCompletesByte : Obligations.NinthBitCompletesByte := by
  refine ⟨popcount_eq_countP, fun cfg bytes => toNat_foldl_add bytes cfg.chkBase, ?_⟩
  rintro s d k v expect hwf hphase hd hpend hbits (rfl : v = pdDataByte s) rfl
  have hparity := parityBad_iff (pdDataByte s) (k == .long)
  simp only [beq_iff_eq] at hparity
  rw [exec_pulse_pair hwf hd hpend, pdBit_ninth (s := pdPaired s) (k == .long) hphase hbits, pdDataByte_pdPaired,
    pdResync_pdPaired]
  refine ⟨fun hodd => ?_, fun heven hmore => ?_, fun heven hlast => ?_⟩
  · rw [if_pos (hparity.2 hodd)]
  · rw [if_neg (mt hparity.1 (by omega)), pdAccept_more (s := pdTaken (pdPaired s)) (pdDataByte s) hmore]
    rfl
  · rw [if_neg (mt hparity.1 (by omega)), pdAccept_closes (s := pdTaken (pdPaired s)) (pdDataByte s) hlast]
    simp only [chunkClose, decide_eq_true_eq]
    rfl

/-- Settles O42: the word's fields, one after another. -/
theorem pdStatusReportsDecoder : Obligations.PdStatusReportsDecoder := by
  refine ⟨decode_row .pdStatus, fun s => ⟨pdStatusWord s, rfl, ?_⟩⟩
  obtain ⟨hphase, hpend, hfields⟩ := pdStatusWord_fields s
  have hdata : (s.pdPhase == .data) = decide (s.pdPhase = .data) := by cases s.pdPhase <;> rfl
  refine ⟨hphase.trans hdata, hpend.trans ?_, hfields⟩
  cases s.pdPend with
  | none => rfl
  | some held => cases held <;> rfl

end Sys2Proof.Proofs
end

section
/-! PROOFS. Pulse trains (30_encoding.md R105, R106, 42_pulse_decoder.md R258, R261). A run of valid pulse pairs is a
run of bits, `pdBitAll`; the bits of a train are a preamble, which opens a chunk on CH1, and the nine bits of each byte,
which append it. -/

namespace Sys2Proof.Machine

variable {s : State}

/-! ### A pulse pair is a bit (42_pulse_decoder.md R234) -/

@[simp] theorem cfg_pdBit (b : Bool) : (pdBit b s).cfg = s.cfg := (State.port_eq_iff.1 (port_pdBit b)).1

theorem pdPend_pdAccept (v : Byte) (h : s.pdPend = none) : (pdAccept v s).pdPend = none := by
  by_cases hlast : s.pdCount + 1 = pdExpectAfter v s
  · rw [pdAccept_last v hlast, pdClear_pdPend]
  · rw [pdAccept_more v hlast]; exact h

/-- A bit leaves no high pulse held. -/
theorem pdPend_pdBit (b : Bool) (h : s.pdPend = none) : (pdBit b s).pdPend = none := by
  cases hphase : s.pdPhase with
  | hunt =>
    rw [pdBit_hunt b hphase]
    exact satisfies_ite (P := fun t => t.pdPend = none) (fun _ => h)
      (fun _ => satisfies_ite (P := fun t => t.pdPend = none) (fun _ => h) (fun _ => h))
  | data =>
    by_cases hbits : s.pdBits = 8
    · rw [pdBit_ninth b hphase hbits]
      exact satisfies_ite (P := fun t => t.pdPend = none) (fun _ => pdPend_pdResync) (fun _ => pdPend_pdAccept _ h)
    · rw [pdBit_more b hphase hbits]; exact h

/-- The class of both pulses of a bit (30_encoding.md R106). -/
def bitClass (b : Bool) : PulseClass := if b then .long else .short

theorem bitClass_eq_long (b : Bool) : (bitClass b == .long) = b := by cases b <;> rfl

/-- The two durations are those of a pulse pair of the bit `b` (30_encoding.md R106). -/
def IsBitPair (cfg : Config) (p : Half × Half) (b : Bool) : Prop :=
  inWindow cfg p.1 (bitClass b) ∧ inWindow cfg p.2 (bitClass b)

@[simp] theorem cfg_pdFreed : (pdFreed s).cfg = s.cfg := by
  unfold pdFreed
  split
  · exact cfg_pdResync
  · rfl

theorem pdFreed_hunt (h : s.pdPhase = .hunt) : (pdFreed s).pdPhase = .hunt ∧ (pdFreed s).ch1 = s.ch1 := by
  unfold pdFreed
  split
  · exact ⟨pdPhase_pdResync, ch1_pdResync_hunt h⟩
  · exact ⟨h, rfl⟩

theorem execAll_bitPair {p : Half × Half} {b : Bool} (hwf : s.cfg.wf = true) (h : IsBitPair s.cfg p b) :
    execAll [.pulse true p.1, .pulse false p.2] s = .next (pdBit b (pdFreed s)) := by
  have hfreed : (pdFreed s).cfg = s.cfg := cfg_pdFreed
  obtain ⟨hhigh, hlow⟩ := h
  rw [← hfreed] at hwf hlow
  rw [execAll_cons (exec_pulse_high (hfreed ▸ hwf) hhigh),
    execAll_cons (exec_pulse_pair (s := { pdFreed s with pdPend := some (bitClass b) }) hwf hlow rfl),
    bitClass_eq_long]
  exact congrArg (fun t => Host.Outcome.next (pdBit b t)) (pdPaired_of_none pdPend_pdFreed)

/-- Bits one after another. -/
def pdBitAll (bits : List Bool) (s : State) : State := bits.foldl (fun t b => pdBit b t) s

theorem pdBitAll_cons (b : Bool) (bits : List Bool) : pdBitAll (b :: bits) s = pdBitAll bits (pdBit b s) := rfl

theorem pdBitAll_append (bits bits' : List Bool) : pdBitAll (bits ++ bits') s = pdBitAll bits' (pdBitAll bits s) :=
  List.foldl_append

theorem pairPulses_cons (p : Half × Half) (pairs : List (Half × Half)) :
    pairPulses (p :: pairs) = [.pulse true p.1, .pulse false p.2] ++ pairPulses pairs := rfl

@[simp] theorem cfg_pdBitAll (bits : List Bool) : (pdBitAll bits s).cfg = s.cfg := by
  induction bits generalizing s with
  | nil => rfl
  | cons b bits ih => rw [pdBitAll_cons, ih, cfg_pdBit]

/-- With no high pulse held, valid pulse pairs, each given with its bit, complete their bits. -/
theorem execAll_pairPulses {cfg : Config} {sent : List (Bool × (Half × Half))}
    (h : ∀ x ∈ sent, IsBitPair cfg x.2 x.1) (hwf : cfg.wf = true) (hcfg : s.cfg = cfg) (hpend : s.pdPend = none) :
    execAll (pairPulses (sent.map Prod.snd)) s = .next (pdBitAll (sent.map Prod.fst) s) := by
  induction sent generalizing s with
  | nil => rfl
  | cons x sent ih =>
    subst hcfg
    obtain ⟨hx, hsent⟩ := List.forall_mem_cons.1 h
    rw [List.map_cons, List.map_cons, pairPulses_cons, execAll_append (execAll_bitPair hwf hx),
      pdFreed_of_none hpend, ih hsent (cfg_pdBit _) (pdPend_pdBit _ hpend), pdBitAll_cons]

/-- Whatever is held, the first high pulse of valid pairs frees the decoder of it (42_pulse_decoder.md R235). -/
theorem execAll_pairPulses_freed {sent : List (Bool × (Half × Half))} (h : ∀ x ∈ sent, IsBitPair s.cfg x.2 x.1)
    (hwf : s.cfg.wf = true) (hne : sent ≠ []) :
    execAll (pairPulses (sent.map Prod.snd)) s = .next (pdBitAll (sent.map Prod.fst) (pdFreed s)) := by
  cases sent with
  | nil => exact absurd rfl hne
  | cons x sent =>
    obtain ⟨hx, hsent⟩ := List.forall_mem_cons.1 h
    rw [List.map_cons, List.map_cons, pairPulses_cons, execAll_append (execAll_bitPair hwf hx),
      execAll_pairPulses hsent hwf ((cfg_pdBit _).trans cfg_pdFreed) (pdPend_pdBit _ pdPend_pdFreed), pdBitAll_cons]

/-- A bit with its pulse pair: both pulses of one duration (30_encoding.md R106). -/
def sentBit (dShort dLong : Half) (b : Bool) : Bool × (Half × Half) :=
  (b, (if b then dLong else dShort, if b then dLong else dShort))

theorem pulseTrain_eq_pairPulses (dShort dLong : Half) (bits : List Bool) :
    pulseTrain dShort dLong bits = pairPulses ((bits.map (sentBit dShort dLong)).map Prod.snd) := by
  rw [pairPulses, List.map_map, List.flatMap_map]
  rfl

theorem map_fst_sentBit (dShort dLong : Half) (bits : List Bool) :
    (bits.map (sentBit dShort dLong)).map Prod.fst = bits := by
  rw [List.map_map]
  exact List.map_id bits

theorem isBitPair_sentBit {cfg : Config} {dShort dLong : Half} (hshort : inWindow cfg dShort .short)
    (hlong : inWindow cfg dLong .long) (b : Bool) : IsBitPair cfg (sentBit dShort dLong b).2 b := by
  cases b with
  | false => exact ⟨hshort, hshort⟩
  | true => exact ⟨hlong, hlong⟩

theorem execAll_pulseTrain {dShort dLong : Half} {bits : List Bool} (hwf : s.cfg.wf = true)
    (hshort : inWindow s.cfg dShort .short) (hlong : inWindow s.cfg dLong .long) (hne : bits ≠ []) :
    execAll (pulseTrain dShort dLong bits) s = .next (pdBitAll bits (pdFreed s)) := by
  have hsent : ∀ x ∈ bits.map (sentBit dShort dLong), IsBitPair s.cfg x.2 x.1 :=
    List.forall_mem_map.2 fun b _ => isBitPair_sentBit hshort hlong b
  rw [pulseTrain_eq_pairPulses, execAll_pairPulses_freed hsent hwf (mt List.map_eq_nil_iff.1 hne), map_fst_sentBit]

/-! ### The preamble (42_pulse_decoder.md R237, R241) -/

theorem zeroCount_add (m n : Nat) : zeroCount ((zeroCount m).toNat + n) = zeroCount (m + n) := by
  refine BitVec.eq_of_toNat_eq ?_
  simp only [toNat_zeroCount]
  omega

theorem pdBitAll_zeros (n : Nat) (hphase : s.pdPhase = .hunt) :
    pdBitAll (List.replicate n false) s = { s with pdZeros := zeroCount (s.pdZeros.toNat + n) } := by
  induction n generalizing s with
  | zero => rw [Nat.add_zero, zeroCount_toNat]; rfl
  | succ n ih =>
    rw [List.replicate_succ, pdBitAll_cons, pdBit_zero hphase, ih]
    · simp only [zeroCount_add, Nat.add_right_comm, Nat.add_assoc]
    · exact hphase

/-- The state after a preamble of `n` zero bits and a 1 bit: a chunk is open, and a byte is to come. -/
def pdStarted (n : Nat) (s : State) : State :=
  { s with
    ch1 := chunkStart s.cfg.n1 s.ch1, pdPhase := .data, pdZeros := zeroCount (s.pdZeros.toNat + n), pdBits := 0
    pdShift := 0, pdCount := 0, pdExpect := 5 }

/-- Enough zero bits stay enough where the count stops (42_pulse_decoder.md R241). -/
theorem pdBitAll_preamble {n : Nat} (hwf : s.cfg.wf = true) (hphase : s.pdPhase = .hunt)
    (hzeros : s.cfg.syncMinZeros ≤ n) : pdBitAll (List.replicate n false ++ [true]) s = pdStarted n s := by
  have hmax := syncMinZeros_le hwf
  have hcounted : s.cfg.syncMinZeros ≤ (zeroCount (s.pdZeros.toNat + n)).toNat := by
    rw [toNat_zeroCount]
    omega
  rw [pdBitAll_append, pdBitAll_zeros n hphase]
  exact pdBit_start (s := { s with pdZeros := zeroCount (s.pdZeros.toNat + n) }) hphase hcounted

/-! ### The nine bits of a byte (30_encoding.md R106, 42_pulse_decoder.md R242, R243) -/

/-- A packet is in progress and no bit of its next byte has come. -/
def pdAtByte (s : State) : Prop := s.pdPhase = .data ∧ s.pdBits = 0 ∧ s.pdShift = 0

theorem pdTaken_of_pdAtByte (h : pdAtByte s) : pdTaken s = s := by
  obtain ⟨-, hbits, hshift⟩ := h
  rw [pdTaken, ← hbits, ← hshift]

/-- Shifting in the next lower bit of a byte's high end. -/
theorem shift_in_bit (v : Byte) (j : Nat) :
    ((v >>> (j + 1)).setWidth 9 <<< 1) ||| (BitVec.ofBool (v.getLsbD j)).setWidth 9 = (v >>> j).setWidth 9 := by
  ext i hi
  cases i with
  | zero => simpa using fun hbit => Nat.lt_trans (BitVec.lt_of_getLsbD hbit) (by decide)
  | succ i => simp [Nat.add_right_comm, Nat.add_assoc]

/-- After the first `k` data bits the register holds the byte's `k` high bits. -/
theorem pdBitAll_dataBits (v : Byte) {k : Nat} (hk : k ≤ 8) (h : pdAtByte s) :
    pdBitAll ((List.range k).map fun i => v.getLsbD (7 - i)) s
      = { s with pdBits := k, pdShift := (v >>> (8 - k)).setWidth 9 } := by
  have hphase : s.pdPhase = .data := h.1
  induction k with
  | zero =>
    have hempty : (v >>> 8).setWidth 9 = 0 := by rw [BitVec.ushiftRight_eq_zero (Nat.le_refl 8)]; rfl
    rw [Nat.sub_zero, hempty]
    exact (pdTaken_of_pdAtByte h).symm
  | succ k ih =>
    have hlen : 8 - k = 7 - k + 1 := by omega
    have hnext : 8 - (k + 1) = 7 - k := by omega
    rw [List.range_succ, List.map_append, pdBitAll_append, ih (by omega), hlen, hnext, ← shift_in_bit v (7 - k)]
    exact pdBit_more (s := { s with pdBits := k, pdShift := (v >>> (7 - k + 1)).setWidth 9 }) (v.getLsbD (7 - k)) hphase
      (by show k ≠ 8; omega)

/-- A byte sent with its parity bit has right parity (42_pulse_decoder.md R245). -/
theorem parityBad_parityBit (v : Byte) : ¬parityBad v (parityBit v) = true := by
  rw [parityBad_iff, parityBit]
  by_cases h : popcount v % 2 = 1
  · simp only [h, beq_self_eq_true, if_true]
    omega
  · simp [h]

/-- The nine bits of a byte on the air deliver it. -/
theorem pdBitAll_airBits {v : Byte} (h : pdAtByte s) : pdBitAll (airBits v) s = pdAccept v s := by
  have hbyte : ((v >>> 0).setWidth 9).extractLsb' 0 8 = v := by
    rw [BitVec.extractLsb'_setWidth_of_le (by decide), BitVec.ushiftRight_zero, BitVec.extractLsb'_eq_self]
  rw [airBits, pdBitAll_append, pdBitAll_dataBits v (Nat.le_refl 8) h]
  calc
    pdBit (parityBit v) { s with pdBits := 8, pdShift := (v >>> 0).setWidth 9 } = pdAccept v (pdTaken s) := by
      rw [pdBit_ninth (s := { s with pdBits := 8, pdShift := (v >>> 0).setWidth 9 }) (parityBit v) h.1 rfl,
        pdDataByte, hbyte, if_neg (parityBad_parityBit v)]
      rfl
    _ = pdAccept v s := by rw [pdTaken_of_pdAtByte h]

/-! ### The bytes of a packet (42_pulse_decoder.md R246, R250, R255) -/

/-- Bytes accepted one after another, none of them the packet's last. -/
def pdStoredAll (bs : List Byte) (s : State) : State := bs.foldl (fun t v => pdStored v t) s

theorem pdStoredAll_cons (v : Byte) (bs : List Byte) : pdStoredAll (v :: bs) s = pdStoredAll bs (pdStored v s) := rfl

theorem pdAtByte_pdStoredAll (bs : List Byte) (h : pdAtByte s) : pdAtByte (pdStoredAll bs s) := by
  induction bs generalizing s with
  | nil => exact h
  | cons v bs ih => exact ih h

theorem cfg_pdStoredAll (bs : List Byte) : (pdStoredAll bs s).cfg = s.cfg := by
  induction bs generalizing s with
  | nil => rfl
  | cons v bs ih => exact ih

theorem ch1_pdStoredAll (bs : List Byte) : (pdStoredAll bs s).ch1 = chunkPutAll s.cfg.n1 bs s.ch1 := by
  induction bs generalizing s with
  | nil => rfl
  | cons v bs ih => exact ih

theorem pdCount_pdStoredAll (bs : List Byte) : (pdStoredAll bs s).pdCount = s.pdCount + bs.length := by
  induction bs generalizing s with
  | nil => rfl
  | cons v bs ih =>
    rw [pdStoredAll_cons, ih, List.length_cons, pdStored]
    exact Nat.add_right_comm ..

theorem pdReceived_pdStored (v : Byte) (h : s.pdCount < 6) : pdReceived (pdStored v s) = pdReceived s ++ [v] := by
  have hlen : s.pdCount < s.pdBytes.toList.length := by rwa [Vector.length_toList]
  calc
    pdReceived (pdStored v s) = (s.pdBytes.toList.set s.pdCount v).take (s.pdCount + 1) :=
      congrArg (List.take _) (Vector.toList_setIfInBounds ..)
    _ = (s.pdBytes.toList.set s.pdCount v).take s.pdCount ++ (s.pdBytes.toList.set s.pdCount v)[s.pdCount]?.toList :=
      List.take_add_one
    _ = pdReceived s ++ [v] := by
      rw [List.take_set_of_le (Nat.le_refl _), List.getElem?_set_self hlen]
      rfl

theorem pdReceived_pdStoredAll (bs : List Byte) (h : s.pdCount + bs.length ≤ 6) :
    pdReceived (pdStoredAll bs s) = pdReceived s ++ bs := by
  induction bs generalizing s with
  | nil => exact (List.append_nil _).symm
  | cons v bs ih =>
    rw [List.length_cons] at h
    have hcount : (pdStored v s).pdCount = s.pdCount + 1 := rfl
    rw [pdStoredAll_cons, ih (by omega), pdReceived_pdStored v (by omega), List.append_assoc, List.singleton_append]

/-- None of the bytes `bs` is the packet's last. -/
def pdNoneLast : List Byte → State → Prop
  | [], _ => True
  | v :: bs, s => s.pdCount + 1 ≠ pdExpectAfter v s ∧ pdNoneLast bs (pdStored v s)

theorem pdBitAll_bytes {bs : List Byte} (h : pdAtByte s) (hbs : pdNoneLast bs s) :
    pdBitAll (bs.flatMap airBits) s = pdStoredAll bs s := by
  induction bs generalizing s with
  | nil => rfl
  | cons v bs ih =>
    obtain ⟨hmore, hrest⟩ := hbs
    rw [List.flatMap_cons, pdBitAll_append, pdBitAll_airBits h, pdAccept_more v hmore, ih (s := pdStored v s) h hrest,
      pdStoredAll_cons]

section

variable (hcHi hcLo addr cmd ext : Byte)

/-- None of the bytes before the checksum is the packet's last: the command byte fixes the length to be one more
(30_encoding.md R105, 42_pulse_decoder.md R250). The bytes are counted one by one, without the extension byte and with
it. -/
theorem pdNoneLast_fs20Body (hcount : s.pdCount = 0) (hexpect : s.pdExpect = 5) :
    pdNoneLast (fs20Body s.cfg hcHi hcLo addr cmd ext) s
      ∧ (pdStoredAll (fs20Body s.cfg hcHi hcLo addr cmd ext) s).pdExpect
        = (fs20Body s.cfg hcHi hcLo addr cmd ext).length + 1 := by
  cases hext : hasExtOf s.cfg cmd <;>
    simp [fs20Body, hext, pdNoneLast, pdStoredAll, pdStored, pdExpectAfter, hcount, hexpect]

theorem length_fs20Body (cfg : Config) :
    (fs20Body cfg hcHi hcLo addr cmd ext).length = if hasExtOf cfg cmd then 5 else 4 := by
  unfold fs20Body
  split <;> rfl

/-- The open chunk with a packet's bytes and a last byte appended, closed by the checksum (42_pulse_decoder.md R255). -/
def chunkPacket (cfg : Config) (body : List Byte) (last : Byte) (ch : Channel) : Channel :=
  chunkClose (decide (last = packetCheck cfg body)) cfg.n1 (chunkPutAll cfg.n1 (body ++ [last]) ch)

/-- The last byte closes the packet's chunk, and the decoder hunts again (42_pulse_decoder.md R246, R255 to R257). -/
theorem pdBitAll_packet (last : Byte) (h : pdAtByte s) (hcount : s.pdCount = 0) (hexpect : s.pdExpect = 5) :
    (pdBitAll ((fs20Body s.cfg hcHi hcLo addr cmd ext ++ [last]).flatMap airBits) s).pdPhase = .hunt
      ∧ (pdBitAll ((fs20Body s.cfg hcHi hcLo addr cmd ext ++ [last]).flatMap airBits) s).ch1
        = chunkPacket s.cfg (fs20Body s.cfg hcHi hcLo addr cmd ext) last s.ch1 := by
  obtain ⟨hnone, hlen⟩ := pdNoneLast_fs20Body hcHi hcLo addr cmd ext hcount hexpect
  have hlength := length_fs20Body hcHi hcLo addr cmd ext s.cfg
  generalize fs20Body s.cfg hcHi hcLo addr cmd ext = body at *
  have hrange : body.length = 4 ∨ body.length = 5 := by
    rw [hlength]
    split <;> simp
  have hreceived : pdReceived (pdStoredAll body s) = body := by
    rw [pdReceived_pdStoredAll body (by omega), pdReceived, hcount, List.take_zero, List.nil_append]
  have hlast : (pdStoredAll body s).pdCount + 1 = pdExpectAfter last (pdStoredAll body s) := by
    rw [pdExpectAfter, pdCount_pdStoredAll, hlen, hcount, if_neg (by omega), Nat.zero_add]
  rw [List.flatMap_append, pdBitAll_append, pdBitAll_bytes h hnone, List.flatMap_singleton,
    pdBitAll_airBits (pdAtByte_pdStoredAll body h), pdAccept_closes last hlast, hreceived, cfg_pdStoredAll,
    ch1_pdStoredAll, chunkPacket, chunkPutAll_append]
  exact ⟨rfl, rfl⟩

/-- A train is the preamble, which opens the chunk, and then the packet. -/
theorem pdBitAll_trainBits {zeros : Nat} (last : Byte) (hwf : s.cfg.wf = true) (hphase : s.pdPhase = .hunt)
    (hzeros : s.cfg.syncMinZeros ≤ zeros) :
    (pdBitAll (trainBits zeros (fs20Body s.cfg hcHi hcLo addr cmd ext ++ [last])) s).pdPhase = .hunt
      ∧ (pdBitAll (trainBits zeros (fs20Body s.cfg hcHi hcLo addr cmd ext ++ [last])) s).ch1
        = chunkPacket s.cfg (fs20Body s.cfg hcHi hcLo addr cmd ext) last (chunkStart s.cfg.n1 s.ch1) := by
  rw [trainBits, pdBitAll_append, pdBitAll_preamble hwf hphase hzeros]
  exact pdBitAll_packet (s := pdStarted zeros s) hcHi hcLo addr cmd ext last ⟨rfl, rfl, rfl⟩ rfl rfl

/-- A high pulse held before the train is lost, which in `HUNT` costs nothing but counted zero bits
(42_pulse_decoder.md R235, R236). -/
theorem execAll_packetTrain {dShort dLong : Half} {zeros : Nat} (last : Byte) (hwf : s.cfg.wf = true)
    (hphase : s.pdPhase = .hunt) (hshort : inWindow s.cfg dShort .short) (hlong : inWindow s.cfg dLong .long)
    (hzeros : s.cfg.syncMinZeros ≤ zeros) :
    ∃ t, execAll (pulseTrain dShort dLong (trainBits zeros (fs20Body s.cfg hcHi hcLo addr cmd ext ++ [last]))) s
        = .next t
      ∧ t.pdPhase = .hunt
      ∧ t.committed .ch1
        = committed s.cfg.n1
            (chunkPacket s.cfg (fs20Body s.cfg hcHi hcLo addr cmd ext) last (chunkStart s.cfg.n1 s.ch1)) := by
  have hne : trainBits zeros (fs20Body s.cfg hcHi hcLo addr cmd ext ++ [last]) ≠ [] := by simp [trainBits]
  obtain ⟨hfreedPhase, hfreedCh1⟩ := pdFreed_hunt hphase
  have hcfg : (pdFreed s).cfg = s.cfg := cfg_pdFreed
  obtain ⟨hhunt, hch1⟩ :=
    pdBitAll_trainBits (s := pdFreed s) hcHi hcLo addr cmd ext last (hcfg ▸ hwf) hfreedPhase (hcfg ▸ hzeros)
  rw [hcfg] at hhunt hch1
  refine ⟨_, execAll_pulseTrain hwf hshort hlong hne, hhunt, ?_⟩
  rw [State.committed, State.chan_ch1, hch1, hfreedCh1, State.capacity, cfg_pdBitAll, hcfg]

end

end Sys2Proof.Machine

namespace Sys2Proof.Proofs

open Sys2Proof.Machine

/-- Settles O43: the empty event is a sync error, which leaves nothing held and no zero bit counted; the pairs then
complete the bits of a preamble. -/
theorem emptyEventAndPreambleResync : Obligations.EmptyEventAndPreambleResync := by
  intro s zeros a b hwf hzeros ha hb hsync
  have hsent : ∀ x ∈ zeros.map (Prod.mk false) ++ [(true, (a, b))], IsBitPair s.cfg x.2 x.1 :=
    List.forall_mem_append.2 ⟨List.forall_mem_map.2 hzeros, List.forall_mem_singleton.2 ⟨ha, hb⟩⟩
  have hpairs : (zeros.map (Prod.mk false) ++ [(true, (a, b))]).map Prod.snd = zeros ++ [(a, b)] := by
    rw [List.map_append, List.map_map]
    exact congrArg (· ++ [(a, b)]) (List.map_id zeros)
  have hbits : (zeros.map (Prod.mk false) ++ [(true, (a, b))]).map Prod.fst
      = List.replicate zeros.length false ++ [true] := by
    rw [List.map_append, List.map_map]
    exact congrArg (· ++ [true]) List.map_const'
  refine ⟨pdStarted zeros.length (pdResync s), ?_, rfl, pdPend_pdResync, rfl, rfl, by rw [pdStarted, cfg_pdResync]⟩
  rw [pulseEmpty, List.singleton_append, execAll_cons (exec_pulse_empty false), ← hpairs,
    execAll_pairPulses hsent hwf cfg_pdResync pdPend_pdResync, hbits, pdBitAll_preamble _ pdPhase_pdResync]
  all_goals rwa [cfg_pdResync]

/-- Settles O44: the train is a preamble, which opens a chunk, and the packet's bytes, which are appended; the checksum
is right exactly for the packet, so its chunk is committed whole, and the other is aborted. -/
theorem packetTrainCommitsOneChunk : Obligations.PacketTrainCommitsOneChunk := by
  intro s dShort dLong zeros hcHi hcLo addr cmd ext hs hphase hshort hlong hzeros hfit
  have hrun (last : Byte) := execAll_packetTrain hcHi hcLo addr cmd ext last hs.config hphase hshort hlong hzeros
  have hclosed : s.ch1.writing = false := by simpa [hphase] using hs.pdWriting
  have hinv := hs.channels .ch1
  refine ⟨?_, fun bad hbad => ?_⟩
  · obtain ⟨t, ht, hhunt, hcommitted⟩ := hrun (packetCheck s.cfg (fs20Body s.cfg hcHi hcLo addr cmd ext))
    refine ⟨t, ht, hcommitted.trans ?_, hhunt⟩
    rw [chunkPacket, decide_eq_true rfl]
    exact ((chunkCommitsWholeOrNotAtAll _ _ _ (capacity_range hs.config .ch1).2 hinv hclosed).1 hfit).2
  · obtain ⟨t, ht, hhunt, hcommitted⟩ := hrun bad
    refine ⟨t, ht, hcommitted.trans ?_, hhunt⟩
    rw [chunkPacket, decide_eq_false hbad]
    exact (abortedChunkLeavesNoTrace _ _ _ hinv hclosed).2.2

end Sys2Proof.Proofs
end

section
/-! PROOFS. The wire encoder (43_wire_encoder.md R280 to R289). One equation per case of a command; the field commands
of a message amount to one run of bytes appended to CH2's open chunk, which `ENC_END` commits whole or discards. -/

namespace Sys2Proof.Machine

/-! ### CH2 after a whole chunk, committed or discarded -/

section

variable {n : Nat} {a b c ch : Channel}

/-- `a` with everything of `b` but the read cursor and the chunk open for reading (10_state.md R36 to R38). -/
def Channel.withWriter (a b : Channel) : Channel :=
  { a with
    buf := b.buf, wr := b.wr, count := b.count, writing := b.writing, wstart := b.wstart, wbytes := b.wbytes
    wlost := b.wlost, nchunks := b.nchunks }

/-- `b` differs from `a` at most in the fields the chunk operations of a writer own. -/
def WriterFrame (a b : Channel) : Prop := a.withWriter b = b

theorem WriterFrame.refl (a : Channel) : WriterFrame a a := rfl

theorem WriterFrame.trans (hab : WriterFrame a b) (hbc : WriterFrame b c) : WriterFrame a c :=
  calc
    a.withWriter c = (a.withWriter b).withWriter c := rfl
    _ = b.withWriter c := congrArg (fun x : Channel => x.withWriter c) hab
    _ = c := hbc

theorem writerFrame_chunkStart : WriterFrame ch (chunkStart n ch) := by
  by_cases hc : ch.count < n
  · rw [chunkStart_room n ch hc]; rfl
  · rw [chunkStart_full n ch hc]; rfl

theorem writerFrame_chunkPut (v : Byte) : WriterFrame ch (chunkPut n v ch) := by
  rcases chunkPut_cases n ch v with ⟨-, e⟩ | ⟨-, -, e⟩ | ⟨-, -, -, e⟩ <;> rw [e] <;> rfl

theorem writerFrame_chunkPutAll (bs : List Byte) : WriterFrame ch (chunkPutAll n bs ch) := by
  induction bs generalizing ch with
  | nil => exact WriterFrame.refl ch
  | cons v bs ih => exact (writerFrame_chunkPut v).trans ih

theorem writerFrame_chunkAbort : WriterFrame ch (chunkAbort ch) := rfl

theorem writerFrame_chunkEnd : WriterFrame ch (chunkEnd n ch) := by
  cases hl : ch.wlost with
  | true => rw [chunkEnd_lost n ch hl]; exact writerFrame_chunkAbort
  | false => rw [chunkEnd_commits n ch hl]; rfl

theorem writerFrame_written (bs : List Byte) : WriterFrame ch (chunkPutAll n bs (chunkStart n ch)) :=
  writerFrame_chunkStart.trans (writerFrame_chunkPutAll bs)

/-- Between two channels with no chunk open for writing, a writer's operations show in the storage, the write cursor and
the two counts (10_state.md R39). -/
theorem WriterFrame.eq_of_closed (h : WriterFrame a b) (hwriting : b.writing = a.writing) (hbytes : b.wbytes = a.wbytes)
    (hlost : b.wlost = a.wlost) :
    b = { a with buf := b.buf, wstart := b.wstart, wr := b.wr, count := b.count, nchunks := b.nchunks } :=
  h.symm.trans (by rw [Channel.withWriter, hwriting, hbytes, hlost])

theorem nchunks_chunkPutAll (bs : List Byte) : (chunkPutAll n bs ch).nchunks = ch.nchunks := by
  induction bs generalizing ch with
  | nil => rfl
  | cons v bs ih => exact ih.trans (nchunks_chunkPut v)

theorem nchunks_written (bs : List Byte) : (chunkPutAll n bs (chunkStart n ch)).nchunks = ch.nchunks :=
  (nchunks_chunkPutAll bs).trans nchunks_chunkStart

theorem writing_written (bs : List Byte) : (chunkPutAll n bs (chunkStart n ch)).writing = true :=
  (writing_chunkPutAll bs).trans writing_chunkStart

theorem count_le_chunkStart : ch.count ≤ (chunkStart n ch).count := by
  by_cases hc : ch.count < n
  · exact Nat.le_trans (Nat.le_succ _) (Nat.le_of_eq (congrArg Channel.count (chunkStart_room n ch hc)).symm)
  · exact Nat.le_of_eq (congrArg Channel.count (chunkStart_full n ch hc)).symm

theorem count_le_chunkPut (v : Byte) : ch.count ≤ (chunkPut n v ch).count := by
  rcases chunkPut_cases n ch v with ⟨-, e⟩ | ⟨-, -, e⟩ | ⟨-, -, -, e⟩
  · exact Nat.le_of_eq (congrArg Channel.count e).symm
  · exact Nat.le_of_eq (congrArg Channel.count e).symm
  · exact Nat.le_trans (Nat.le_succ _) (Nat.le_of_eq (congrArg Channel.count e).symm)

/-- Appended bytes keep every byte stored before them (20_memory.md R75). -/
theorem rbPeek_chunkPutAll (bs : List Byte) (h : ch.Inv n) (hw : ch.writing = true) {k : Nat} (hk : k < ch.count) :
    rbPeek n k (chunkPutAll n bs ch) = rbPeek n k ch := by
  induction bs generalizing ch with
  | nil => rfl
  | cons v bs ih =>
    have hput := ih (inv_chunkPut v h hw) ((writing_chunkPut v).trans hw) (Nat.lt_of_lt_of_le hk (count_le_chunkPut v))
    exact hput.trans (rbPeek_chunkPut v h.wrPlace hk)

/-- Writing a chunk keeps every byte stored before it (20_memory.md R75). -/
theorem rbPeek_written (bs : List Byte) (h : ch.Inv n) (hclosed : ch.writing = false) {k : Nat} (hk : k < ch.count) :
    rbPeek n k (chunkPutAll n bs (chunkStart n ch)) = rbPeek n k ch :=
  have hk' := Nat.lt_of_lt_of_le hk (count_le_chunkStart (n := n))
  (rbPeek_chunkPutAll bs (inv_chunkStart h hclosed) writing_chunkStart hk').trans (rbPeek_chunkStart h.wrPlace hk)

/-- A chunk that fits occupies its bytes and its length byte (10_state.md R37, R39). -/
theorem count_written (bs : List Byte) (hn : n ≤ 256) (h : ch.Inv n) (hclosed : ch.writing = false)
    (hfit : ch.count + bs.length + 1 ≤ n) :
    (chunkPutAll n bs (chunkStart n ch)).count = ch.count + bs.length + 1 := by
  obtain ⟨hl, hcontent⟩ := written_fits bs hn h hclosed hfit
  have hinv := inv_chunkPutAll bs (inv_chunkStart h hclosed) writing_chunkStart
  have hfreed := congrArg Prod.snd (afterAbort_written n ch bs)
  obtain ⟨hsum, hpos, -, -⟩ := hinv.open_chunk (writing_written bs) hl
  have hlen := congrArg List.length hcontent
  rw [openContent, List.length_map, List.length_range] at hlen
  simp only [afterAbort, chunkAbort] at hfreed
  omega

/-- Discarding a chunk gives the channel back as it was before the chunk's start, but for storage past the stored bytes
and `wstart` (40_channel.md R169). -/
theorem chunkAbort_written (bs : List Byte) (h : ch.Inv n) (hclosed : ch.writing = false) :
    chunkAbort (chunkPutAll n bs (chunkStart n ch))
      = { ch with
          buf := (chunkAbort (chunkPutAll n bs (chunkStart n ch))).buf
          wstart := (chunkAbort (chunkPutAll n bs (chunkStart n ch))).wstart } := by
  obtain ⟨hbytes, hlost⟩ := h.writeClosed hclosed
  obtain ⟨hwr, hcount⟩ := Prod.mk.inj (afterAbort_written n ch bs)
  have hnchunks := (nchunks_chunkAbort (ch := chunkPutAll n bs (chunkStart n ch))).trans (nchunks_written bs)
  have hframe := (writerFrame_written (n := n) (ch := ch) bs).trans writerFrame_chunkAbort
  exact (hframe.eq_of_closed hclosed.symm hbytes.symm hlost.symm).trans (by rw [hwr, hcount, hnchunks])

/-- Committing a chunk that fits adds its bytes, its length byte and one chunk to what the channel holds
(40_channel.md R156). -/
theorem chunkEnd_written (bs : List Byte) (hn : n ≤ 256) (h : ch.Inv n) (hclosed : ch.writing = false)
    (hfit : ch.count + bs.length + 1 ≤ n) :
    chunkEnd n (chunkPutAll n bs (chunkStart n ch))
      = { ch with
          buf := (chunkEnd n (chunkPutAll n bs (chunkStart n ch))).buf
          wstart := (chunkEnd n (chunkPutAll n bs (chunkStart n ch))).wstart
          wr := (chunkEnd n (chunkPutAll n bs (chunkStart n ch))).wr
          count := ch.count + bs.length + 1
          nchunks := ch.nchunks + 1 } := by
  obtain ⟨hbytes, hlost⟩ := h.writeClosed hclosed
  obtain ⟨hl, -⟩ := written_fits bs hn h hclosed hfit
  have hend := chunkEnd_commits n _ hl
  have hcount := (congrArg Channel.count hend).trans (count_written bs hn h hclosed hfit)
  have hnchunks := (congrArg Channel.nchunks hend).trans (congrArg (· + 1) (nchunks_written bs))
  have hframe := (writerFrame_written (n := n) (ch := ch) bs).trans (writerFrame_chunkEnd (n := n))
  refine (hframe.eq_of_closed ?_ ?_ ?_).trans (by rw [hcount, hnchunks])
  · rw [writing_chunkEnd, hclosed]
  · exact (congrArg Channel.wbytes hend).trans hbytes.symm
  · exact (congrArg Channel.wlost hend).trans (hl.trans hlost.symm)

end

/-! ### The commands case by case (43_wire_encoder.md R282 to R288) -/

variable {s : State} {i : Instr} {bs : List Byte}

theorem exec_encBegin_open (hopen : s.encOpen = true) :
    exec .encBegin s = .next (recordFault 0x5 0x0 .encAlreadyOpen s) := if_pos hopen

theorem exec_encBegin_nested (hclosed : s.encOpen = false) (hw : s.ch2.writing = true) :
    exec .encBegin s = .next (recordFault 0x5 0x0 .nestedWriteStart s) :=
  (if_neg (by rw [hclosed]; decide)).trans (if_pos hw)

theorem exec_encBegin_opens (hclosed : s.encOpen = false) (hw : s.ch2.writing = false) :
    exec .encBegin s
      = .next { s with
          encOpen := true, encValid := !(chunkStart s.cfg.n2 s.ch2).wlost, ch2 := chunkStart s.cfg.n2 s.ch2 } :=
  (if_neg (by rw [hclosed]; decide)).trans (if_neg (by rw [hw]; decide))

/-- A field command with legal operands appends its bytes to the open message (43_wire_encoder.md R283 to R286). -/
theorem exec_field (hi : fieldBytes i = some bs) (s : State) :
    exec i s = if !s.encOpen then raiseFault i .encNotOpen s else .next (encPut bs s) := by
  cases i with
  | encFixed w v =>
    obtain ⟨n, hwidth, rfl⟩ := Option.map_eq_some_iff.1 hi
    simp only [exec, execEncFixed, hwidth]
  | encVarint v =>
    cases hi
    rfl
  | encTvarint tag v =>
    obtain ⟨htag, hbs⟩ := Option.ite_none_left_eq_some.1 hi
    cases hbs
    exact if_neg htag
  | encTfixed32 tag v =>
    obtain ⟨htag, hbs⟩ := Option.ite_none_left_eq_some.1 hi
    cases hbs
    exact if_neg htag
  | _ => cases hi

theorem exec_field_closed (hi : fieldBytes i = some bs) (hclosed : s.encOpen = false) :
    exec i s = .next (recordFault (unitOf i) (opOf i) .encNotOpen s) :=
  (exec_field hi s).trans (if_pos (by rw [hclosed]; rfl))

theorem exec_field_open (hi : fieldBytes i = some bs) (hopen : s.encOpen = true) :
    exec i s = .next (encPut bs s) :=
  (exec_field hi s).trans (if_neg (by rw [hopen]; decide))

theorem exec_encFixed_badWidth {w : Byte} (v : Word) (h : widthOperand w = none) :
    exec (.encFixed w v) s = .next (recordFault 0x5 0x1 .badOperand s) := by
  simp only [exec, execEncFixed, h]
  rfl

theorem exec_encEnd_closed (hclosed : s.encOpen = false) :
    exec .encEnd s = .next (recordFault 0x5 0x5 .encNotOpen s) := if_pos (by rw [hclosed]; rfl)

/-- The message is valid exactly when it is committed, and `RESULT` says so (43_wire_encoder.md R287). -/
theorem exec_encEnd_open (hopen : s.encOpen = true) :
    exec .encEnd s
      = .next { s with
          result := boolWord s.encValid, encOpen := false, encValid := false
          ch2 := chunkClose s.encValid s.cfg.n2 s.ch2 } := by
  refine (if_neg (by rw [hopen]; decide)).trans ?_
  rw [onChan_chunkClose, Bool.decide_eq_true]
  rfl

/-! ### A whole message (43_wire_encoder.md R289) -/

/-- `encValid` says whether CH2's open chunk is still not lost (43_wire_encoder.md R281). -/
theorem encPut_nil (hvalid : s.encValid = !s.ch2.wlost) : encPut [] s = s := by
  show { s with encValid := !s.ch2.wlost } = s
  rw [← hvalid]

theorem encPut_append (bs cs : List Byte) (s : State) : encPut (bs ++ cs) s = encPut cs (encPut bs s) := by
  have hrun := chunkPutAll_append s.cfg.n2 s.ch2 bs cs
  exact congrArg (fun ch => { s with ch2 := ch, encValid := !ch.wlost }) hrun

/-- The fields of a message append their bytes in order, as one run. -/
theorem execAll_fields {fields : List Instr} {bytes : List (List Byte)} (hopen : s.encOpen = true)
    (hvalid : s.encValid = !s.ch2.wlost) (h : fields.map fieldBytes = bytes.map some) :
    execAll fields s = .next (encPut bytes.flatten s) := by
  induction fields generalizing s bytes with
  | nil =>
    cases List.map_eq_nil_iff.1 h.symm
    rw [List.flatten_nil, encPut_nil hvalid]
    rfl
  | cons i fields ih =>
    obtain ⟨bs, bytes, rfl, hi, hfields⟩ := List.map_eq_cons_iff.1 h.symm
    rw [execAll_cons (exec_field_open hi.symm hopen), ih (s := encPut bs s) hopen rfl hfields.symm, List.flatten_cons,
      encPut_append]

/-- A message is one chunk of CH2, closed by whether all of its bytes fitted; the encoder is closed as before. -/
theorem execAll_message {fields : List Instr} {bytes : List (List Byte)} {w : Channel} (hs : s.Inv)
    (hclosed : s.encOpen = false) (hw : s.ch2.writing = false) (h : fields.map fieldBytes = bytes.map some)
    (hwritten : chunkPutAll s.cfg.n2 bytes.flatten (chunkStart s.cfg.n2 s.ch2) = w) :
    execAll ([.encBegin] ++ fields ++ [.encEnd]) s
      = .next { s with result := boolWord (!w.wlost), ch2 := chunkClose (!w.wlost) s.cfg.n2 w } := by
  subst hwritten
  have hbefore : { s with encOpen := false, encValid := false } = s :=
    calc
      { s with encOpen := false, encValid := false } = { s with encValid := false } :=
        congrArg (fun isOpen => { s with encOpen := isOpen, encValid := false }) hclosed.symm
      _ = s := congrArg (fun valid => { s with encValid := valid }) (hs.encClosed hclosed).symm
  rw [List.append_assoc, List.singleton_append, execAll_cons (exec_encBegin_opens hclosed hw),
    execAll_append (execAll_fields rfl rfl h), execAll_cons (exec_encEnd_open rfl), ← hbefore]
  rfl

end Sys2Proof.Machine

namespace Sys2Proof.Proofs

open Sys2Proof.Machine

/-- Settles O52: the message's commands are one chunk's start, bytes and close. When it fits it is committed, with the
counts its bytes make; when it does not it is lost, and discarding it gives CH2 back with every byte stored before. -/
theorem messageCommitsWholeOrNotAtAll : Obligations.MessageCommitsWholeOrNotAtAll := by
  intro s fields bytes hs hclosed hw hfields
  have hn : s.cfg.n2 ≤ 256 := (capacity_range hs.config .ch2).2
  have hinv : s.ch2.Inv s.cfg.n2 := hs.channels .ch2
  refine ⟨_, execAll_message hs hclosed hw hfields rfl, rfl, fun hfit => ?_, fun hover => ?_⟩
  · obtain ⟨hl, -⟩ := written_fits bytes.flatten hn hinv hw hfit
    obtain ⟨-, hcommits⟩ := (chunkCommitsWholeOrNotAtAll _ _ bytes.flatten hn hinv hw).1 hfit
    rw [hl]
    exact ⟨rfl, hcommits, chunkEnd_written bytes.flatten hn hinv hw hfit⟩
  · have hl := written_lost bytes.flatten hinv hw hover
    obtain ⟨hcount, -, hsame⟩ := abortedChunkLeavesNoTrace _ _ bytes.flatten hinv hw
    rw [hl]
    refine ⟨rfl, hsame, chunkAbort_written bytes.flatten hinv hw,
      fun k hk => rbPeek_written bytes.flatten hinv hw hk, ?_, rfl⟩
    exact congrArg (fun count => Host.Outcome.next (State.setResult _ (BitVec.ofNat 32 (s.cfg.n2 - count)))) hcount

/-- Settles O49: by open message, by open chunk, then by the room for the length byte. -/
theorem encBeginOpensMessage : Obligations.EncBeginOpensMessage := by
  intro s
  refine ⟨decode_row .encBegin, exec_encBegin_open, exec_encBegin_nested, fun hclosed hw hc hwr => ?_,
    fun hclosed hw hc => ?_⟩
  · obtain ⟨buf, hbuf, e⟩ := chunkStart_stores hc hwr
    exact ⟨buf, hbuf, by rw [exec_encBegin_opens hclosed hw, e]; rfl⟩
  · rw [exec_encBegin_opens hclosed hw, chunkStart_full _ _ hc]
    rfl

/-- Settles O50: operands are checked first; a field's bytes are then appended or, with no message open, fault. -/
theorem encFieldsAppendBytes : Obligations.EncFieldsAppendBytes := by
  intro s w tag v
  have hfixed (n : Nat) (hn : n = 1 ∨ n = 2 ∨ n = 4) :
      fieldBytes (.encFixed (BitVec.ofNat 8 n) v) = some (fixedBytes n v) := by
    rcases hn with rfl | rfl | rfl <;> rfl
  have htvarint (htag : tag ≠ 0) : fieldBytes (.encTvarint tag v) = some (fieldKey tag 0 ++ varint v) := if_neg htag
  have htfixed (htag : tag ≠ 0) : fieldBytes (.encTfixed32 tag v) = some (fieldKey tag 5 ++ fixedBytes 4 v) :=
    if_neg htag
  refine ⟨⟨decode_row (.encFixed 0 0) w v, fun imm => decode_row (.encVarint 0) imm v,
      decode_row (.encTvarint 0 0) tag v, decode_row (.encTfixed32 0 0) tag v⟩,
    fun h1 h2 h4 => ?_, rfl, rfl, fun hclosed hw => ?_,
    fun hclosed => exec_field_closed (i := .encVarint v) rfl hclosed,
    fun hclosed htag => ⟨exec_field_closed (htvarint htag) hclosed, exec_field_closed (htfixed htag) hclosed⟩,
    fun hopen => ⟨fun n hn => exec_field_open (hfixed n hn) hopen, exec_field_open (i := .encVarint v) rfl hopen,
      fun htag => ⟨exec_field_open (htvarint htag) hopen, exec_field_open (htfixed htag) hopen⟩⟩⟩
  · exact exec_encFixed_badWidth v (by rw [widthOperand, if_neg h1, if_neg h2, if_neg h4])
  · rcases hw with rfl | rfl | rfl
    · exact exec_field_closed (hfixed 1 (.inl rfl)) hclosed
    · exact exec_field_closed (hfixed 2 (.inr (.inl rfl))) hclosed
    · exact exec_field_closed (hfixed 4 (.inr (.inr rfl))) hclosed

/-- Settles O51: by open message, then by `encValid`, which chooses between committing and discarding. -/
theorem encEndClosesMessage : Obligations.EncEndClosesMessage := by
  intro s
  refine ⟨fun imm data => ⟨decode_row .encEnd imm data, decode_row .encStatus imm data⟩, exec_encEnd_closed,
    fun hopen hvalid => ?_, fun hopen hvalid => ?_, rfl⟩
  · rw [exec_encEnd_open hopen, hvalid]
    rfl
  · rw [exec_encEnd_open hopen, hvalid]
    rfl

end Sys2Proof.Proofs
end

section
/-! PROOFS. The chunk open for reading on a channel stays open, and stays the same bytes, until `CH_READ_END` on that
channel releases it (20_memory.md R88, 40_channel.md R166). A unit's frame keeps the readers of the other channels; on
its own channel it only writes. That the bytes stay is the channel's queue of chunks: a command that releases nothing
keeps the oldest. -/

namespace Sys2Proof.Machine

variable {s t : State} {c d : Chan} {i : Instr}

/-! ### Readers that a unit's frame keeps -/

theorem sameReader_onChan {f : Nat → Channel → Channel}
    (h : d = c → SameReader (s.chan d) (f (s.capacity d) (s.chan d))) :
    SameReader (s.chan c) ((s.onChan d f).chan c) := by
  by_cases hd : d = c
  · subst hd
    rw [State.onChan_self]
    exact h rfl
  · rw [State.onChan_ne s d f c (Ne.symm hd)]
    exact SameReader.refl _

theorem ReceiverFrame.sameReader (h : ReceiverFrame s t) (hown : SameReader s.ch0 t.ch0) :
    SameReader (s.chan c) (t.chan c) := by
  cases c with
  | ch0 => exact hown
  | ch1 => rw [← h]; exact SameReader.refl _
  | ch2 => rw [← h]; exact SameReader.refl _

theorem PulseFrame.sameReader (h : PulseFrame s t) (hown : SameReader s.ch1 t.ch1) :
    SameReader (s.chan c) (t.chan c) := by
  cases c with
  | ch0 => rw [← h]; exact SameReader.refl _
  | ch1 => exact hown
  | ch2 => rw [← h]; exact SameReader.refl _

theorem EncoderFrame.sameReader (h : EncoderFrame s t) (hown : SameReader s.ch2 t.ch2) :
    SameReader (s.chan c) (t.chan c) := by
  cases c with
  | ch0 => rw [← h]; exact SameReader.refl _
  | ch1 => rw [← h]; exact SameReader.refl _
  | ch2 => exact hown

/-- The decoder never changes a channel (44_wire_decoder.md R310). -/
theorem DecoderFrame.chan_eq (h : DecoderFrame s t) (c : Chan) : t.chan c = s.chan c := by
  rw [← h]
  cases c <;> rfl

/-! ### What the units do to the readers of their own channels -/

theorem sameReader_rxFreed : SameReader s.ch0 (rxFreed s) := by
  unfold rxFreed
  split
  · exact SameReader.refl _
  · exact sameReader_chunkAbort

theorem sameReader_rxDataByte (b : Byte) : SameReader s.ch0 (rxDataByte b s).ch0 := by
  by_cases h1 : s.rxRem = 1
  · rw [rxDataByte_last b h1]
    exact sameReader_chunkClose _
  · by_cases h2 : 2 < s.rxRem
    · rw [rxDataByte_payload b h2]
      exact sameReader_chunkPut b
    · rw [rxDataByte_crc b h2 h1]
      exact SameReader.refl _

theorem PulseStep.sameReader {n : Nat} {a b : Channel} {phase : PdPhase} (h : PulseStep n a phase b) :
    SameReader a b := by
  cases h with
  | keep => exact SameReader.refl _
  | start => exact sameReader_chunkStart
  | abort => exact sameReader_chunkAbort
  | put v => exact sameReader_chunkPut v
  | close v keep => exact (sameReader_chunkPut v).trans (sameReader_chunkClose keep)

/-! ### Commands -/

/-- In the answered state channel `c` is open for reading as it is in `s`, on a chunk of the same length. -/
abbrev KeepsReader (c : Chan) (s : State) : Outcome → Prop := Answers (fun t => SameReader (s.chan c) (t.chan c))

theorem sameReader_recordFault (unit op : Nibble) (cause : FaultCause) :
    SameReader (s.chan c) ((recordFault unit op cause s).chan c) := by
  rw [recordFault_chan]
  exact SameReader.refl _

theorem keepsReader_raiseFault (j : Instr) (cause : FaultCause) : KeepsReader c s (raiseFault j cause s) :=
  answers_raiseFault sameReader_recordFault

theorem keepsReader_guard {p : Prop} [Decidable p] {j : Instr} {cause : FaultCause} {o : Outcome}
    (h : ¬p → KeepsReader c s o) : KeepsReader c s (if p then raiseFault j cause s else o) :=
  answers_guard sameReader_recordFault h

theorem keepsReader_decoder (h : DecoderFrame s t) : KeepsReader c s (.next t) := by
  refine answers_next ?_
  rw [h.chan_eq]
  exact SameReader.refl _

theorem keepsReader_reply (v : Word) : KeepsReader c s (.next (s.setResult v)) := keepsReader_decoder rfl

/-- An operation on one channel, with a reply or without. -/
theorem keepsReader_onChan {f : Nat → Channel → Channel}
    (h : d = c → SameReader (s.chan d) (f (s.capacity d) (s.chan d))) : KeepsReader c s (.next (s.onChan d f)) :=
  answers_next (sameReader_onChan h)

theorem keepsReader_onChan_reply {f : Nat → Channel → Channel} (v : Word)
    (h : d = c → SameReader (s.chan d) (f (s.capacity d) (s.chan d))) :
    KeepsReader c s (.next ((s.onChan d f).setResult v)) := by
  refine answers_next ?_
  rw [State.setResult_chan]
  exact sameReader_onChan h

/-- `CH_READ_START` on a channel open for reading faults (40_channel.md R163). -/
theorem keepsReader_execChReadStart (hopen : (s.chan c).ropen = true) : KeepsReader c s (execChReadStart d s) :=
  keepsReader_guard fun hclosed => keepsReader_guard fun _ => keepsReader_onChan_reply _ fun hd =>
    absurd (hd ▸ hopen) hclosed

theorem keepsReader_execChReadEnd (hd : d ≠ c) : KeepsReader c s (execChReadEnd d s) := by
  refine keepsReader_guard fun _ => answers_next ?_
  rw [(decoderFrame_closeDecode d).chan_eq]
  exact sameReader_onChan fun h => absurd h hd

theorem keepsReader_execRxByte (b : Byte) : KeepsReader c s (execRxByte b s) := by
  unfold execRxByte
  split
  · exact answers_next (SameReader.refl _)
  · exact answers_next (ReceiverFrame.sameReader rfl (SameReader.refl _))
  · exact answers_next ((receiverFrame_rxDataByte b).sameReader (sameReader_rxDataByte b))

/-- A field command past its operand check. -/
theorem keepsReader_encField (j : Instr) (bs : List Byte) :
    KeepsReader c s (if !s.encOpen then raiseFault j .encNotOpen s else .next (encPut bs s)) :=
  keepsReader_guard fun _ => answers_next (EncoderFrame.sameReader rfl (sameReader_chunkPutAll bs))

theorem keepsReader_execEncFixed (w : Byte) (v : Word) : KeepsReader c s (execEncFixed w v s) := by
  unfold execEncFixed
  split
  · exact keepsReader_raiseFault _ _
  · exact keepsReader_encField _ _

theorem keepsReader_execEncEnd : KeepsReader c s (execEncEnd s) :=
  keepsReader_guard fun _ => by
    rw [onChan_chunkClose]
    exact answers_next (EncoderFrame.sameReader rfl (sameReader_chunkClose _))

theorem keepsReader_execDecBegin (ch : BitVec 2) : KeepsReader c s (execDecBegin ch s) := by
  unfold execDecBegin
  split
  · exact keepsReader_raiseFault _ _
  · exact keepsReader_guard fun _ => keepsReader_decoder rfl

theorem keepsReader_execDecFixed (w : Byte) : KeepsReader c s (execDecFixed w s) := by
  unfold execDecFixed
  split
  · exact keepsReader_raiseFault _ _
  · refine keepsReader_guard fun _ => ?_
    split
    · exact keepsReader_decoder rfl
    · exact keepsReader_decoder rfl

theorem keepsReader_execDecVarint : KeepsReader c s (execDecVarint s) := by
  refine keepsReader_guard fun _ => ?_
  split
  · exact keepsReader_decoder rfl
  · split
    · exact keepsReader_decoder rfl
    · exact keepsReader_decoder rfl

/-- Every command but `CH_READ_END` on the channel leaves a channel that is open for reading open, on a chunk of the
same length. -/
theorem exec_keepsReader (hopen : (s.chan c).ropen = true) (hi : i ≠ .chReadEnd c) : KeepsReader c s (exec i s) := by
  cases i with
  | chWriteStart d =>
    exact keepsReader_guard fun _ => keepsReader_guard fun _ => keepsReader_onChan fun _ => sameReader_chunkStart
  | chWrite d b =>
    exact keepsReader_guard fun _ => keepsReader_guard fun _ => keepsReader_onChan fun _ => sameReader_chunkPut b
  | chWriteEnd d =>
    exact keepsReader_guard fun _ => keepsReader_guard fun _ => keepsReader_onChan_reply _ fun _ => sameReader_chunkEnd
  | chWriteAbort d =>
    exact keepsReader_guard fun _ => keepsReader_guard fun _ => keepsReader_onChan fun _ => sameReader_chunkAbort
  | chHasContent d => exact keepsReader_reply _
  | chReadStart d => exact keepsReader_execChReadStart hopen
  | chRead d =>
    exact keepsReader_guard fun _ => keepsReader_guard fun _ => keepsReader_onChan_reply _ fun _ => ⟨rfl, rfl⟩
  | chPeek d k => exact keepsReader_guard fun _ => keepsReader_guard fun _ => keepsReader_reply _
  | chReadEnd d => exact keepsReader_execChReadEnd fun hd => hi (congrArg Instr.chReadEnd hd)
  | chAvail d => exact keepsReader_reply _
  | chIsWriting d => exact keepsReader_reply _
  | rxStart b =>
    rw [exec_rxStart]
    exact answers_next (ReceiverFrame.sameReader rfl
      ((sameReader_rxFreed.trans sameReader_chunkStart).trans (sameReader_chunkPutAll [b])))
  | rxByte b => exact keepsReader_execRxByte b
  | rxIsWriting => exact keepsReader_reply _
  | pulse isHigh d =>
    exact answers_next ((pulseFrame_pdEvent isHigh d).sameReader (stepsPulse_pdEvent isHigh d).sameReader)
  | pdStatus => exact keepsReader_reply _
  | encBegin =>
    exact keepsReader_guard fun _ => keepsReader_guard fun _ =>
      answers_next (EncoderFrame.sameReader rfl sameReader_chunkStart)
  | encFixed w v => exact keepsReader_execEncFixed w v
  | encVarint v => exact keepsReader_encField _ _
  | encTvarint tag v => exact keepsReader_guard fun _ => keepsReader_encField _ _
  | encTfixed32 tag v => exact keepsReader_guard fun _ => keepsReader_encField _ _
  | encEnd => exact keepsReader_execEncEnd
  | encStatus => exact keepsReader_reply _
  | decBegin ch => exact keepsReader_execDecBegin ch
  | decFixed w => exact keepsReader_execDecFixed w
  | decVarint => exact keepsReader_execDecVarint
  | decRemain => exact keepsReader_guard fun _ => keepsReader_reply _
  | decStatus => exact keepsReader_reply _
  | nop => exact keepsReader_decoder rfl
  | ctrlRead => exact keepsReader_reply _
  | ctrlWrite v =>
    refine answers_next ?_
    cases c <;> exact SameReader.refl _
  | faultRead => exact keepsReader_reply _

/-! ### The chunk open for reading -/

variable {chunk : List Byte}

/-- Channel `c` is open for reading on its oldest committed chunk, whose content is `chunk` (20_memory.md R89). -/
structure Reading (c : Chan) (chunk : List Byte) (s : State) : Prop where
  inv : s.Inv
  isOpen : (s.chan c).ropen = true
  oldest : (s.committed c).head? = some chunk

/-- An open reader holds a committed chunk (10_state.md R38). -/
theorem exists_reading (hi : s.Inv) (hopen : (s.chan c).ropen = true) : ∃ chunk, Reading c chunk s := by
  obtain ⟨hpos, -, -⟩ := (hi.channels c).readOpen hopen
  have hlen : (s.committed c).length = (s.chan c).nchunks := (List.length_map _).trans List.length_range
  cases hq : s.committed c with
  | nil => rw [hq, List.length_nil] at hlen; omega
  | cons chunk rest => exact ⟨chunk, hi, hopen, by rw [hq, List.head?_cons]⟩

/-- No command but `CH_READ_END` on the channel changes the chunk open for reading (20_memory.md R88). -/
theorem Reading.of_exec (h : Reading c chunk s) (hi : i ≠ .chReadEnd c) (hexec : exec i s = .next t) :
    Reading c chunk t := by
  have hreader := (exec_keepsReader h.isOpen hi).of_next hexec
  refine ⟨(exec_answersInv i h.inv).of_next hexec, hreader.ropen.trans h.isOpen, ?_⟩
  rcases (exec_answersQueue i h.inv).of_next hexec c with hsame | ⟨-, hend⟩ | ⟨added, happend, -⟩
  · rw [hsame, h.oldest]
  · exact absurd hend hi
  · rw [happend, List.head?_append, h.oldest, Option.some_or]

theorem Reading.of_execAll {is : List Instr} (h : Reading c chunk s) (his : ∀ i ∈ is, i ≠ .chReadEnd c)
    (hexec : execAll is s = .next t) : Reading c chunk t := by
  induction is generalizing s with
  | nil => cases hexec; exact h
  | cons i is ih =>
    obtain ⟨u, hu, -⟩ := exec_keepsPort i s
    rw [execAll_cons hu] at hexec
    obtain ⟨hi, his⟩ := List.forall_mem_cons.1 his
    exact ih (h.of_exec hi hu) his hexec

theorem Reading.contentByte_eq (h : Reading c chunk s) {j : Nat} (hj : j < chunk.length) :
    s.contentByte c j = chunk[j] := by
  obtain ⟨rest, hq⟩ := List.head?_eq_some_iff.1 h.oldest
  exact (oldest_chunk_byte h.inv hq h.isOpen (List.getElem?_eq_getElem hj)).2

theorem Reading.rlen_eq (h : Reading c chunk s) : (s.chan c).rlen = chunk.length := by
  obtain ⟨rest, hq⟩ := List.head?_eq_some_iff.1 h.oldest
  obtain ⟨-, hlen, -⟩ := (h.inv.channels c).readOpen h.isOpen
  obtain ⟨-, hchunk⟩ := oldest_chunk_stored hq
  rw [hchunk, length_storedBytes, hlen]

end Sys2Proof.Machine
end

section
/-! PROOFS. The wire decoder (44_wire_decoder.md R310 to R317). One equation per case of a command; every reply of a
decode is then a function of its cursor, of whether it is good and of the content bytes, so two decodes of one chunk
reply alike. -/

namespace Sys2Proof.Machine

variable {s t : State} {i : Instr} {c : Chan} {w : Byte} {n : Nat}

/-! ### The commands case by case (44_wire_decoder.md R312 to R316) -/

theorem channelOperand_chanOperand (c : Chan) : channelOperand (chanOperand c) = some c := by cases c <;> rfl

theorem exec_decBegin_noSource (hclosed : (s.chan c).ropen = false) :
    exec (.decBegin (chanOperand c)) s = .next (recordFault 0x6 0x0 .decNoSource s) := by
  simp only [exec, execDecBegin, channelOperand_chanOperand, hclosed]
  rfl

/-- The state with a good decode open at the start of the chunk open for reading on `c` (44_wire_decoder.md R312). -/
def decStarted (c : Chan) (s : State) : State := { s with decOpen := true, decCh := c, decPos := 0, decOk := true }

theorem exec_decBegin_starts (hopen : (s.chan c).ropen = true) :
    exec (.decBegin (chanOperand c)) s = .next (decStarted c s) := by
  simp only [exec, execDecBegin, channelOperand_chanOperand, hopen]
  rfl

theorem widthOperand_toNat (hw : w = 1 ∨ w = 2 ∨ w = 4) : widthOperand w = some w.toNat := by
  rcases hw with rfl | rfl | rfl <;> rfl

theorem widthOperand_eq_none (h1 : w ≠ 1) (h2 : w ≠ 2) (h4 : w ≠ 4) : widthOperand w = none :=
  (if_neg h1).trans ((if_neg h2).trans (if_neg h4))

theorem exec_decFixed_badWidth (hw : widthOperand w = none) :
    exec (.decFixed w) s = .next (recordFault 0x6 0x1 .badOperand s) := by
  simp only [exec, execDecFixed, hw]
  rfl

theorem exec_decFixed_closed (hw : widthOperand w = some n) (hclosed : s.decOpen = false) :
    exec (.decFixed w) s = .next (recordFault 0x6 0x1 .decNotOpen s) := by
  simp only [exec, execDecFixed, hw, hclosed]
  rfl

theorem exec_decFixed_fails (hw : widthOperand w = some n) (hopen : s.decOpen = true)
    (hfails : s.decOk = false ∨ s.decLen < s.decPos + n) : exec (.decFixed w) s = .next (decFail s) := by
  have hguard : (!s.decOk || decide (s.decPos + n > s.decLen)) = true := by
    rw [Bool.or_eq_true, Bool.not_eq_true', decide_eq_true_eq]
    exact hfails
  simp only [exec, execDecFixed, hw, hopen, hguard]
  rfl

theorem exec_decFixed_reads (hw : widthOperand w = some n) (hopen : s.decOpen = true) (hok : s.decOk = true)
    (hfits : s.decPos + n ≤ s.decLen) :
    exec (.decFixed w) s = .next (decAdvance n (fixedValue (s.contentBytes s.decCh s.decPos n)) s) := by
  simp only [exec, execDecFixed, hw, hopen, hok, decide_eq_false (Nat.not_lt_of_le hfits)]
  rfl

theorem exec_decVarint_closed (hclosed : s.decOpen = false) :
    exec .decVarint s = .next (recordFault 0x6 0x2 .decNotOpen s) := if_pos (by rw [hclosed]; rfl)

theorem exec_decVarint_failed (hopen : s.decOpen = true) (hok : s.decOk = false) :
    exec .decVarint s = .next (s.setResult 0) :=
  (if_neg (by rw [hopen]; decide)).trans (if_pos (by rw [hok]; rfl))

/-- The content bytes not yet decoded (44_wire_decoder.md R314, R315). -/
def State.decRest (s : State) : List Byte := s.contentBytes s.decCh s.decPos (s.decLen - s.decPos)

theorem exec_decVarint_malformed (hopen : s.decOpen = true) (hok : s.decOk = true)
    (hbytes : unvarint s.decRest = none) : exec .decVarint s = .next (decFail s) := by
  rw [State.decRest] at hbytes
  simp only [exec, execDecVarint, hopen, hok, hbytes]
  rfl

theorem exec_decVarint_reads {v : Word} (hopen : s.decOpen = true) (hok : s.decOk = true)
    (hbytes : unvarint s.decRest = some (v, n)) : exec .decVarint s = .next (decAdvance n v s) := by
  rw [State.decRest] at hbytes
  simp only [exec, execDecVarint, hopen, hok, hbytes]
  rfl

/-! ### Decodes of the same bytes -/

/-- Two open decodes that stand at the same place of the same content bytes (44_wire_decoder.md R310). -/
structure SameDecode (s t : State) : Prop where
  isOpen : s.decOpen = true
  decOpen_eq : t.decOpen = s.decOpen
  decPos_eq : t.decPos = s.decPos
  decOk_eq : t.decOk = s.decOk
  decLen_eq : t.decLen = s.decLen
  contentByte_eq : ∀ j < s.decLen, t.contentByte t.decCh j = s.contentByte s.decCh j

/-- Two decodes begun on a channel that is open for reading on one chunk in both states. -/
theorem sameDecode_decStarted {chunk : List Byte} (hs : Reading c chunk s) (ht : Reading c chunk t) :
    SameDecode (decStarted c s) (decStarted c t) where
  isOpen := rfl
  decOpen_eq := rfl
  decPos_eq := rfl
  decOk_eq := rfl
  decLen_eq := ht.rlen_eq.trans hs.rlen_eq.symm
  contentByte_eq j hj := by
    have hj' : j < chunk.length := Nat.lt_of_lt_of_eq hj hs.rlen_eq
    exact (ht.contentByte_eq hj').trans (hs.contentByte_eq hj').symm

namespace SameDecode

theorem contentBytes_eq (h : SameDecode s t) {p m : Nat} (hle : p + m ≤ s.decLen) :
    t.contentBytes t.decCh p m = s.contentBytes s.decCh p m := by
  refine List.map_congr_left fun j hmem => h.contentByte_eq _ ?_
  have := List.mem_range.1 hmem
  omega

theorem decRest_eq (h : SameDecode s t) : t.decRest = s.decRest := by
  rw [State.decRest, State.decRest, h.decPos_eq, h.decLen_eq]
  by_cases hle : s.decPos ≤ s.decLen
  · exact h.contentBytes_eq (by omega)
  · rw [Nat.sub_eq_zero_of_le (Nat.le_of_not_le hle)]
    rfl

theorem decFail (h : SameDecode s t) : SameDecode (decFail s) (decFail t) :=
  ⟨h.isOpen, h.decOpen_eq, h.decPos_eq, rfl, h.decLen_eq, h.contentByte_eq⟩

theorem decAdvance (h : SameDecode s t) (m : Nat) (v : Word) : SameDecode (decAdvance m v s) (decAdvance m v t) :=
  ⟨h.isOpen, h.decOpen_eq, congrArg (· + m) h.decPos_eq, h.decOk_eq, h.decLen_eq, h.contentByte_eq⟩

theorem setResult (h : SameDecode s t) (v : Word) : SameDecode (s.setResult v) (t.setResult v) :=
  ⟨h.isOpen, h.decOpen_eq, h.decPos_eq, h.decOk_eq, h.decLen_eq, h.contentByte_eq⟩

end SameDecode

/-- Both outcomes are next states with one reply, and their decodes still stand at the same place. -/
def SameReply (o o' : Outcome) : Prop :=
  ∃ t t', o = .next t ∧ o' = .next t' ∧ t'.result = t.result ∧ SameDecode t t'

theorem sameReply_decFixed (h : SameDecode s t) (hw : widthOperand w = some n) :
    SameReply (exec (.decFixed w) s) (exec (.decFixed w) t) := by
  have hopen := h.decOpen_eq.trans h.isOpen
  by_cases hfails : s.decOk = false ∨ s.decLen < s.decPos + n
  · have hfails' : t.decOk = false ∨ t.decLen < t.decPos + n := by rwa [h.decOk_eq, h.decLen_eq, h.decPos_eq]
    exact ⟨_, _, exec_decFixed_fails hw h.isOpen hfails, exec_decFixed_fails hw hopen hfails', rfl, h.decFail⟩
  · obtain ⟨hok, hfits⟩ := not_or.1 hfails
    have hok : s.decOk = true := eq_true_of_ne_false hok
    have hfits : s.decPos + n ≤ s.decLen := Nat.le_of_not_lt hfits
    have hbytes : t.contentBytes t.decCh t.decPos n = s.contentBytes s.decCh s.decPos n := by
      rw [h.decPos_eq, h.contentBytes_eq hfits]
    have hreads := exec_decFixed_reads hw hopen (h.decOk_eq.trans hok) (by rwa [h.decPos_eq, h.decLen_eq])
    rw [hbytes] at hreads
    exact ⟨_, _, exec_decFixed_reads hw h.isOpen hok hfits, hreads, rfl, h.decAdvance n _⟩

theorem sameReply_decVarint (h : SameDecode s t) : SameReply (exec .decVarint s) (exec .decVarint t) := by
  have hopen := h.decOpen_eq.trans h.isOpen
  cases hok : s.decOk with
  | false =>
    exact ⟨_, _, exec_decVarint_failed h.isOpen hok, exec_decVarint_failed hopen (h.decOk_eq.trans hok), rfl,
      h.setResult 0⟩
  | true =>
    have hok' := h.decOk_eq.trans hok
    cases hbytes : unvarint s.decRest with
    | none =>
      exact ⟨_, _, exec_decVarint_malformed h.isOpen hok hbytes,
        exec_decVarint_malformed hopen hok' (by rw [h.decRest_eq, hbytes]), rfl, h.decFail⟩
    | some taken =>
      exact ⟨_, _, exec_decVarint_reads h.isOpen hok hbytes,
        exec_decVarint_reads hopen hok' (by rw [h.decRest_eq, hbytes]), rfl, h.decAdvance _ _⟩

theorem sameReply_decRemain (h : SameDecode s t) : SameReply (exec .decRemain s) (exec .decRemain t) := by
  have ht := exec_decRemain_open (h.decOpen_eq.trans h.isOpen)
  rw [h.decLen_eq, h.decPos_eq] at ht
  exact ⟨_, _, exec_decRemain_open h.isOpen, ht, rfl, h.setResult _⟩

theorem sameReply_decStatus (h : SameDecode s t) : SameReply (exec .decStatus s) (exec .decStatus t) := by
  have ht : exec .decStatus t = .next (t.setResult (boolWord (s.decOpen && s.decOk))) := by
    rw [← h.decOpen_eq, ← h.decOk_eq]
    rfl
  exact ⟨_, _, rfl, ht, rfl, h.setResult _⟩

/-- The decoder's commands that reply, with the operands that are legal (30_encoding.md R107, R108). -/
def IsDecoderRead (i : Instr) : Prop :=
  i = .decFixed 1 ∨ i = .decFixed 2 ∨ i = .decFixed 4 ∨ i = .decVarint ∨ i = .decRemain ∨ i = .decStatus

theorem sameReply_decoderRead (h : SameDecode s t) (hi : IsDecoderRead i) : SameReply (exec i s) (exec i t) := by
  rcases hi with rfl | rfl | rfl | rfl | rfl | rfl
  · exact sameReply_decFixed h (n := 1) rfl
  · exact sameReply_decFixed h (n := 2) rfl
  · exact sameReply_decFixed h (n := 4) rfl
  · exact sameReply_decVarint h
  · exact sameReply_decRemain h
  · exact sameReply_decStatus h

theorem replies_cons (h : exec i s = .next t) (is : List Instr) : replies (i :: is) s = t.result :: replies is t := by
  simp only [replies, h]

/-- Decodes of the same bytes reply alike, command by command (44_wire_decoder.md R317). -/
theorem replies_eq {is : List Instr} (h : SameDecode s t) (his : ∀ i ∈ is, IsDecoderRead i) :
    replies is s = replies is t := by
  induction is generalizing s t with
  | nil => rfl
  | cons i is ih =>
    obtain ⟨hi, his⟩ := List.forall_mem_cons.1 his
    obtain ⟨s', t', hs, ht, hreply, hnext⟩ := sameReply_decoderRead h hi
    rw [replies_cons hs, replies_cons ht, hreply, ih hnext his]

end Sys2Proof.Machine

namespace Sys2Proof.Proofs

open Sys2Proof.Machine

/-- Settles O57: the chunk open for reading is the oldest committed one, which no command between changes, so both
decodes begin at the start of the same bytes. -/
theorem decodingTwiceGivesSameReplies : Obligations.DecodingTwiceGivesSameReplies := by
  intro s t s' t' c between decodes hi hopen hbetween hrun hdecodes hs' ht'
  obtain ⟨chunk, hs⟩ := exists_reading hi hopen
  have ht : Reading c chunk t := hs.of_execAll hbetween hrun
  cases (exec_decBegin_starts hs.isOpen).symm.trans hs'
  cases (exec_decBegin_starts ht.isOpen).symm.trans ht'
  exact replies_eq (sameDecode_decStarted hs ht) hdecodes

/-- Settles O53: by operand, then by open read chunk; the channel is the low two bits of `IMM8`. -/
theorem decBeginStartsDecode : Obligations.DecBeginStartsDecode := by
  intro s c
  refine ⟨fun high ch data => ?_, rfl, exec_decBegin_noSource, exec_decBegin_starts⟩
  have hlow : (high ++ ch : Byte).extractLsb' 0 2 = ch := BitVec.extractLsb'_append_eq_right
  exact (decode_row (.decBegin 0) (high ++ ch) data).trans (congrArg (fun x => Except.ok (Instr.decBegin x)) hlow)

/-- Settles O54: by operand, by open decode, then by whether the decode is good and the field's bytes are there. -/
theorem decFixedReadsField : Obligations.DecFixedReadsField := by
  intro s w
  exact ⟨decode_row (.decFixed 0) w, fun h1 h2 h4 => exec_decFixed_badWidth (widthOperand_eq_none h1 h2 h4),
    fun hw => exec_decFixed_closed (widthOperand_toNat hw), fun hw => exec_decFixed_fails (widthOperand_toNat hw),
    fun hw => exec_decFixed_reads (widthOperand_toNat hw)⟩

/-- Settles O55: by open decode, by whether it is good, then by what `unvarint` makes of the content bytes left. -/
theorem decVarintReadsVarint : Obligations.DecVarintReadsVarint := by
  rintro s bytes rfl
  exact ⟨decode_row .decVarint, exec_decVarint_closed, exec_decVarint_failed, exec_decVarint_malformed,
    fun _ _ => exec_decVarint_reads⟩

/-- Settles O56: `DEC_REMAIN` by open decode; `DEC_STATUS` replies in every state. -/
theorem decoderQueriesAnswer : Obligations.DecoderQueriesAnswer := by
  intro s
  have hstatus : boolWord (s.decOpen && s.decOk) = if s.decOpen = true ∧ s.decOk = true then 1 else 0 := by
    simp only [boolWord, Bool.and_eq_true]
  exact ⟨fun imm data => ⟨decode_row .decRemain imm data, decode_row .decStatus imm data⟩, exec_decRemain_closed,
    exec_decRemain_open, congrArg (fun v => Host.Outcome.next (s.setResult v)) hstatus⟩

end Sys2Proof.Proofs
end

section
/-! PROOFS. Message descriptors as data (45_descriptors.md R340 to R348). A field's value is taken back from the bytes
it is encoded to, so a sequence is decoded field by field. -/

namespace Sys2Proof.Machine

variable {d : Descriptor} {r : Record} {f : FieldEntry} {fs : List FieldEntry} {e : FieldEncoding} {n : Nat} {u : Word}
  {x : Int} {xs earlier : List Int} {bs rest : List Byte} {flags : List (String × Bool)} {tag : Byte}

/-! ### Well-formed descriptors (45_descriptors.md R341) -/

/-- The encodings a field may have (45_descriptors.md R340). -/
def FieldEncoding.Legal (e : FieldEncoding) : Prop := e = .varint ∨ e = .fixed 1 ∨ e = .fixed 2 ∨ e = .fixed 4

theorem FieldEntry.shapeOk_iff :
    f.shapeOk = true
      ↔ (f.width = 8 ∨ f.width = 16 ∨ f.width = 32)
        ∧ (f.encoding = .varint ∨ ∃ n, f.encoding = .fixed n ∧ (n = 1 ∨ n = 2 ∨ n = 4) ∧ f.width = 8 * n) := by
  cases he : f.encoding <;> simp [FieldEntry.shapeOk, he, or_assoc]

theorem FieldEntry.legal_of_shapeOk (h : f.shapeOk = true) : f.encoding.Legal := by
  obtain ⟨-, he | ⟨n, he, rfl | rfl | rfl, -⟩⟩ := FieldEntry.shapeOk_iff.1 h <;> simp [FieldEncoding.Legal, he]

/-- A tagged field has a tag other than 0, and is a varint or 4 bytes (45_descriptors.md R340, R341). -/
theorem FieldEntry.taggedOk_iff :
    f.taggedOk = true ↔ (∃ tag, f.tag = some tag ∧ tag ≠ 0) ∧ ∀ n, f.encoding = .fixed n → n = 4 := by
  cases ht : f.tag <;> cases he : f.encoding <;> simp [FieldEntry.taggedOk, ht, he]

theorem Descriptor.wf_tagged (hwf : d.wf = true) (hkind : d.kind = .tagged) :
    (∀ f ∈ d.fields, f.shapeOk = true) ∧ (∀ f ∈ d.fields, f.taggedOk = true) ∧ (d.fields.map FieldEntry.tag).Nodup := by
  simp only [Descriptor.wf, hkind, Bool.and_eq_true, List.all_eq_true, decide_eq_true_eq] at hwf
  obtain ⟨⟨hshape, htagged, hnodup⟩, -⟩ := hwf
  exact ⟨hshape, htagged, hnodup⟩

theorem Descriptor.wf_sequence (hwf : d.wf = true) (hkind : d.kind = .sequence) :
    (∀ f ∈ d.fields, f.shapeOk = true) ∧ ∀ f ∈ d.fields, f.flag? = none := by
  simp only [Descriptor.wf, hkind, Bool.and_eq_true, List.all_eq_true, FieldEntry.sequenceOk, Option.isNone_iff_eq_none]
    at hwf
  obtain ⟨⟨hshape, hseq⟩, -⟩ := hwf
  exact ⟨hshape, fun f hf => (hseq f hf).2⟩

theorem Descriptor.shapeOk_of_wf (hwf : d.wf = true) : ∀ f ∈ d.fields, f.shapeOk = true := by
  cases hkind : d.kind with
  | tagged => exact (d.wf_tagged hwf hkind).1
  | sequence => exact (d.wf_sequence hwf hkind).1

/-! ### One value: pattern, bytes and back (45_descriptors.md R342, R343, R347) -/

theorem toNat_fixedValue_fixedBytes (hn : n ≤ 4) : (fixedValue (fixedBytes n u)).toNat = u.toNat % 2 ^ (8 * n) := by
  induction n generalizing u with
  | zero => simp [fixedBytes, fixedValue, Nat.mod_one]
  | succ n ih =>
    have hlen : (fixedBytes n (u >>> 8)).length ≤ 3 := by simp [fixedBytes_eq_map]; omega
    rw [fixedBytes, fixedValue_cons_toNat _ hlen, ih (by omega), BitVec.toNat_ushiftRight, BitVec.extractLsb'_toNat,
      Nat.shiftRight_zero, Nat.shiftRight_eq_div_pow, Nat.mul_succ, Nat.add_comm (8 * n), Nat.pow_add, Nat.mod_mul,
      Nat.add_comm]

/-- The bytes of a fixed-width field hold the low bits of the pattern (30_encoding.md R123). -/
theorem fixedValue_fixedBytes (hn : n ≤ 4) : fixedValue (fixedBytes n u) = (u.setWidth (8 * n)).setWidth 32 := by
  refine BitVec.eq_of_toNat_eq ?_
  rw [toNat_fixedValue_fixedBytes hn, BitVec.toNat_setWidth, BitVec.toNat_setWidth]
  have hlow := Nat.mod_le u.toNat (2 ^ (8 * n))
  exact (Nat.mod_eq_of_lt (Nat.lt_of_le_of_lt hlow u.isLt)).symm

theorem takeVarint_varint : takeVarint (varint u ++ rest) = some (u, rest) := by
  rw [takeVarint, unvarint_varint, Option.map_some, List.drop_left]

theorem length_fixedBytes : (fixedBytes n u).length = n := by
  rw [fixedBytes_eq_map, List.length_map, List.length_range]

theorem takeFixed_fixedBytes : takeFixed n (fixedBytes n u ++ rest) = some (fixedValue (fixedBytes n u), rest) := by
  have hlen : (fixedBytes n u).length = n := length_fixedBytes
  rw [takeFixed, if_pos (by rw [List.length_append, hlen]; omega), List.take_left' hlen, List.drop_left' hlen]

/-- The low bits of a pattern are the value's own `W` bits. -/
theorem FieldEntry.setWidth_pattern (hw : f.width ≤ 32) : (f.pattern x).setWidth f.width = BitVec.ofInt f.width x := by
  rw [FieldEntry.pattern]
  split
  · exact BitVec.eq_of_toInt_eq (by 
      rw [← BitVec.signExtend_eq_setWidth_of_le _ hw, BitVec.toInt_signExtend, Nat.min_eq_left hw,
        BitVec.toInt_signExtend_of_le hw, BitVec.toInt_bmod_cancel])
  · rw [BitVec.setWidth_setWidth_of_le _ hw, BitVec.setWidth_eq]

theorem FieldEntry.width_pos (hshape : f.shapeOk = true) : 0 < f.width ∧ f.width ≤ 32 := by
  obtain ⟨hw, -⟩ := FieldEntry.shapeOk_iff.1 hshape
  omega

theorem FieldEntry.toInt_setWidth_pattern (hshape : f.shapeOk = true) (hx : f.inRange x = true)
    (hsigned : f.signed = true) : ((f.pattern x).setWidth f.width).toInt = x := by
  obtain ⟨hpos, hw⟩ := f.width_pos hshape
  simp only [FieldEntry.inRange, hsigned, if_true, Bool.and_eq_true, decide_eq_true_eq] at hx
  rw [f.setWidth_pattern hw]
  exact BitVec.toInt_ofInt_eq_self hpos (by simpa using hx.1) (by simpa using hx.2)

theorem FieldEntry.toNat_setWidth_pattern (hshape : f.shapeOk = true) (hx : f.inRange x = true)
    (hunsigned : f.signed = false) : (((f.pattern x).setWidth f.width).toNat : Int) = x := by
  obtain ⟨-, hw⟩ := f.width_pos hshape
  simp only [FieldEntry.inRange, hunsigned, Bool.false_eq_true, if_false, Bool.and_eq_true, decide_eq_true_eq] at hx
  obtain ⟨hlo, hhi⟩ := hx
  rw [f.setWidth_pattern hw, BitVec.toNat_ofInt, Int.emod_eq_of_lt hlo hhi, Int.toNat_of_nonneg hlo]

theorem FieldEntry.pattern_of_signed (h : f.signed = true) (x : Int) :
    f.pattern x = (BitVec.ofInt f.width x).signExtend 32 := if_pos h

theorem FieldEntry.pattern_of_unsigned (h : f.signed = false) (x : Int) :
    f.pattern x = (BitVec.ofInt f.width x).setWidth 32 := if_neg (by rw [h]; decide)

theorem FieldEntry.pattern_lt_of_unsigned (h : f.signed = false) : (f.pattern x).toNat < 2 ^ f.width := by
  rw [f.pattern_of_unsigned h, BitVec.toNat_setWidth]
  exact Nat.lt_of_le_of_lt (Nat.mod_le _ _) (BitVec.isLt _)

theorem FieldEntry.fromPattern_varint (he : f.encoding = .varint) (hshape : f.shapeOk = true)
    (hx : f.inRange x = true) : f.fromPattern (f.pattern x) = some x := by
  obtain ⟨-, hw⟩ := f.width_pos hshape
  cases hsigned : f.signed with
  | true =>
    have hext : f.pattern x = ((f.pattern x).setWidth f.width).signExtend 32 := by
      rw [f.setWidth_pattern hw, f.pattern_of_signed hsigned]
    simp only [FieldEntry.fromPattern, he, hsigned, if_true]
    rw [if_pos hext, f.toInt_setWidth_pattern hshape hx hsigned]
  | false =>
    have hlt := f.pattern_lt_of_unsigned (x := x) hsigned
    have hval := f.toNat_setWidth_pattern hshape hx hsigned
    rw [BitVec.toNat_setWidth, Nat.mod_eq_of_lt hlt] at hval
    simp only [FieldEntry.fromPattern, he, hsigned, Bool.false_eq_true, if_false]
    rw [if_neg (Nat.not_le_of_lt hlt), hval]

theorem FieldEntry.fromPattern_fixed (he : f.encoding = .fixed n) (hwidth : f.width = 8 * n) (hshape : f.shapeOk = true)
    (hx : f.inRange x = true) : f.fromPattern (fixedValue (fixedBytes n (f.pattern x))) = some x := by
  obtain ⟨-, hw⟩ := f.width_pos hshape
  have hn : n ≤ 4 := by omega
  have hlow : 8 * n ≤ 32 := by omega
  rw [fixedValue_fixedBytes hn]
  cases hsigned : f.signed with
  | true =>
    have hval := f.toInt_setWidth_pattern hshape hx hsigned
    simp only [FieldEntry.fromPattern, he, hsigned, if_true]
    rw [BitVec.setWidth_setWidth_of_le _ hlow, BitVec.setWidth_eq, ← hwidth, hval]
  | false =>
    have hval := f.toNat_setWidth_pattern hshape hx hsigned
    simp only [FieldEntry.fromPattern, he, hsigned, Bool.false_eq_true, if_false]
    rw [BitVec.toNat_setWidth_of_le hlow, ← hwidth, hval]

/-- A value in range is taken back from its bytes, whatever follows them (45_descriptors.md R342, R343, R347). -/
theorem FieldEntry.take_valueBytes (hshape : f.shapeOk = true) (hx : f.inRange x = true) :
    ∃ u, f.encoding.take (f.encoding.valueBytes (f.pattern x) ++ rest) = some (u, rest) ∧ f.fromPattern u = some x := by
  obtain ⟨-, he | ⟨n, he, -, hwidth⟩⟩ := FieldEntry.shapeOk_iff.1 hshape
  · refine ⟨f.pattern x, ?_, f.fromPattern_varint he hshape hx⟩
    rw [he]
    exact takeVarint_varint
  · refine ⟨_, ?_, f.fromPattern_fixed he hwidth hshape hx⟩
    rw [he]
    exact takeFixed_fixedBytes

/-! ### Encoding and fitting records, field by field -/

/-- The values fit the fields (45_descriptors.md R351), by the fields: each is in range, and 0 where its field is
absent; `earlier` are the values of the fields already passed. -/
inductive ValuesFit (flags : List (String × Bool)) : List FieldEntry → List Int → List Int → Prop where
  | nil (earlier : List Int) : ValuesFit flags [] earlier []
  | cons {f : FieldEntry} {fs : List FieldEntry} {earlier : List Int} {x : Int} {xs : List Int}
      (inRange : f.inRange x = true) (absent : f.present earlier flags = false → x = 0)
      (later : ValuesFit flags fs (earlier ++ [x]) xs) : ValuesFit flags (f :: fs) earlier (x :: xs)

theorem ValuesFit.of_valuesFit (h : valuesFit flags fs earlier xs = true) : ValuesFit flags fs earlier xs := by
  induction fs generalizing earlier xs with
  | nil =>
    cases xs with
    | nil => exact .nil earlier
    | cons x xs => cases h
  | cons f fs ih =>
    cases xs with
    | nil => cases h
    | cons x xs =>
      simp only [valuesFit, Bool.and_eq_true, Bool.or_eq_true, beq_iff_eq] at h
      obtain ⟨⟨hx, hpresent⟩, hlater⟩ := h
      exact .cons hx (fun habsent => hpresent.resolve_left (by rw [habsent]; decide)) (ih hlater)

theorem encodeFields_cons_present {kind : MessageKind} (h : f.present earlier flags = true) :
    encodeFields kind flags (f :: fs) earlier (x :: xs)
      = f.keyBytes kind ++ (f.encoding.valueBytes (f.pattern x) ++ encodeFields kind flags fs (earlier ++ [x]) xs) := by
  rw [encodeFields, if_pos h, List.append_assoc]

theorem encodeFields_cons_absent {kind : MessageKind} (h : f.present earlier flags = false) :
    encodeFields kind flags (f :: fs) earlier (x :: xs) = encodeFields kind flags fs (earlier ++ [x]) xs := by
  rw [encodeFields, h]
  rfl

/-! ### Sequences (45_descriptors.md R348) -/

theorem FieldEntry.skipped_eq (h : f.flag? = none) : f.skipped earlier = !f.present earlier flags := by
  cases hp : f.presence with
  | optional flag => simp [FieldEntry.flag?, hp] at h
  | _ => simp [FieldEntry.skipped, FieldEntry.present, hp]

theorem decodeSeqFields_skipped (h : f.skipped earlier = true) :
    decodeSeqFields (f :: fs) earlier bs = decodeSeqFields fs (earlier ++ [0]) bs := if_pos h

theorem decodeSeqFields_read (h : f.skipped earlier = false) :
    decodeSeqFields (f :: fs) earlier bs
      = (f.encoding.take bs).bind fun taken =>
          (f.fromPattern taken.1).bind fun x => decodeSeqFields fs (earlier ++ [x]) taken.2 := by
  rw [decodeSeqFields, h]
  cases f.encoding.take bs with
  | none => rfl
  | some taken => simp only [Option.bind_some]; cases f.fromPattern taken.1 <;> rfl

/-- The values of a fitting record come back from a sequence's bytes. -/
theorem decodeSeqFields_encodeFields (hfit : ValuesFit flags fs earlier xs) (hshape : ∀ f ∈ fs, f.shapeOk = true)
    (hflag : ∀ f ∈ fs, f.flag? = none) :
    decodeSeqFields fs earlier (encodeFields .sequence flags fs earlier xs) = some (earlier ++ xs) := by
  induction hfit with
  | nil earlier => rw [List.append_nil]; rfl
  | @cons f fs earlier x xs hx habsent _ ih =>
    obtain ⟨hf, hshape⟩ := List.forall_mem_cons.1 hshape
    obtain ⟨hnone, hflag⟩ := List.forall_mem_cons.1 hflag
    have hskip := f.skipped_eq (earlier := earlier) (flags := flags) hnone
    have ih := ih hshape hflag
    rw [List.append_assoc, List.singleton_append] at ih
    cases hp : f.present earlier flags with
    | true =>
      obtain ⟨u, htake, hfrom⟩ := f.take_valueBytes hf hx
        (rest := encodeFields .sequence flags fs (earlier ++ [x]) xs)
      rw [decodeSeqFields_read (by rw [hskip, hp]; rfl), encodeFields_cons_present hp, FieldEntry.keyBytes,
        List.nil_append, htake, Option.bind_some, hfrom, Option.bind_some, ih]
    | false =>
      obtain rfl := habsent hp
      rw [decodeSeqFields_skipped (by rw [hskip, hp]; rfl), encodeFields_cons_absent hp, ih]

end Sys2Proof.Machine
end

section
/-! PROOFS. The round trip of a message (45_descriptors.md R351). The items of a tagged message are those of its present
fields: each item's tag finds the field it came from, and what the loop has then seen gives the values back, 0 where a
field is absent, and sets the flags in the order in which the descriptor names them. -/

namespace Sys2Proof.Machine

variable {d : Descriptor} {r : Record} {f : FieldEntry} {fs fields passed : List FieldEntry} {e : FieldEncoding}
  {u : Word} {x : Int} {xs earlier : List Int} {bs rest : List Byte} {flags : List (String × Bool)} {tag : Byte}
  {seen seen' vs : Seen} {fuel : Nat}

/-! ### One item of a tagged message (45_descriptors.md R349) -/

/-- What follows a key of a tagged message: the encoding of the value, and what has been seen once its pattern is read;
none where the key is refused. -/
def itemValue (fields : List FieldEntry) (seen : Seen) (key : Word) : Option (FieldEncoding × (Word → Option Seen)) :=
  if key >>> 3 = 0 then none
  else
    match fieldOfTag fields (key >>> 3) with
    | some f =>
      if key.extractLsb' 0 3 ≠ f.encoding.wireType then none
      else some (f.encoding, fun u => (f.fromPattern u).map (setSeen fields seen ((key >>> 3).setWidth 8)))
    | none =>
      if key.extractLsb' 0 3 = wireVarint then some (.varint, fun _ => some seen)
      else if key.extractLsb' 0 3 = wireFixed32 then some (.fixed 4, fun _ => some seen)
      else none

theorem decodeTaggedItem_eq :
    decodeTaggedItem fields seen bs
      = (takeVarint bs).bind fun key => (itemValue fields seen key.1).bind fun value =>
          (value.1.take key.2).bind fun taken => (value.2 taken.1).map fun seen' => (seen', taken.2) := by
  rw [decodeTaggedItem]
  cases takeVarint bs with
  | none => rfl
  | some key =>
    obtain ⟨key, rest⟩ := key
    simp only [Option.bind_some, itemValue]
    by_cases htag : key >>> 3 = 0
    · rw [if_pos htag, if_pos htag]; rfl
    · rw [if_neg htag, if_neg htag]
      cases fieldOfTag fields (key >>> 3) with
      | some f =>
        dsimp only
        split
        · rfl
        · rw [Option.bind_some]
          cases f.encoding.take rest with
          | none => rfl
          | some taken => rw [Option.bind_some, Option.map_map]; rfl
      | none =>
        dsimp only
        split
        · exact Option.map_eq_bind
        · split
          · exact Option.map_eq_bind
          · rfl

theorem unvarintLoop_pos {k m : Nat} {v : Word} (h : unvarintLoop k v bs = some (u, m)) : 0 < m := by
  induction bs generalizing k v with
  | nil => cases h
  | cons b bs ih =>
    rw [unvarintLoop] at h
    obtain ⟨-, h⟩ := Option.ite_none_left_eq_some.1 h
    split at h
    · exact ih h
    · cases h
      exact Nat.succ_pos k

theorem length_takeVarint (h : takeVarint bs = some (u, rest)) : rest.length < bs.length := by
  obtain ⟨⟨v, m⟩, hread, htaken⟩ := Option.map_eq_some_iff.1 h
  cases htaken
  have hle := unvarint_taken hread
  have hpos := unvarintLoop_pos hread
  rw [List.length_drop]
  omega

theorem length_take (h : e.take bs = some (u, rest)) : rest.length ≤ bs.length := by
  cases e with
  | varint => exact Nat.le_of_lt (length_takeVarint h)
  | fixed n =>
    obtain ⟨-, htaken⟩ := Option.ite_none_right_eq_some.1 h
    cases htaken
    rw [List.length_drop]
    exact Nat.sub_le _ _

/-- Every item takes at least the one byte of its key. -/
theorem length_decodeTaggedItem (h : decodeTaggedItem fields seen bs = some (seen', rest)) :
    rest.length < bs.length := by
  rw [decodeTaggedItem_eq] at h
  obtain ⟨⟨key, afterKey⟩, hkey, h⟩ := Option.bind_eq_some_iff.1 h
  obtain ⟨value, -, h⟩ := Option.bind_eq_some_iff.1 h
  obtain ⟨⟨u, afterValue⟩, hvalue, h⟩ := Option.bind_eq_some_iff.1 h
  obtain ⟨_, -, hrest⟩ := Option.map_eq_some_iff.1 h
  cases hrest
  exact Nat.lt_of_le_of_lt (length_take hvalue) (length_takeVarint hkey)

/-- The loop goes round once per item. -/
theorem decodeTaggedLoop_item (h : decodeTaggedItem fields seen bs = some (seen', rest)) :
    decodeTaggedLoop fields (fuel + 1) seen bs = decodeTaggedLoop fields fuel seen' rest := by
  cases bs with
  | nil => exact absurd (length_decodeTaggedItem h) (Nat.not_lt_zero _)
  | cons b bs => rw [decodeTaggedLoop, h]

theorem decodeTaggedLoop_nil : decodeTaggedLoop fields fuel seen [] = some seen := by
  cases fuel <;> rfl

/-! ### The item of a present field -/

/-- `(tag << 3) | wt`, the value of a key (30_encoding.md R122). -/
def keyWord (tag : Byte) (wt : BitVec 3) : Word := BitVec.ofNat 32 (8 * tag.toNat + wt.toNat)

theorem toNat_keyWord (tag : Byte) (wt : BitVec 3) : (keyWord tag wt).toNat = 8 * tag.toNat + wt.toNat := by
  have htag := tag.isLt
  have hwt := wt.isLt
  exact Nat.mod_eq_of_lt (by omega)

theorem keyWord_tag (tag : Byte) (wt : BitVec 3) : keyWord tag wt >>> 3 = tag.setWidth 32 := by
  refine BitVec.eq_of_toNat_eq ?_
  have hwt := wt.isLt
  rw [BitVec.toNat_ushiftRight, toNat_keyWord, BitVec.toNat_setWidth_of_le (by decide), Nat.shiftRight_eq_div_pow]
  omega

theorem keyWord_wireType (tag : Byte) (wt : BitVec 3) : (keyWord tag wt).extractLsb' 0 3 = wt := by
  refine BitVec.eq_of_toNat_eq ?_
  have hwt := wt.isLt
  rw [BitVec.extractLsb'_toNat, toNat_keyWord, Nat.shiftRight_zero]
  omega

theorem setWidth_tag_inj {tag tag' : Byte} (h : tag.setWidth 32 = tag'.setWidth 32) : tag = tag' := by
  have hback := congrArg (BitVec.setWidth 8) h
  rwa [BitVec.setWidth_setWidth_of_le _ (by decide), BitVec.setWidth_setWidth_of_le _ (by decide), BitVec.setWidth_eq,
    BitVec.setWidth_eq] at hback

/-- The fields' tags are unique, so the field of a tag is the one that has it (45_descriptors.md R341). -/
theorem fieldOfTag_eq (htag : f.tag = some tag) (hpassed : ∀ g ∈ passed, g.tag ≠ some tag) :
    fieldOfTag (passed ++ f :: fs) (tag.setWidth 32) = some f := by
  refine List.find?_eq_some_iff_append.2 ⟨by simp [htag], passed, fs, rfl, fun g hg => ?_⟩
  cases hgtag : g.tag with
  | none => rfl
  | some tag' =>
    have hne : tag' ≠ tag := fun heq => hpassed g hg (heq ▸ hgtag)
    simpa using fun heq => hne (setWidth_tag_inj heq)

theorem setSeen_eq {v : Option Int} (htag : f.tag = some tag) (hpassed : ∀ g ∈ passed, g.tag ≠ some tag)
    (hlen : seen.length = passed.length) :
    setSeen (passed ++ f :: fs) (seen ++ v :: vs) tag x = seen ++ some x :: vs := by
  induction passed generalizing seen with
  | nil =>
    cases List.length_eq_zero_iff.1 hlen
    exact if_pos htag
  | cons g passed ih =>
    obtain ⟨w, seen, rfl⟩ := List.exists_cons_of_length_eq_add_one hlen
    obtain ⟨hg, hpassed⟩ := List.forall_mem_cons.1 hpassed
    exact (if_neg hg).trans (congrArg (w :: ·) (ih hpassed (Nat.succ.inj hlen)))

/-- The key of a field without an earlier field of its tag leads to its value. -/
theorem itemValue_keyWord (htag : f.tag = some tag) (h0 : tag ≠ 0) (hpassed : ∀ g ∈ passed, g.tag ≠ some tag) :
    itemValue (passed ++ f :: fs) seen (keyWord tag f.encoding.wireType)
      = some (f.encoding, fun u => (f.fromPattern u).map (setSeen (passed ++ f :: fs) seen tag)) := by
  have hne : tag.setWidth 32 ≠ 0 := fun h => h0 (setWidth_tag_inj h)
  rw [itemValue, keyWord_tag, keyWord_wireType, if_neg hne, fieldOfTag_eq htag hpassed]
  simp only [ne_eq, not_true_eq_false, if_false, BitVec.setWidth_setWidth_of_le _ (show 8 ≤ 32 by decide),
    BitVec.setWidth_eq]

/-- A present field's key and value are one item, which sets what was seen of that field (45_descriptors.md R349). -/
theorem decodeTaggedItem_field (htag : f.tag = some tag) (h0 : tag ≠ 0) (hpassed : ∀ g ∈ passed, g.tag ≠ some tag)
    (hlen : seen.length = passed.length) (hshape : f.shapeOk = true) (hx : f.inRange x = true) :
    decodeTaggedItem (passed ++ f :: fs) (seen ++ none :: vs)
        (f.keyBytes .tagged ++ (f.encoding.valueBytes (f.pattern x) ++ rest))
      = some (seen ++ some x :: vs, rest) := by
  obtain ⟨u, htake, hfrom⟩ := f.take_valueBytes hshape hx (rest := rest)
  have hkey : f.keyBytes .tagged = varint (keyWord tag f.encoding.wireType) := by
    rw [FieldEntry.keyBytes, htag]
    exact fieldKey_eq tag f.encoding.wireType
  simp only [decodeTaggedItem_eq, hkey, takeVarint_varint, Option.bind_some, itemValue_keyWord htag h0 hpassed, htake,
    hfrom, Option.map_some, setSeen_eq htag hpassed hlen]

/-! ### A whole tagged message (45_descriptors.md R349) -/

/-- What a decode of a fitting record's message sees of a field: its value when it is present. -/
def presentValue (flags : List (String × Bool)) (f : FieldEntry) (earlier : List Int) (x : Int) : Option Int :=
  if f.present earlier flags then some x else none

theorem presentValue_of_present (h : f.present earlier flags = true) : presentValue flags f earlier x = some x :=
  if_pos h

theorem presentValue_of_absent (h : f.present earlier flags = false) : presentValue flags f earlier x = none :=
  if_neg (by rw [h]; decide)

theorem isSome_presentValue : (presentValue flags f earlier x).isSome = f.present earlier flags := by
  cases h : f.present earlier flags with
  | true => rw [presentValue_of_present h]; rfl
  | false => rw [presentValue_of_absent h]; rfl

theorem getD_presentValue (habsent : f.present earlier flags = false → x = 0) :
    (presentValue flags f earlier x).getD 0 = x := by
  cases h : f.present earlier flags with
  | true => rw [presentValue_of_present h]; rfl
  | false => rw [presentValue_of_absent h, habsent h]; rfl

/-- What it sees of all of them, field by field. -/
def presentValues (flags : List (String × Bool)) : List FieldEntry → List Int → List Int → Seen
  | f :: fs, earlier, x :: xs => presentValue flags f earlier x :: presentValues flags fs (earlier ++ [x]) xs
  | _, _, _ => []

theorem decodeTaggedLoop_encodeFields (hfit : ValuesFit flags fs earlier xs) (hshape : ∀ f ∈ fs, f.shapeOk = true)
    (htagged : ∀ f ∈ fs, f.taggedOk = true) (hnodup : ((passed ++ fs).map FieldEntry.tag).Nodup)
    (hlen : seen.length = passed.length) (hfuel : (encodeFields .tagged flags fs earlier xs).length ≤ fuel) :
    decodeTaggedLoop (passed ++ fs) fuel (seen ++ fs.map fun _ => none) (encodeFields .tagged flags fs earlier xs)
      = some (seen ++ presentValues flags fs earlier xs) := by
  induction hfit generalizing passed seen fuel with
  | nil earlier => exact decodeTaggedLoop_nil
  | @cons f fs earlier x xs hx habsent _ ih =>
    obtain ⟨hf, hshape⟩ := List.forall_mem_cons.1 hshape
    obtain ⟨htf, htagged⟩ := List.forall_mem_cons.1 htagged
    obtain ⟨⟨tag, htag, h0⟩, -⟩ := FieldEntry.taggedOk_iff.1 htf
    have hpassed : ∀ g ∈ passed, g.tag ≠ some tag := fun g hg heq => by
      rw [List.map_append, List.map_cons] at hnodup
      obtain ⟨-, -, hdisjoint⟩ := List.nodup_append.1 hnodup
      exact hdisjoint _ (List.mem_map_of_mem hg) _ List.mem_cons_self (by rw [heq, htag])
    have ih (v : Option Int) {fuel : Nat} := ih (passed := passed ++ [f]) (seen := seen ++ [v]) (fuel := fuel) hshape
      htagged (by simpa using hnodup) (by simp [hlen])
    simp only [List.append_assoc, List.singleton_append] at ih
    rw [presentValues, List.map_cons]
    cases hp : f.present earlier flags with
    | true =>
      rw [encodeFields_cons_present hp] at hfuel ⊢
      have hitem := decodeTaggedItem_field (fs := fs) (vs := fs.map fun _ => none)
        (rest := encodeFields .tagged flags fs (earlier ++ [x]) xs) htag h0 hpassed hlen hf hx
      have hshorter := length_decodeTaggedItem hitem
      obtain ⟨fuel, rfl⟩ := Nat.exists_eq_add_of_lt (Nat.lt_of_lt_of_le hshorter hfuel)
      rw [decodeTaggedLoop_item hitem]
      rw [presentValue_of_present hp]
      exact ih (some x) (Nat.le_add_right _ _)
    | false =>
      rw [encodeFields_cons_absent hp] at hfuel ⊢
      rw [presentValue_of_absent hp]
      exact ih none hfuel

/-! ### The flags of a decoded record -/

/-- The flags set one after another, each to its value (45_descriptors.md R349). -/
def setFlags (value : String → Bool) (names : List String) (acc : List (String × Bool)) : List (String × Bool) :=
  names.foldl (fun acc name => setFlag acc name (value name)) acc

theorem setFlag_map (value : String → Bool) (names : List String) (name : String) :
    setFlag (names.map fun name => (name, value name)) name (value name)
      = (if name ∈ names then names else names ++ [name]).map fun name => (name, value name) := by
  induction names with
  | nil => rfl
  | cons first names ih =>
    rw [List.map_cons, setFlag]
    by_cases heq : first = name
    · simp [heq]
    · have hne : name ≠ first := fun h => heq h.symm
      rw [if_neg heq, ih]
      by_cases hmem : name ∈ names <;> simp [hmem, hne]

theorem eraseDups_concat (names : List String) (name : String) :
    (names ++ [name]).eraseDups
      = if name ∈ names.eraseDups then names.eraseDups else names.eraseDups ++ [name] := by
  rw [List.eraseDups_append]
  by_cases hmem : name ∈ names <;> simp [List.removeAll, hmem, List.eraseDups_cons]

/-- Setting flags that may repeat lists each once, in the order of the descriptor's flags. -/
theorem setFlags_eq (value : String → Bool) (names : List String) :
    setFlags value names [] = names.eraseDups.map fun name => (name, value name) := by
  rw [← List.reverse_reverse names]
  induction names.reverse with
  | nil => rfl
  | cons name reversed ih =>
    rw [List.reverse_cons, eraseDups_concat, ← setFlag_map, ← ih]
    exact List.foldl_append

theorem nodup_eraseDups (names : List String) : names.eraseDups.Nodup := by
  rw [← List.reverse_reverse names]
  induction names.reverse with
  | nil => exact List.nodup_nil
  | cons name reversed ih =>
    rw [List.reverse_cons, eraseDups_concat]
    split
    case isTrue => exact ih
    case isFalse hmem =>
      refine List.nodup_append.2 ⟨ih, List.pairwise_singleton _ name, fun other hother last hlast heq => hmem ?_⟩
      rwa [← List.mem_singleton.1 hlast, ← heq]

theorem map_flagValue (h : (flags.map Prod.fst).Nodup) :
    (flags.map Prod.fst).map (fun name => (name, flagValue flags name)) = flags := by
  induction flags with
  | nil => rfl
  | cons flag flags ih =>
    obtain ⟨name, value⟩ := flag
    obtain ⟨hnew, hrest⟩ := List.nodup_cons.1 h
    have hlater : ∀ other ∈ flags.map Prod.fst, flagValue ((name, value) :: flags) other = flagValue flags other :=
      fun other hmem => by
        have hne : (other == name) = false := beq_false_of_ne fun heq => hnew (heq ▸ hmem)
        rw [flagValue, flagValue, List.lookup, hne]
    rw [List.map_cons, List.map_cons, List.map_congr_left fun other hmem => congrArg (Prod.mk other)
      (hlater other hmem), ih hrest]
    simp [flagValue]

/-- The record comes back from what was seen of it: absent values are 0, and each flag is what its fields show. -/
theorem finishTagged_presentValues (hfit : ValuesFit flags fs earlier xs) (acc : List (String × Bool)) :
    finishTagged fs (presentValues flags fs earlier xs) earlier acc
      = some ⟨earlier ++ xs, setFlags (flagValue flags) (fs.filterMap FieldEntry.flag?) acc⟩ := by
  induction hfit generalizing acc with
  | nil earlier => rw [List.append_nil]; rfl
  | @cons f fs earlier x xs _ habsent _ ih =>
    rw [List.append_assoc, List.singleton_append] at ih
    cases hpresence : f.presence with
    | always =>
      have hflag : f.flag? = none := by rw [FieldEntry.flag?, hpresence]
      have hp : f.present earlier flags = true := by rw [FieldEntry.present, hpresence]
      rw [presentValues, finishTagged, hpresence, List.filterMap_cons_none hflag]
      simp only [isSome_presentValue, getD_presentValue habsent, hp, if_true, ih]
    | optional name =>
      have hflag : f.flag? = some name := by rw [FieldEntry.flag?, hpresence]
      have hp : f.present earlier flags = flagValue flags name := by rw [FieldEntry.present, hpresence]
      rw [presentValues, finishTagged, hpresence, List.filterMap_cons_some hflag]
      simp only [isSome_presentValue, getD_presentValue habsent, hp, ih]
      rfl
    | conditional pred =>
      have hflag : f.flag? = none := by rw [FieldEntry.flag?, hpresence]
      have hp : f.present earlier flags = pred earlier := by rw [FieldEntry.present, hpresence]
      rw [presentValues, finishTagged, hpresence, List.filterMap_cons_none hflag]
      simp only [isSome_presentValue, getD_presentValue habsent, hp, if_true, ih]

end Sys2Proof.Machine

namespace Sys2Proof.Proofs

open Sys2Proof.Machine

/-- Settles O59: each field's value is taken back from its bytes; a sequence has no flags, and a tagged decode sets each
flag to whether its fields were seen. -/
theorem descriptorRoundTrip : Obligations.DescriptorRoundTrip := by
  rintro d ⟨vals, flags⟩ hwf hfits
  simp only [Record.fits, Bool.and_eq_true, decide_eq_true_eq] at hfits
  obtain ⟨hvalues, hflags⟩ := hfits
  have hvalues := ValuesFit.of_valuesFit hvalues
  rw [encodeMsg, if_pos hwf, Option.bind_some, decodeMsg, if_pos hwf]
  cases hkind : d.kind with
  | tagged =>
    obtain ⟨hshape, htagged, hnodup⟩ := d.wf_tagged hwf hkind
    have hloop := decodeTaggedLoop_encodeFields (passed := []) (seen := []) hvalues hshape htagged hnodup rfl (Nat.le_refl _)
    have hnames : (flags.map Prod.fst).Nodup := hflags ▸ nodup_eraseDups _
    have hback : setFlags (flagValue flags) (d.fields.filterMap FieldEntry.flag?) [] = flags := by
      rw [setFlags_eq]
      exact (congrArg _ hflags.symm).trans (map_flagValue hnames)
    simp only [List.nil_append] at hloop
    simp only [decodeTagged, hloop, finishTagged_presentValues hvalues, hback, List.nil_append]
  | sequence =>
    obtain ⟨hshape, hflag⟩ := d.wf_sequence hwf hkind
    have hnone : d.flagNames = [] := by
      rw [Descriptor.flagNames, List.filterMap_eq_nil_iff.2 hflag]
      rfl
    obtain rfl : flags = [] := List.map_eq_nil_iff.1 (hflags.trans hnone)
    simp only [decodeSeq, decodeSeqFields_encodeFields hvalues hshape hflag, Option.map_some, List.nil_append]

end Sys2Proof.Proofs
end

section
/-! PROOFS. The commands with which a host encodes a message (45_descriptors.md R345, R346): each present field's
command appends the field's bytes, at most as many as `MaxSize` counts for it. -/

namespace Sys2Proof.Machine

variable {d : Descriptor} {kind : MessageKind} {f : FieldEntry} {fs : List FieldEntry} {u : Word} {x : Int}
  {xs earlier : List Int} {flags : List (String × Bool)}

/-- What a field of a well-formed descriptor satisfies by itself (45_descriptors.md R340, R341). -/
def FieldEntry.Ok (kind : MessageKind) (f : FieldEntry) : Prop :=
  f.shapeOk = true ∧ (kind = .tagged → f.taggedOk = true)

theorem Descriptor.fields_ok (hwf : d.wf = true) : ∀ f ∈ d.fields, f.Ok d.kind := fun f hf =>
  ⟨d.shapeOk_of_wf hwf f hf, fun hkind => (d.wf_tagged hwf hkind).2.1 f hf⟩

/-! ### The command of a field -/

theorem FieldEncoding.legal_fixed {n : Nat} (h : (FieldEncoding.fixed n).Legal) : n = 1 ∨ n = 2 ∨ n = 4 := by
  simpa [FieldEncoding.Legal] using h

theorem widthOperand_ofNat {n : Nat} (h : n = 1 ∨ n = 2 ∨ n = 4) : widthOperand (BitVec.ofNat 8 n) = some n := by
  rcases h with rfl | rfl | rfl <;> rfl

/-- A field's command appends the field's bytes (45_descriptors.md R343, R345). -/
theorem fieldBytes_command (h : f.Ok kind) :
    fieldBytes (f.command kind u) = some (f.keyBytes kind ++ f.encoding.valueBytes u) := by
  obtain ⟨hshape, htagged⟩ := h
  cases kind with
  | tagged =>
    obtain ⟨⟨tag, htag, h0⟩, hfour⟩ := FieldEntry.taggedOk_iff.1 (htagged rfl)
    cases he : f.encoding with
    | varint =>
      simp only [FieldEntry.command, FieldEntry.keyBytes, he, htag, Option.getD_some, fieldBytes, if_neg h0]
      rfl
    | fixed n =>
      cases hfour n he
      simp only [FieldEntry.command, FieldEntry.keyBytes, he, htag, Option.getD_some, fieldBytes, if_neg h0]
      rfl
  | sequence =>
    cases he : f.encoding with
    | varint =>
      simp only [FieldEntry.command, FieldEntry.keyBytes, he, fieldBytes]
      rfl
    | fixed n =>
      have hn := FieldEncoding.legal_fixed (he ▸ f.legal_of_shapeOk hshape)
      simp only [FieldEntry.command, FieldEntry.keyBytes, he, fieldBytes, widthOperand_ofNat hn]
      rfl

/-- The commands of the fields append, one after another, the parts of the message. -/
theorem fieldCommands_parts (h : ∀ f ∈ fs, f.Ok kind) :
    ∃ parts : List (List Byte), (fieldCommands kind flags fs earlier xs).map fieldBytes = parts.map some
      ∧ parts.flatten = encodeFields kind flags fs earlier xs := by
  induction fs generalizing earlier xs with
  | nil => exact ⟨[], rfl, rfl⟩
  | cons f fs ih =>
    cases xs with
    | nil => exact ⟨[], rfl, rfl⟩
    | cons x xs =>
      obtain ⟨hf, hfs⟩ := List.forall_mem_cons.1 h
      obtain ⟨parts, hparts, hflat⟩ := ih (earlier := earlier ++ [x]) (xs := xs) hfs
      cases hp : f.present earlier flags with
      | true =>
        refine ⟨(f.keyBytes kind ++ f.encoding.valueBytes (f.pattern x)) :: parts, ?_, ?_⟩
        · rw [fieldCommands, hp, if_pos rfl, List.singleton_append, List.map_cons, List.map_cons, fieldBytes_command hf,
            hparts]
        · rw [encodeFields_cons_present hp, List.flatten_cons, hflat, List.append_assoc]
      | false =>
        refine ⟨parts, ?_, ?_⟩
        · rw [← hparts, fieldCommands, hp]
          rfl
        · rw [encodeFields_cons_absent hp, hflat]

/-! ### The length of a message (45_descriptors.md R346) -/

theorem length_keyBytes (h : f.Ok kind) : (f.keyBytes kind).length = f.maxKey kind := by
  cases kind with
  | tagged =>
    obtain ⟨⟨tag, htag, h0⟩, -⟩ := FieldEntry.taggedOk_iff.1 (h.2 rfl)
    rw [FieldEntry.keyBytes, FieldEntry.maxKey, htag]
    exact (Proofs.keysOfTags.2.2 tag f.encoding.wireType h0).2
  | sequence => rfl

/-- A value of `k` groups of 7 bits takes at most `k` bytes (30_encoding.md R120). -/
theorem length_varintGroups_le {m k : Nat} (hk : 0 < k) (h : u.toNat < 2 ^ (7 * k)) :
    (varintGroups m u).length ≤ k := by
  induction m generalizing u k with
  | zero => exact hk
  | succ m ih =>
    rw [length_varintGroups_succ]
    split
    · exact hk
    · obtain ⟨k, rfl⟩ := Nat.exists_eq_succ_of_ne_zero (Nat.ne_of_gt hk)
      rw [Nat.mul_succ, Nat.pow_add] at h
      have hk' : 0 < k := Nat.pos_of_ne_zero fun hzero => by subst hzero; omega
      have hrest : (u >>> 7).toNat < 2 ^ (7 * k) := by rw [ushiftRight_seven_toNat]; omega
      exact Nat.succ_le_succ (ih hk' hrest)

theorem length_varint_le {k : Nat} (hk : 0 < k) (h : u.toNat < 2 ^ (7 * k)) : (varint u).length ≤ k :=
  length_varintGroups_le hk h

theorem length_valueBytes_le (hshape : f.shapeOk = true) :
    (f.encoding.valueBytes (f.pattern x)).length ≤ f.maxValue := by
  have hfive : (varint (f.pattern x)).length ≤ 5 := length_varint_le (by decide) (by omega)
  cases he : f.encoding with
  | fixed n =>
    rw [FieldEntry.maxValue, he]
    exact Nat.le_of_eq length_fixedBytes
  | varint =>
    simp only [FieldEntry.maxValue, he, FieldEncoding.valueBytes]
    cases hsigned : f.signed with
    | true => exact hfive
    | false =>
      have hlt := f.pattern_lt_of_unsigned (x := x) hsigned
      obtain ⟨hw | hw | hw, -⟩ := FieldEntry.shapeOk_iff.1 hshape <;> rw [hw] at hlt ⊢
      · exact length_varint_le (k := 2) (by decide) (by omega)
      · exact length_varint_le (k := 3) (by decide) (by omega)
      · exact hfive

theorem length_encodeFields_le (h : ∀ f ∈ fs, f.Ok kind) :
    (encodeFields kind flags fs earlier xs).length ≤ (fs.map fun f => f.maxKey kind + f.maxValue).sum := by
  induction fs generalizing earlier xs with
  | nil => exact Nat.zero_le _
  | cons f fs ih =>
    cases xs with
    | nil => exact Nat.zero_le _
    | cons x xs =>
      obtain ⟨hf, hfs⟩ := List.forall_mem_cons.1 h
      have ih := ih (earlier := earlier ++ [x]) (xs := xs) hfs
      rw [List.map_cons, List.sum_cons]
      cases hp : f.present earlier flags with
      | true =>
        have hvalue := length_valueBytes_le (x := x) hf.1
        rw [encodeFields_cons_present hp, List.length_append, List.length_append, length_keyBytes hf]
        omega
      | false =>
        rw [encodeFields_cons_absent hp]
        omega

/-- A message of `MaxSize` bytes fits, so the host's commands commit the message, as one chunk (45_descriptors.md
R346). -/
theorem execAll_encodeCommands {s : State} (hwf : d.wf = true) (hs : s.Inv) (hclosed : s.encOpen = false)
    (hw : s.ch2.writing = false) (hroom : s.ch2.count + d.maxSize + 1 ≤ s.cfg.n2) (r : Record) :
    ∃ t, execAll ([.encBegin] ++ fieldCommands d.kind r.flags d.fields [] r.vals ++ [.encEnd]) s = .next t
      ∧ t.result = 1
      ∧ t.committed .ch2 = s.committed .ch2 ++ [encodeFields d.kind r.flags d.fields [] r.vals] := by
  obtain ⟨parts, hparts, hflat⟩ := fieldCommands_parts (flags := r.flags) (earlier := []) (xs := r.vals)
    (d.fields_ok hwf)
  obtain ⟨t, hrun, -, hfits, -⟩ := Proofs.messageCommitsWholeOrNotAtAll s _ parts hs hclosed hw hparts
  have hlen : parts.flatten.length ≤ d.maxSize := hflat ▸ length_encodeFields_le (d.fields_ok hwf)
  obtain ⟨hresult, hcommitted, -⟩ := hfits (by omega)
  exact ⟨t, hrun, hresult, hflat ▸ hcommitted⟩

end Sys2Proof.Machine
end

section
/-! PROOFS. A host's decode by commands (45_descriptors.md R348 to R350). A good decode stands before the content bytes
still to read; a read takes from them what the descriptor's own functions take, and fails where these fail. A decode
that has failed reads 0, whatever the host goes on to do, and `DEC_STATUS` then leaves it no record
(44_wire_decoder.md R311). -/

namespace Sys2Proof.Machine

variable {α : Type} {d : Descriptor} {fs fields : List FieldEntry} {e : FieldEncoding} {u : Word} {earlier : List Int}
  {bs rest : List Byte} {seen : Seen} {fuel n : Nat} {s t v : State} {c : Chan} {i : Instr} {answer : Option α}
  {k : State → HostAnswer α} {o : HostAnswer α}

/-! ### What reads of a decode change -/

/-- `t` differs from `s` at most in `RESULT` and in how far, and whether well, the decode has gone
(44_wire_decoder.md R311 to R316). -/
def ReadFrame (s t : State) : Prop := { s with result := t.result, decPos := t.decPos, decOk := t.decOk } = t

theorem ReadFrame.refl (s : State) : ReadFrame s s := rfl

theorem ReadFrame.trans (hst : ReadFrame s t) (htv : ReadFrame t v) : ReadFrame s v := by
  rw [ReadFrame, ← htv, ← hst]

/-- The host's run ends with this answer, and its commands have only read. -/
def HostGives (s : State) (o : HostAnswer α) (answer : Option α) : Prop :=
  ∃ t, o = .next (t, answer) ∧ ReadFrame s t

theorem hostGives_giveUp : HostGives s (giveUp s : HostAnswer α) none := ⟨s, rfl, .refl s⟩

theorem HostGives.of_issueThen (hexec : exec i s = .next t) (hframe : ReadFrame s t) (h : HostGives t (k t) answer) :
    HostGives s (issueThen i k s) answer := by
  obtain ⟨v, hrun, hlater⟩ := h
  exact ⟨v, (issueThen_next hexec).trans hrun, hframe.trans hlater⟩

/-- A decode that is open and good, before these content bytes; a chunk holds at most 255 bytes (40_channel.md R152). -/
structure GoodDecode (bs : List Byte) (s : State) : Prop where
  isOpen : s.decOpen = true
  good : s.decOk = true
  rest : s.decRest = bs
  inside : s.decPos ≤ s.decLen
  short : s.decLen ≤ 255

/-- A decode that is open and has failed. -/
structure FailedDecode (s : State) : Prop where
  isOpen : s.decOpen = true
  failed : s.decOk = false

theorem GoodDecode.length (h : GoodDecode bs s) : bs.length = s.decLen - s.decPos := by
  rw [← h.rest, State.decRest, State.contentBytes, List.length_map, List.length_range]

theorem GoodDecode.setResult (h : GoodDecode bs s) (w : Word) : GoodDecode bs (s.setResult w) :=
  ⟨h.isOpen, h.good, h.rest, h.inside, h.short⟩

theorem FailedDecode.setResult (h : FailedDecode s) (w : Word) : FailedDecode (s.setResult w) := ⟨h.isOpen, h.failed⟩

theorem drop_contentBytes (p n m : Nat) :
    (s.contentBytes c p n).drop m = s.contentBytes c (p + m) (n - m) := by
  refine List.ext_getElem (by simp [State.contentBytes]) fun i _ _ => ?_
  simp [State.contentBytes, Nat.add_assoc]

theorem take_contentBytes {p n m : Nat} (h : m ≤ n) : (s.contentBytes c p n).take m = s.contentBytes c p m := by
  refine List.ext_getElem (by simp [State.contentBytes, h]) fun i _ _ => ?_
  simp [State.contentBytes]

/-- A read moves a good decode past the bytes it takes. -/
theorem GoodDecode.decAdvance (h : GoodDecode bs s) (w : Word) (hn : n ≤ bs.length) :
    GoodDecode (bs.drop n) (decAdvance n w s) := by
  have hlen := h.length
  have hinside := h.inside
  refine ⟨h.isOpen, h.good, ?_, ?_, h.short⟩
  · rw [← h.rest, State.decRest, State.decRest, drop_contentBytes, Nat.sub_sub]
    rfl
  · show s.decPos + n ≤ s.decLen
    omega

/-! ### One read (45_descriptors.md R348) -/

/-- A good decode's read gives the value the host's own function takes, and stands before the rest. -/
theorem GoodDecode.exec_read (h : GoodDecode bs s) (he : e.Legal) (htake : e.take bs = some (u, rest)) :
    ∃ t, exec e.readCommand s = .next t ∧ ReadFrame s t ∧ GoodDecode rest t ∧ t.result = u := by
  have hlen := h.length
  have hinside := h.inside
  cases e with
  | varint =>
    obtain ⟨⟨w, m⟩, hread, htaken⟩ := Option.map_eq_some_iff.1 htake
    cases htaken
    have hexec := exec_decVarint_reads h.isOpen h.good (h.rest.symm ▸ hread)
    exact ⟨_, hexec, rfl, h.decAdvance w (unvarint_taken hread), rfl⟩
  | fixed n =>
    obtain ⟨hn, htaken⟩ := Option.ite_none_right_eq_some.1 htake
    cases htaken
    have hfits : s.decPos + n ≤ s.decLen := by omega
    have hexec := exec_decFixed_reads (widthOperand_ofNat (FieldEncoding.legal_fixed he)) h.isOpen h.good hfits
    refine ⟨_, hexec, rfl, h.decAdvance _ hn, ?_⟩
    rw [← h.rest, State.decRest, take_contentBytes (by omega)]
    rfl

/-- A good decode's read fails where the host's own function does. -/
theorem GoodDecode.exec_read_fails (h : GoodDecode bs s) (he : e.Legal) (htake : e.take bs = none) :
    ∃ t, exec e.readCommand s = .next t ∧ ReadFrame s t ∧ FailedDecode t ∧ t.result = 0 := by
  have hlen := h.length
  have hinside := h.inside
  cases e with
  | varint =>
    have hread : unvarint s.decRest = none := h.rest.symm ▸ Option.map_eq_none_iff.1 htake
    exact ⟨_, exec_decVarint_malformed h.isOpen h.good hread, rfl, ⟨h.isOpen, rfl⟩, rfl⟩
  | fixed n =>
    have hn : ¬n ≤ bs.length := fun hle => by simp [FieldEncoding.take, takeFixed, hle] at htake
    have hfails : s.decOk = false ∨ s.decLen < s.decPos + n := .inr (by omega)
    have hexec := exec_decFixed_fails (widthOperand_ofNat (FieldEncoding.legal_fixed he)) h.isOpen hfails
    exact ⟨_, hexec, rfl, ⟨h.isOpen, rfl⟩, rfl⟩

/-- A failed decode's read replies 0 and stays failed (44_wire_decoder.md R311). -/
theorem FailedDecode.exec_read (h : FailedDecode s) (he : e.Legal) :
    ∃ t, exec e.readCommand s = .next t ∧ ReadFrame s t ∧ FailedDecode t ∧ t.result = 0 := by
  cases e with
  | varint => exact ⟨_, exec_decVarint_failed h.isOpen h.failed, rfl, h.setResult 0, rfl⟩
  | fixed n =>
    have hexec := exec_decFixed_fails (widthOperand_ofNat (FieldEncoding.legal_fixed he)) h.isOpen (.inl h.failed)
    exact ⟨_, hexec, rfl, ⟨h.isOpen, rfl⟩, rfl⟩

/-- The host issues a read and goes on as `k`: with the value where its own function takes one, and else with a failed
decode. -/
theorem GoodDecode.hostGives_read {next : Word × List Byte → Option α} (h : GoodDecode bs s) (he : e.Legal)
    (hgood : ∀ u rest t, e.take bs = some (u, rest) → GoodDecode rest t → t.result = u →
      HostGives t (k t) (next (u, rest)))
    (hfailed : ∀ t, FailedDecode t → t.result = 0 → HostGives t (k t) none) :
    HostGives s (issueThen e.readCommand k s) ((e.take bs).bind next) := by
  cases htake : e.take bs with
  | some taken =>
    obtain ⟨t, hexec, hframe, ht, hresult⟩ := h.exec_read he htake
    exact .of_issueThen hexec hframe (hgood _ _ t htake ht hresult)
  | none =>
    obtain ⟨t, hexec, hframe, ht, hresult⟩ := h.exec_read_fails he htake
    exact .of_issueThen hexec hframe (hfailed t ht hresult)

theorem FailedDecode.hostGives_read (h : FailedDecode s) (he : e.Legal)
    (hfailed : ∀ t, FailedDecode t → t.result = 0 → HostGives t (k t) none) :
    HostGives s (issueThen e.readCommand k s) none := by
  obtain ⟨t, hexec, hframe, ht, hresult⟩ := h.exec_read he
  exact .of_issueThen hexec hframe (hfailed t ht hresult)

/-! ### The status, and how many bytes remain -/

theorem GoodDecode.hostGives_checkStatus (h : GoodDecode bs s) : HostGives s (checkStatus answer s) answer :=
  ⟨s.setResult 1, (checkStatus_eq answer).trans (by rw [h.isOpen, h.good]; rfl), rfl⟩

theorem FailedDecode.hostGives_checkStatus (h : FailedDecode s) : HostGives s (checkStatus answer s) none :=
  ⟨s.setResult 0, (checkStatus_eq answer).trans (by rw [h.isOpen, h.failed]; rfl), rfl⟩

/-- `DEC_REMAIN` replies 0 exactly when no byte is left (44_wire_decoder.md R315). -/
theorem GoodDecode.exec_remain (h : GoodDecode bs s) :
    ∃ t, exec .decRemain s = .next t ∧ ReadFrame s t ∧ GoodDecode bs t ∧ (t.result = 0 ↔ bs = []) := by
  have hlen := h.length
  have hshort := h.short
  refine ⟨_, exec_decRemain_open h.isOpen, rfl, h.setResult _, ?_⟩
  have hreply : (BitVec.ofNat 32 (s.decLen - s.decPos)).toNat = bs.length := by
    rw [hlen]
    exact Nat.mod_eq_of_lt (by omega)
  rw [State.setResult_result, ← List.length_eq_zero_iff, ← hreply]
  exact ⟨fun hzero => congrArg BitVec.toNat hzero, fun hzero => BitVec.eq_of_toNat_eq hzero⟩

theorem FailedDecode.exec_remain (h : FailedDecode s) :
    ∃ t, exec .decRemain s = .next t ∧ ReadFrame s t ∧ FailedDecode t :=
  ⟨_, exec_decRemain_open h.isOpen, rfl, h.setResult _⟩

/-! ### `DecodeSeq` on a host (45_descriptors.md R348) -/

theorem hostDecodeSeq_skipped {f : FieldEntry} (h : f.skipped earlier = true) :
    hostDecodeSeq (f :: fs) earlier s = hostDecodeSeq fs (earlier ++ [0]) s := if_pos h

/-- What the host does with a field's pattern: it goes on with the value, or gives up. -/
def withValue (value : Option α) (k : α → State → HostAnswer Record) (s : State) : HostAnswer Record :=
  match value with
  | none => giveUp s
  | some x => k x s

theorem hostDecodeSeq_read {f : FieldEntry} (h : f.skipped earlier = false) :
    hostDecodeSeq (f :: fs) earlier s
      = issueThen f.encoding.readCommand
          (fun t => withValue (f.fromPattern t.result) (fun x => hostDecodeSeq fs (earlier ++ [x])) t) s := by
  rw [hostDecodeSeq, h]
  refine congrArg (fun k => issueThen f.encoding.readCommand k s) (funext fun t => ?_)
  cases f.fromPattern t.result <;> rfl

theorem FailedDecode.hostGives_seq (h : FailedDecode s) (hlegal : ∀ f ∈ fs, f.encoding.Legal) :
    HostGives s (hostDecodeSeq fs earlier s) none := by
  induction fs generalizing earlier s with
  | nil => exact h.hostGives_checkStatus
  | cons f fs ih =>
    obtain ⟨hf, hfs⟩ := List.forall_mem_cons.1 hlegal
    cases hskip : f.skipped earlier with
    | true =>
      rw [hostDecodeSeq_skipped hskip]
      exact ih h hfs
    | false =>
      rw [hostDecodeSeq_read hskip]
      refine h.hostGives_read hf fun t ht _ => ?_
      cases f.fromPattern t.result with
      | none => exact hostGives_giveUp
      | some x => exact ih ht hfs

theorem GoodDecode.hostGives_seq (h : GoodDecode bs s) (hlegal : ∀ f ∈ fs, f.encoding.Legal) :
    HostGives s (hostDecodeSeq fs earlier s) ((decodeSeqFields fs earlier bs).map fun vals => ⟨vals, []⟩) := by
  induction fs generalizing earlier bs s with
  | nil => exact h.hostGives_checkStatus
  | cons f fs ih =>
    obtain ⟨hf, hfs⟩ := List.forall_mem_cons.1 hlegal
    cases hskip : f.skipped earlier with
    | true =>
      rw [hostDecodeSeq_skipped hskip, decodeSeqFields_skipped hskip]
      exact ih h hfs
    | false =>
      rw [hostDecodeSeq_read hskip, decodeSeqFields_read hskip, Option.map_bind]
      refine h.hostGives_read hf (fun u rest t _ ht hresult => ?_) (fun t ht _ => ?_)
      · rw [hresult]
        dsimp only [Function.comp]
        cases f.fromPattern u with
        | none => exact hostGives_giveUp
        | some x => exact ih ht hfs
      · cases f.fromPattern t.result with
        | none => exact hostGives_giveUp
        | some x => exact ht.hostGives_seq hfs

/-! ### `DecodeTagged` on a host (45_descriptors.md R349) -/

theorem hostDecodeItem_eq (k : Seen → State → HostAnswer Record) :
    hostDecodeItem fields seen k s
      = issueThen FieldEncoding.varint.readCommand (fun t =>
          withValue (itemValue fields seen t.result) (fun value =>
            issueThen value.1.readCommand (fun v => withValue (value.2 v.result) k v)) t) s := by
  refine congrArg (fun k => issueThen .decVarint k s) (funext fun t => ?_)
  simp only [itemValue]
  by_cases htag : t.result >>> 3 = 0
  · rw [if_pos htag, if_pos htag]; rfl
  · rw [if_neg htag, if_neg htag]
    cases fieldOfTag fields (t.result >>> 3) with
    | some f =>
      dsimp only
      split
      · rfl
      · refine congrArg (fun k => issueThen f.encoding.readCommand k t) (funext fun v => ?_)
        dsimp only
        cases f.fromPattern v.result <;> rfl
    | none =>
      dsimp only
      split
      · rfl
      · split <;> rfl

theorem FailedDecode.hostGives_tagged (h : FailedDecode s) :
    HostGives s (hostDecodeTagged fields fuel seen s) none := by
  obtain ⟨t, hremain, hframe, ht⟩ := h.exec_remain
  cases fuel with
  | zero =>
    refine .of_issueThen hremain hframe ?_
    split
    · exact ht.hostGives_checkStatus
    · exact hostGives_giveUp
  | succ fuel =>
    refine .of_issueThen hremain hframe ?_
    split
    · exact ht.hostGives_checkStatus
    · rw [hostDecodeItem_eq]
      refine ht.hostGives_read (.inl rfl) fun v _ hresult => ?_
      rw [hresult]
      exact hostGives_giveUp

/-- Every encoding an item's value may have is one that can be read. -/
theorem legal_itemValue {key : Word} {value : FieldEncoding × (Word → Option Seen)}
    (hlegal : ∀ f ∈ fields, f.encoding.Legal) (h : itemValue fields seen key = some value) : value.1.Legal := by
  obtain ⟨-, h⟩ := Option.ite_none_left_eq_some.1 h
  cases hfield : fieldOfTag fields (key >>> 3) with
  | some f =>
    rw [hfield] at h
    obtain ⟨-, hvalue⟩ := Option.ite_none_left_eq_some.1 h
    cases hvalue
    exact hlegal f (List.mem_of_find?_eq_some hfield)
  | none =>
    rw [hfield] at h
    dsimp only at h
    split at h
    · cases h
      exact .inl rfl
    · obtain ⟨-, hvalue⟩ := Option.ite_none_right_eq_some.1 h
      cases hvalue
      exact .inr (.inr (.inr rfl))

/-- One item on a host: it goes on after the item its own function decodes, or with a failed decode. -/
theorem GoodDecode.hostGives_item {k : Seen → State → HostAnswer Record} {next : Seen × List Byte → Option Record}
    (h : GoodDecode bs s) (hlegal : ∀ f ∈ fields, f.encoding.Legal)
    (hgood : ∀ seen' rest t, decodeTaggedItem fields seen bs = some (seen', rest) → GoodDecode rest t →
      HostGives t (k seen' t) (next (seen', rest)))
    (hfailed : ∀ seen' t, FailedDecode t → HostGives t (k seen' t) none) :
    HostGives s (hostDecodeItem fields seen k s) ((decodeTaggedItem fields seen bs).bind next) := by
  rw [decodeTaggedItem_eq] at hgood ⊢
  rw [hostDecodeItem_eq, Option.bind_assoc]
  refine h.hostGives_read (.inl rfl) (fun key afterKey t hkey ht hresult => ?_) (fun t ht hresult => ?_)
  · rw [hresult]
    dsimp only
    cases hvalue : itemValue fields seen key with
    | none => exact hostGives_giveUp
    | some value =>
      rw [Option.bind_some, Option.bind_assoc]
      refine ht.hostGives_read (legal_itemValue hlegal hvalue) (fun u rest v hread hv hresult => ?_)
        (fun v hv _ => ?_)
      · rw [hresult]
        cases hseen : value.2 u with
        | none => exact hostGives_giveUp
        | some seen' =>
          refine hgood seen' rest v ?_ hv
          rw [show takeVarint bs = _ from hkey, Option.bind_some, hvalue, Option.bind_some, hread, Option.bind_some,
            hseen]
          rfl
      · cases value.2 v.result with
        | none => exact hostGives_giveUp
        | some seen' => exact hfailed seen' v hv
  · rw [hresult]
    exact hostGives_giveUp

theorem decodeTaggedLoop_cons {b : Byte} :
    decodeTaggedLoop fields (fuel + 1) seen (b :: bs)
      = (decodeTaggedItem fields seen (b :: bs)).bind fun item => decodeTaggedLoop fields fuel item.1 item.2 := by
  rw [decodeTaggedLoop]
  cases decodeTaggedItem fields seen (b :: bs) <;> rfl

/-- The rounds of both loops suffice for the bytes that are left, since each item takes a byte. -/
theorem GoodDecode.hostGives_tagged {rounds : Nat} (h : GoodDecode bs s) (hlegal : ∀ f ∈ fields, f.encoding.Legal)
    (hfuel : bs.length ≤ fuel) (hrounds : bs.length ≤ rounds) :
    HostGives s (hostDecodeTagged fields fuel seen s)
      ((decodeTaggedLoop fields rounds seen bs).bind fun seen => finishTagged fields seen [] []) := by
  induction fuel generalizing bs rounds seen s with
  | zero =>
    obtain ⟨t, hremain, hframe, ht, hzero⟩ := h.exec_remain
    obtain rfl := List.length_eq_zero_iff.1 (Nat.le_zero.1 hfuel)
    refine .of_issueThen hremain hframe ?_
    rw [if_pos (hzero.2 rfl), decodeTaggedLoop_nil]
    exact ht.hostGives_checkStatus
  | succ fuel ih =>
    obtain ⟨t, hremain, hframe, ht, hzero⟩ := h.exec_remain
    refine .of_issueThen hremain hframe ?_
    cases bs with
    | nil =>
      rw [if_pos (hzero.2 rfl), decodeTaggedLoop_nil]
      exact ht.hostGives_checkStatus
    | cons b bs =>
      obtain ⟨rounds, rfl⟩ := Nat.exists_eq_add_of_lt (Nat.lt_of_lt_of_le (Nat.succ_pos bs.length) hrounds)
      rw [if_neg (fun hnone => List.cons_ne_nil _ _ (hzero.1 hnone)), decodeTaggedLoop_cons, Option.bind_assoc]
      refine ht.hostGives_item hlegal (fun seen' rest v hitem hv => ?_) (fun seen' v hv => hv.hostGives_tagged)
      have hshorter := length_decodeTaggedItem hitem
      exact ih hv (show rest.length ≤ fuel by omega) (show rest.length ≤ _ by omega)

/-! ### A whole decode (45_descriptors.md R350) -/

theorem FailedDecode.hostGives_fields (h : FailedDecode s) (hwf : d.wf = true) :
    HostGives s (hostDecodeFields d s) none := by
  have hlegal : ∀ f ∈ d.fields, f.encoding.Legal := fun f hf => f.legal_of_shapeOk (d.shapeOk_of_wf hwf f hf)
  rw [hostDecodeFields]
  cases d.kind with
  | tagged => exact h.hostGives_tagged
  | sequence => exact h.hostGives_seq hlegal

theorem GoodDecode.hostGives_fields (h : GoodDecode bs s) (hwf : d.wf = true) :
    HostGives s (hostDecodeFields d s) (decodeMsg d bs) := by
  have hlegal : ∀ f ∈ d.fields, f.encoding.Legal := fun f hf => f.legal_of_shapeOk (d.shapeOk_of_wf hwf f hf)
  rw [hostDecodeFields, decodeMsg, if_pos hwf]
  cases d.kind with
  | tagged =>
    have hlen := h.length
    have hshort := h.short
    have hdecode : decodeTagged d bs
        = (decodeTaggedLoop d.fields bs.length (d.fields.map fun _ => none) bs).bind fun seen =>
            finishTagged d.fields seen [] [] := by
      rw [decodeTagged]
      cases decodeTaggedLoop d.fields bs.length (d.fields.map fun _ => none) bs <;> rfl
    dsimp only
    rw [hdecode]
    exact h.hostGives_tagged hlegal (by omega) (Nat.le_refl _)
  | sequence => exact h.hostGives_seq hlegal

/-- A decode begins before the whole content of the chunk open for reading (44_wire_decoder.md R312). -/
theorem goodDecode_decStarted (hs : s.Inv) (c : Chan) :
    GoodDecode (s.contentBytes c 0 (s.chan c).rlen) (decStarted c s) := by
  refine ⟨rfl, rfl, ?_, Nat.zero_le _, (hs.channels c).rlen_le⟩
  cases c <;> rfl

/-- The host's decode of a channel's open chunk: on CH0 `DEC_FIXED 1` takes the `hdr` byte, where there is one. -/
theorem hostGives_hostDecode (hs : s.Inv) (hopen : (s.chan c).ropen = true) (hwf : d.wf = true) :
    HostGives (decStarted c s) (hostDecode c d s)
      ((messageBytes c (s.contentBytes c 0 (s.chan c).rlen)).bind (decodeMsg d)) := by
  have hstart := goodDecode_decStarted hs c
  rw [hostDecode, if_pos hwf, issueThen_next (exec_decBegin_starts hopen)]
  cases c with
  | ch0 =>
    have hhdr : messageBytes .ch0 (s.contentBytes .ch0 0 (s.chan .ch0).rlen)
        = ((FieldEncoding.fixed 1).take (s.contentBytes .ch0 0 (s.chan .ch0).rlen)).map Prod.snd := by
      cases s.contentBytes .ch0 0 (s.chan .ch0).rlen <;> simp [messageBytes, FieldEncoding.take, takeFixed]
    rw [hhdr, Option.bind_map]
    exact hstart.hostGives_read (e := .fixed 1) (.inr (.inl rfl)) (fun u rest t _ ht _ => ht.hostGives_fields hwf)
      (fun t ht _ => ht.hostGives_fields hwf)
  | ch1 => exact hstart.hostGives_fields hwf
  | ch2 => exact hstart.hostGives_fields hwf

end Sys2Proof.Machine

namespace Sys2Proof.Proofs

open Sys2Proof.Machine

/-- Settles O60: the host's commands are a message of the fields' bytes, which fits; the reads of its decode take what
the descriptor's own functions take, and a decode that has failed gives no record. -/
theorem encodeCommandsCommitMessage : Obligations.EncodeCommandsCommitMessage := by
  refine ⟨fun d r bytes commands hbytes hcommands => ?_, fun d s c hs hopen => ⟨fun hwf => ?_, fun hill => ?_⟩⟩
  · obtain ⟨hwf, hbytes⟩ := Option.ite_none_right_eq_some.1 hbytes
    obtain ⟨-, hcommands⟩ := Option.ite_none_right_eq_some.1 hcommands
    cases hbytes
    cases hcommands
    exact ⟨length_encodeFields_le (d.fields_ok hwf),
      fun s hs hclosed hw hroom => execAll_encodeCommands hwf hs hclosed hw hroom r⟩
  · obtain ⟨t, hrun, hframe⟩ := hostGives_hostDecode hs hopen hwf
    exact ⟨t, hrun, hframe.symm⟩
  · rw [hostDecode, hill]
    rfl

end Sys2Proof.Proofs
end

section
/-! PROOFS. The control unit (46_control.md R380 to R383). -/

namespace Sys2Proof.Machine

variable {s : State}

/-- Bits 7:1 of the value are write-ignored and read as 0 (10_state.md R33, 46_control.md R382). -/
theorem exec_ctrlWrite (v : Byte) :
    exec (.ctrlWrite v) s = .next { s with ctrl := if v.getLsbD 0 then 0x01 else 0x00 } := by
  have hbit : v &&& 0x01 = if v.getLsbD 0 then 0x01 else 0x00 := (polarity_eq_iff v (v.getLsbD 0)).1 rfl
  calc
    exec (.ctrlWrite v) s = .next { s with ctrl := v &&& 0x01 } := rfl
    _ = .next { s with ctrl := if v.getLsbD 0 then 0x01 else 0x00 } := by rw [hbit]

end Sys2Proof.Machine

namespace Sys2Proof.Proofs

open Sys2Proof.Machine

/-- Settles O58: each encoding is a row of the map; the reads and `NOP` are what the model's arms say, and the value
`CTRL_WRITE` keeps is bit 0. -/
theorem controlCommands : Obligations.ControlCommands := by
  intro s v
  exact ⟨fun imm data => ⟨decode_row .nop imm data, decode_row .ctrlRead imm data, decode_row (.ctrlWrite 0) v data,
    decode_row .faultRead imm data⟩, rfl, rfl, exec_ctrlWrite v, rfl⟩

end Sys2Proof.Proofs
end

section
/-! PROOFS. Faults (60_exceptions.md R400 to R403): the fields of a recorded word, the operand checks that come before
any state is looked at, and the one way in which a command changes `FAULT`. -/

namespace Sys2Proof.Machine

variable {s t : State} {i : Instr} {cause : FaultCause}

/-! ### The fields of a recorded word (10_state.md R34, 60_exceptions.md R401) -/

/-- The recorded word is its fields one after the other: `VALID`, `UNIT`, `OP`, `CAUSE`. -/
theorem faultWord_eq_append (unit op : Nibble) (cause : FaultCause) :
    faultWord unit op cause = 1#16 ++ unit ++ op ++ cause.code :=
  calc
    faultWord unit op cause = (1#16 ++ unit ++ op ++ cause.code).setWidth 32 := by
      rw [BitVec.setWidth_append_append_append_eq_shiftLeft_setWidth_or]
      rfl
    _ = 1#16 ++ unit ++ op ++ cause.code := BitVec.setWidth_eq _

theorem faultWord_causeField (unit op : Nibble) (cause : FaultCause) :
    (faultWord unit op cause).extractLsb' 0 8 = cause.code := by
  rw [faultWord_eq_append, BitVec.extractLsb'_append_eq_right]

theorem faultWord_opField (unit op : Nibble) (cause : FaultCause) :
    (faultWord unit op cause).extractLsb' 8 4 = op := by
  rw [faultWord_eq_append, BitVec.extractLsb'_append_eq_of_le (by decide), BitVec.extractLsb'_append_eq_right]

theorem faultWord_unitField (unit op : Nibble) (cause : FaultCause) :
    (faultWord unit op cause).extractLsb' 12 4 = unit := by
  rw [faultWord_eq_append, BitVec.extractLsb'_append_eq_of_le (by decide),
    BitVec.extractLsb'_append_eq_of_le (by decide), BitVec.extractLsb'_append_eq_right]

theorem faultWord_reservedField (unit op : Nibble) (cause : FaultCause) :
    (faultWord unit op cause).extractLsb' 17 15 = 0 := by
  rw [faultWord_eq_append, BitVec.extractLsb'_append_eq_of_le (by decide),
    BitVec.extractLsb'_append_eq_of_le (by decide), BitVec.extractLsb'_append_eq_of_le (by decide)]
  rfl

/-! ### Operands outside their legal sets (30_encoding.md R108) -/

theorem widthOperand_of_illegal {w : Byte} (h : Instr.widthOperandLegal w = false) : widthOperand w = none := by
  rwa [← widthOperand_isSome, Option.isSome_eq_false_iff, Option.isNone_iff_eq_none] at h

theorem tag_of_illegal {tag : Byte} (h : Instr.tagOperandLegal tag = false) : tag = 0 := by
  simpa [Instr.tagOperandLegal] using h

theorem channelOperand_of_illegal {ch : BitVec 2} (h : Instr.channelOperandLegal ch = false) :
    channelOperand ch = none := by
  have hch : ch = 3 := by simpa [Instr.channelOperandLegal] using h
  rw [hch]
  rfl

theorem exec_decBegin_badChannel {ch : BitVec 2} (h : channelOperand ch = none) :
    exec (.decBegin ch) s = .next (recordFault 0x6 0x0 .badOperand s) := by
  simp only [exec, execDecBegin, h]
  rfl

/-- Only the commands with a width, a tag or a channel operand can be ill-formed, and each checks it first
(60_exceptions.md R402). -/
theorem exec_of_not_wf (h : i.wf = false) (s : State) :
    exec i s = .next (recordFault (unitOf i) (opOf i) .badOperand s) := by
  cases i with
  | encFixed w v => exact exec_encFixed_badWidth v (widthOperand_of_illegal h)
  | encTvarint tag v => exact if_pos (tag_of_illegal h)
  | encTfixed32 tag v => exact if_pos (tag_of_illegal h)
  | decBegin ch => exact exec_decBegin_badChannel (channelOperand_of_illegal h)
  | decFixed w => exact exec_decFixed_badWidth (widthOperand_of_illegal h)
  | _ => cases h

/-! ### `FAULT` under a command (60_exceptions.md R401, R403) -/

/-- `FAULT` is as it was, or all that happened is that a cause other than `ILLEGAL_COMMAND` was raised with the
command's `UNIT` and `OP`. -/
def FaultStep (i : Instr) (s t : State) : Prop :=
  t.fault = s.fault ∨ ∃ cause, cause ≠ .illegalCommand ∧ t = recordFault (unitOf i) (opOf i) cause s

/-- A fault that changes `FAULT` is the first since reset. -/
theorem FaultStep.of_changed (h : FaultStep i s t) (hne : t.fault ≠ s.fault) :
    s.fault.getLsbD 16 = false
      ∧ ∃ cause, cause ≠ .illegalCommand ∧ t = { s with fault := faultWord (unitOf i) (opOf i) cause } := by
  obtain ⟨cause, hcause, rfl⟩ := h.resolve_left hne
  cases hvalid : s.fault.getLsbD 16 with
  | true => exact absurd (congrArg State.fault (recordFault_sticky s _ _ _ hvalid)) hne
  | false => exact ⟨rfl, cause, hcause, recordFault_first s _ _ _ hvalid⟩

/-- The command `i` answers a next state, and its only way to change `FAULT` from `s` is a fault of its own. -/
abbrev AnswersFaultStep (i : Instr) (s : State) : Outcome → Prop := Answers (FaultStep i s)

theorem answersFaultStep_next (h : t.fault = s.fault) : AnswersFaultStep i s (.next t) := answers_next (.inl h)

theorem answersFaultStep_raiseFault (h : cause ≠ .illegalCommand) : AnswersFaultStep i s (raiseFault i cause s) :=
  answers_next (.inr ⟨cause, h, rfl⟩)

/-- A check that raises one of the command's faults in front of a meaning. -/
theorem answersFaultStep_guard {p : Prop} [Decidable p] {o : Outcome} (h : AnswersFaultStep i s o)
    (hcause : cause ≠ .illegalCommand := by decide) :
    AnswersFaultStep i s (if p then raiseFault i cause s else o) := by
  split
  · exact answersFaultStep_raiseFault hcause
  · exact h

theorem ReceiverFrame.fault_eq (h : ReceiverFrame s t) : t.fault = s.fault := (congrArg State.fault h).symm

theorem PulseFrame.fault_eq (h : PulseFrame s t) : t.fault = s.fault := (congrArg State.fault h).symm

theorem DecoderFrame.fault_eq (h : DecoderFrame s t) : t.fault = s.fault := (congrArg State.fault h).symm

theorem fault_encPut (bs : List Byte) : (encPut bs s).fault = s.fault := rfl

theorem answersFaultStep_execChReadEnd (c : Chan) : AnswersFaultStep (.chReadEnd c) s (execChReadEnd c s) :=
  answersFaultStep_guard (answersFaultStep_next
    ((decoderFrame_closeDecode c).fault_eq.trans (State.onChan_fault s c readEnd)))

theorem answersFaultStep_execRxByte (b : Byte) : AnswersFaultStep (.rxByte b) s (execRxByte b s) := by
  unfold execRxByte
  split
  · exact answersFaultStep_next rfl
  · exact answersFaultStep_next rfl
  · exact answersFaultStep_next (receiverFrame_rxDataByte b).fault_eq

theorem answersFaultStep_execEncFixed (w : Byte) (v : Word) :
    AnswersFaultStep (.encFixed w v) s (execEncFixed w v s) := by
  unfold execEncFixed
  split
  · exact answersFaultStep_raiseFault (by decide)
  · exact answersFaultStep_guard (answersFaultStep_next (fault_encPut _))

theorem answersFaultStep_execEncEnd : AnswersFaultStep .encEnd s (execEncEnd s) := by
  refine answersFaultStep_guard ?_
  rw [onChan_chunkClose]
  exact answersFaultStep_next rfl

theorem answersFaultStep_execDecBegin (ch : BitVec 2) : AnswersFaultStep (.decBegin ch) s (execDecBegin ch s) := by
  unfold execDecBegin
  split
  · exact answersFaultStep_raiseFault (by decide)
  · exact answersFaultStep_guard (answersFaultStep_next rfl)

theorem answersFaultStep_execDecFixed (w : Byte) : AnswersFaultStep (.decFixed w) s (execDecFixed w s) := by
  unfold execDecFixed
  split
  · exact answersFaultStep_raiseFault (by decide)
  · refine answersFaultStep_guard ?_
    split
    · exact answersFaultStep_next (decFail_fault s)
    · exact answersFaultStep_next rfl

theorem answersFaultStep_execDecVarint : AnswersFaultStep .decVarint s (execDecVarint s) := by
  refine answersFaultStep_guard ?_
  split
  · exact answersFaultStep_next (State.setResult_fault s 0)
  · split
    · exact answersFaultStep_next (decFail_fault s)
    · exact answersFaultStep_next rfl

/-- No command changes `FAULT` but by raising a fault of its own, which has no other effect (60_exceptions.md R403). -/
theorem exec_answersFaultStep (i : Instr) (s : State) : AnswersFaultStep i s (exec i s) := by
  cases i with
  | chWriteStart c =>
    exact answersFaultStep_guard (answersFaultStep_guard (answersFaultStep_next (State.onChan_fault s c _)))
  | chWrite c b =>
    exact answersFaultStep_guard (answersFaultStep_guard (answersFaultStep_next (State.onChan_fault s c _)))
  | chWriteEnd c =>
    exact answersFaultStep_guard (answersFaultStep_guard (answersFaultStep_next (State.onChan_fault s c _)))
  | chWriteAbort c =>
    exact answersFaultStep_guard (answersFaultStep_guard (answersFaultStep_next (State.onChan_fault s c _)))
  | chHasContent c => exact answersFaultStep_next (State.setResult_fault s _)
  | chReadStart c =>
    exact answersFaultStep_guard (answersFaultStep_guard (answersFaultStep_next (State.onChan_fault s c _)))
  | chRead c =>
    exact answersFaultStep_guard (answersFaultStep_guard (answersFaultStep_next (State.onChan_fault s c _)))
  | chPeek c k =>
    exact answersFaultStep_guard (answersFaultStep_guard (answersFaultStep_next (State.setResult_fault s _)))
  | chReadEnd c => exact answersFaultStep_execChReadEnd c
  | chAvail c => exact answersFaultStep_next (State.setResult_fault s _)
  | chIsWriting c => exact answersFaultStep_next (State.setResult_fault s _)
  | rxStart h => exact answersFaultStep_next (receiverFrame_rxAbandon (s := s)).fault_eq
  | rxByte b => exact answersFaultStep_execRxByte b
  | rxIsWriting => exact answersFaultStep_next (State.setResult_fault s _)
  | pulse isHigh d => exact answersFaultStep_next (pulseFrame_pdEvent isHigh d).fault_eq
  | pdStatus => exact answersFaultStep_next (State.setResult_fault s _)
  | encBegin => exact answersFaultStep_guard (answersFaultStep_guard (answersFaultStep_next rfl))
  | encFixed w v => exact answersFaultStep_execEncFixed w v
  | encVarint v => exact answersFaultStep_guard (answersFaultStep_next (fault_encPut _))
  | encTvarint tag v =>
    exact answersFaultStep_guard (answersFaultStep_guard (answersFaultStep_next (fault_encPut _)))
  | encTfixed32 tag v =>
    exact answersFaultStep_guard (answersFaultStep_guard (answersFaultStep_next (fault_encPut _)))
  | encEnd => exact answersFaultStep_execEncEnd
  | encStatus => exact answersFaultStep_next (State.setResult_fault s _)
  | decBegin ch => exact answersFaultStep_execDecBegin ch
  | decFixed w => exact answersFaultStep_execDecFixed w
  | decVarint => exact answersFaultStep_execDecVarint
  | decRemain => exact answersFaultStep_guard (answersFaultStep_next (State.setResult_fault s _))
  | decStatus => exact answersFaultStep_next (State.setResult_fault s _)
  | nop => exact answersFaultStep_next rfl
  | ctrlRead => exact answersFaultStep_next (State.setResult_fault s _)
  | ctrlWrite v => exact answersFaultStep_next rfl
  | faultRead => exact answersFaultStep_next (State.setResult_fault s _)

/-- A command word, legal or illegal, leaves a recorded fault as it is (60_exceptions.md R401). -/
theorem perform_keepsFault (cmd : Half) (data : Word) (hvalid : s.fault.getLsbD 16 = true) :
    Answers (fun t => t.fault = s.fault) (perform cmd data s) := by
  cases hdecode : decode cmd data with
  | error why =>
    rw [perform_error hdecode]
    exact answers_next (congrArg State.fault (recordFault_sticky s _ _ _ hvalid))
  | ok i =>
    rw [perform_ok hdecode]
    obtain ⟨t, hexec, hstep⟩ := exec_answersFaultStep i s
    refine ⟨t, hexec, by_contra fun hne => ?_⟩
    obtain ⟨hunset, -⟩ := hstep.of_changed hne
    exact absurd (hvalid.symm.trans hunset) (by decide)

end Sys2Proof.Machine

namespace Sys2Proof.Proofs

open Sys2Proof.Machine

/-- Settles O15: the only way in which a command changes `FAULT` is to raise a fault of its own while none is recorded;
an illegal command word, too, raises one only then. -/
theorem faultsArePreciseAndSticky : Obligations.FaultsArePreciseAndSticky :=
  ⟨fun i s _ hexec => ((exec_answersFaultStep i s).of_next hexec).of_changed,
    fun cmd data _ _ hperform hvalid => (perform_keepsFault cmd data hvalid).of_next hperform⟩

/-- Settles O14: the recorded word is the four fields one after the other. -/
theorem firstFaultIsRecorded : Obligations.FirstFaultIsRecorded := by
  refine ⟨fun unit op cause s hvalid => recordFault_sticky s unit op cause hvalid, fun unit op cause s hunset => ?_,
    rfl, rfl, rfl, rfl, rfl, rfl, rfl, rfl, rfl, rfl, rfl, rfl, rfl⟩
  exact ⟨faultWord unit op cause, recordFault_first s unit op cause hunset, faultWord_causeField unit op cause,
    faultWord_opField unit op cause, faultWord_unitField unit op cause, faultWord_valid unit op cause,
    faultWord_reservedField unit op cause⟩

/-- Settles O16: the commands with an operand check make it before they look at the state. -/
theorem illegalOperandsFaultFirst : Obligations.IllegalOperandsFaultFirst := fun _ s h => exec_of_not_wf h s

end Sys2Proof.Proofs
end

section
/-! PROOFS. Reset and the command port (70_reset_and_hazards.md R440, R441, R460). -/

namespace Sys2Proof.Machine

variable {s : State}

/-- In a well-formed configuration only the end of the inputs stops a run: a reset event and a command word, legal or
illegal, both answer a next state (70_reset_and_hazards.md R460). -/
theorem step_next_of_input {i : Input} {rest : List Input} (hwf : s.cfg.wf = true) (hin : s.inputs = i :: rest) :
    ∃ t, step s = .next t := by
  cases i with
  | reset => exact ⟨s.takeReset rest, step_reset hwf hin⟩
  | command c =>
    obtain ⟨t, hnext, -⟩ := perform_keepsPort c.cmd c.data (s.takeCommand rest)
    exact ⟨t, (step_command hwf hin).trans hnext⟩

end Sys2Proof.Machine

namespace Sys2Proof.Proofs

open Sys2Proof.Machine

/-- Settles O10: every command answers a state with the port of the state before. -/
theorem commandsKeepParametersAndPort : Obligations.CommandsKeepParametersAndPort := by
  intro i s t hexec
  obtain ⟨t', hnext, hport⟩ := exec_keepsPort i s
  cases hexec.symm.trans hnext
  exact State.port_eq_iff.1 hport

/-- Settles O8: one equation of `step` per kind of input and configuration. -/
theorem stepResetsEndsOrGoesOn : Obligations.StepResetsEndsOrGoesOn :=
  ⟨fun _ _ => step_reset, fun _ => step_nil, fun _ => step_of_not_wf, fun _ _ _ => step_next_of_input⟩

end Sys2Proof.Proofs
end
